-- ==== Sys2Proof/Word.lean ====
section
/-! DEFINITION. The value types of the vc2 Inspector CDC block: bytes, pixels, coordinates, port addresses,
key codes, the pixel grid and the memory image. -/

namespace Sys2Proof

/-- One byte of the consumer's memory image (10_state.md R32). -/
abbrev Byte := BitVec 8

/-- A 32-bit colour; the block attaches no meaning to its bits (10_state.md R24). -/
abbrev Pixel := BitVec 32

/-- A column or row on the port C bus (30_encoding.md R81). -/
abbrev Coord := BitVec 16

/-- The 32-bit address field `c_addr` (30_encoding.md R81). -/
abbrev Addr := BitVec 32

/-- A key code on the 16-bit buses `p_code` and `c_rcode` (30_encoding.md R82, R83). -/
abbrev KeyCode := BitVec 16

/-- A grid of pixels, row 0 first, each row from x = 0: `fb[y][x]` (00_scope.md R10). -/
abbrev Grid := List (List Pixel)

/-- The memory image as (address, byte) pairs in canonical form: addresses strictly rising, and no byte
equal to what an unlisted address reads as (10_state.md R32). -/
abbrev Memory := List Host.Cell

/-- The emulated CPU's private state, of OPEN type: any such state, coded as one number
(00_scope.md R12, 92_eei_decisions.md D43). DESIGN CHOICE, safe: log 5. -/
abbrev CpuState := Nat

/-- The keyboard-status representation, of OPEN type: any such state, coded as one number
(10_state.md R33, 92_eei_decisions.md D29). DESIGN CHOICE, safe: log 5. -/
abbrev KbdState := Nat

end Sys2Proof
end

