-- ==== Sys2Proof/Syntax.lean ====
section
/-! DEFINITION. The abstract syntax: ports, event kinds, request words, and `Instr`, one constructor per row of
spec/opcode_table.json. -/

namespace Sys2Proof

/-- The block's two ports: C is the consumer's, P the producer's (30_encoding.md R80). -/
inductive Port where
  | c
  | p
  deriving DecidableEq, Repr, Inhabited

/-- The kind a mailbox slot or a response holds (10_state.md R21, 30_encoding.md R88). The value 3 is never held. -/
inductive EventKind where
  | none
  | pressed
  | released
  deriving DecidableEq, Repr, Inhabited

/-- The four values of the request field `p_kind` (30_encoding.md R88). -/
inductive KindField where
  | none
  | pressed
  | released
  | reserved
  deriving DecidableEq, Repr, Inhabited

/-- The kind of an event: pressed or released, never None (42_mailbox.md R150). -/
inductive Edge where
  | pressed
  | released
  deriving DecidableEq, Repr, Inhabited

/-- An event: a kind and a key code (42_mailbox.md R150). -/
structure Event where
  edge : Edge
  code : KeyCode
  deriving DecidableEq, Repr, Inhabited

/-- A request as its port carries it: the canonical packed word (30_encoding.md R92). -/
inductive ReqWord where
  | c (w : BitVec 104)
  | p (w : BitVec 24)
  deriving DecidableEq, Repr, Inhabited

/-- The port that carries a request word. -/
def ReqWord.port : ReqWord → Port
  | .c _ => .c
  | .p _ => .p

/-- The operations of the block, with the request fields each one reads (30_encoding.md R85, R86). -/
inductive Instr where
  /-- IDLE, op 0x0, format N, on either port (40_port_protocol.md R108). -/
  | idle (port : Port)
  /-- TAKE, op 0x1, format T, port C (42_mailbox.md R152). -/
  | take (ie : Bool)
  /-- SET, op 0x2, format XYD, port C (41_framebuffer.md R121). -/
  | set (x y : Coord) (data : Pixel)
  /-- GET, op 0x3, format XY, port C (41_framebuffer.md R122). -/
  | get (x y : Coord)
  /-- VSTORE, op 0x4, format AD, port C (41_framebuffer.md R124). -/
  | vstore (addr : Addr) (data : Pixel)
  /-- PUBLISH, op 0x8, format K, port P (42_mailbox.md R151). -/
  | publish (kind : KindField) (code : KeyCode)
  /-- SNAPSHOT, op 0x9, format N, port P (41_framebuffer.md R123). -/
  | snapshot
  deriving DecidableEq, Repr, Inhabited

/-- The port an operation is admitted on; IDLE on the one it is presented on (30_encoding.md R85). -/
def Instr.port : Instr → Port
  | .idle port => port
  | .take _ | .set _ _ _ | .get _ _ | .vstore _ _ => .c
  | .publish _ _ | .snapshot => .p

/-- Whether the operation is IDLE, the absence of a request (30_encoding.md R91 (c)). -/
def Instr.isIdle : Instr → Bool
  | .idle _ => true
  | _ => false

/-- The pseudo-operation `DRAIN`: a TAKE with ie = 0 (30_encoding.md R94). -/
def Instr.drain : Instr := .take false

end Sys2Proof
end

