-- ==== Sys2Proof/Config.lean ====
section
/-! DEFINITION. What is fixed for the machine (00_scope.md R7): the configuration record, the consumer's
parameters (00_scope.md R12), the moves of the four agents, and the free values, which have no body. -/

namespace Sys2Proof

/-- `VEC_ENDIAN`: the byte order of the vector read (00_scope.md R7). -/
inductive Endian where
  | little
  | big
  deriving DecidableEq, Repr, Inhabited

/-- Who drives a port: the activity of 43_activities.md, or an agent that issues any requests in any order
(43_activities.md, opening paragraph). Log 11. -/
inductive Client where
  | activity
  | free
  deriving DecidableEq, Repr, Inhabited

/-- The configuration of 00_scope.md R7, plain data. Its numbers are naturals: addresses and sizes never
wrap (20_memory.md R52). Log 1. -/
structure Config where
  /-- `W` -/
  width : Nat
  /-- `H` -/
  height : Nat
  /-- `PIXEL_BYTES`, decided 4 by D9 and held to it by the well-formedness check (log 23) -/
  pixelBytes : Nat
  /-- `VRAM_BASE` -/
  vramBase : Nat
  /-- `VRAM_STRIDE` -/
  vramStride : Nat
  /-- `MEM_SIZE` -/
  memSize : Nat
  /-- `ADDR_W` -/
  addrW : Nat
  /-- `VECTOR_ADDR` -/
  vectorAddr : Nat
  /-- `VEC_BYTES` -/
  vecBytes : Nat
  /-- `VEC_ENDIAN` -/
  vecEndian : Endian
  /-- `KEY_W` -/
  keyW : Nat
  /-- `KEY_SPACE` -/
  keySpace : Nat
  /-- `KEY_UP` -/
  keyUp : Nat
  /-- `KEY_DOWN` -/
  keyDown : Nat
  /-- `KEY_LEFT` -/
  keyLeft : Nat
  /-- `KEY_RIGHT` -/
  keyRight : Nat
  /-- `IRQ_QUALIFIES(Pressed, ·)`: the codes for which it holds (log 7) -/
  irqPressed : List Nat
  /-- `IRQ_QUALIFIES(Released, ·)`: the codes for which it holds (log 7) -/
  irqReleased : List Nat
  /-- `TICK_PERIOD`, timing only: no rule reads it (70_reset_and_hazards.md R250, log 24) -/
  tickPeriod : Nat
  /-- who drives port C (log 11) -/
  cClient : Client
  /-- who drives port P (log 11) -/
  pClient : Client
  deriving DecidableEq, Repr, Inhabited

/-- Configuration E of 95_test_vectors.md §0, with the two activities as clients. The spec calls its values
example parameter values: DESIGN CHOICE, unsafe, for `State.reset` alone (log 2). -/
def Config.specE : Config where
  width := 4
  height := 2
  pixelBytes := 4
  vramBase := 0x100
  vramStride := 16
  memSize := 0x200
  addrW := 16
  vectorAddr := 0x1F0
  vecBytes := 4
  vecEndian := .little
  keyW := 8
  keySpace := 0
  keyUp := 1
  keyDown := 2
  keyLeft := 3
  keyRight := 4
  irqPressed := List.range 256
  irqReleased := []
  tickPeriod := 6
  cClient := .activity
  pClient := .activity

/-- Where an instruction that stores goes next (00_scope.md R12, `next`). -/
inductive IsaNext where
  | seq
  | jump (target : Nat)
  deriving DecidableEq, Repr, Inhabited

/-- The `action` of an `ISA_STEP` record (00_scope.md R12). An address is an unsigned value of ADDR_W ≤ 32 bits
(20_memory.md R52); a target is a natural, checked against MEM_SIZE where it is used. -/
inductive IsaAction where
  | seq
  | jump (target : Nat)
  | halt
  | store (addr : Addr) (n : Nat) (value : Nat) (next : IsaNext)
  deriving DecidableEq, Repr, Inhabited

/-- The record an `ISA_STEP` answer carries (00_scope.md R12). -/
structure IsaRecord where
  len : Nat
  reads : List Nat
  cpu : CpuState
  ie : Bool
  action : IsaAction
  deriving DecidableEq, Repr, Inhabited

/-- The three answers of `ISA_STEP` (00_scope.md R12). -/
inductive IsaAnswer where
  | fetchOob
  | isaFault
  | record (r : IsaRecord)
  deriving DecidableEq, Repr, Inhabited

/-- The consumer's parameters, total functions (00_scope.md R9, R12): `ISA_STEP`, `TO_COLOR`, `KBD_UPDATE`, and
the byte order of a plain store, which is ISA-side (00_scope.md R11): `bytePlace n k` says where byte `k` of an
`n`-byte value goes among the bytes below it, so that the order is open and the value is not. Log 6. -/
structure Isa where
  step : Config → CpuState → Memory → Nat → Bool → IsaAnswer
  toColor : Nat → Pixel
  kbdUpdate : KbdState → EventKind → KeyCode → KbdState
  bytePlace : Nat → Nat → Nat
  deriving Inhabited

/-- One step of one agent (43_activities.md R170), with what the host draws for it. Log 8. -/
inductive Move where
  /-- The block performs a port (40_port_protocol.md R102). -/
  | perform (port : Port)
  /-- The consumer takes its next step (43_activities.md R176). -/
  | consumer
  /-- The producer takes its next step; the host supplies the transitions the input source yields (R173, log 32) and
  whether presentation succeeds (R172), read only in the phase that asks. -/
  | producer (events : List Event) (presented : Bool)
  /-- The agent of a port drives a request bundle (30_encoding.md R80). -/
  | present (req : ReqWord)
  /-- A free agent retires the response on its port (40_port_protocol.md R103). -/
  | retire (port : Port)
  /-- The host asserts shutdown for the consumer, the producer or both (43_activities.md R186). -/
  | shutdown (consumer producer : Bool)
  deriving DecidableEq, Repr, Inhabited

/-- FREE VALUE: `ISA_STEP`, `TO_COLOR`, `KBD_UPDATE` and the store byte order of this machine (log 6). -/
opaque Config.isa : Isa

/-- FREE VALUE: which step happens at tick `n` when nothing is lined up (40_port_protocol.md R105, log 8). -/
opaque Config.nextMove : Nat → Move

/-- FREE VALUE: `FB_INIT`, the colour at column x and row y (10_state.md R24, log 3). -/
opaque Config.fbInit : Nat → Nat → Pixel

/-- FREE VALUE: `IE_RESET` (10_state.md R31, log 3). -/
opaque Config.ieReset : Bool

/-- FREE VALUE: `CPU_INIT` (10_state.md R29, log 3). -/
opaque Config.cpuInit : CpuState

/-- FREE VALUE: `KBD_INIT` (10_state.md R33, log 3). -/
opaque Config.kbdInit : KbdState

/-- FREE VALUE: the draw of `mb_code` at reset (10_state.md R22, log 3). -/
opaque Config.mbCodeInit : KeyCode

/-- The OPEN reset parameters and the loader's image (00_scope.md R7, 70_reset_and_hazards.md R231, R233). -/
structure Boot where
  fbInit : Nat → Nat → Pixel
  ieReset : Bool
  cpuInit : CpuState
  kbdInit : KbdState
  mbCode : KeyCode
  image : Memory

/-- The reset parameters of `State.reset`: the free values, and an image that lists nothing (log 3, log 4). -/
def Config.boot : Boot where
  fbInit := Config.fbInit
  ieReset := Config.ieReset
  cpuInit := Config.cpuInit
  kbdInit := Config.kbdInit
  mbCode := Config.mbCodeInit
  image := []

end Sys2Proof
end

