-- ==== Sys2Proof/WellFormed.lean ====
section
/-! DEFINITION. The named checks of a configuration (00_scope.md R8, the values of PIXEL_BYTES and KEY_W in R7) and the field
widths of an instruction (30_encoding.md R87). -/

namespace Sys2Proof

/-- `cfg_fb_size` (00_scope.md R8). -/
def Config.fbSizeOk (k : Config) : Bool :=
  decide (1 ≤ k.width) && decide (k.width ≤ 65536) && decide (1 ≤ k.height) && decide (k.height ≤ 65536)

/-- `cfg_pixel` (00_scope.md R8). -/
def Config.pixelOk (k : Config) : Bool :=
  decide (1 ≤ k.pixelBytes) && decide (k.pixelBytes ≤ k.vramStride)

/-- The decided value of PIXEL_BYTES (00_scope.md R7, row `PIXEL_BYTES`). Log 23. -/
def Config.pixelBytesOk (k : Config) : Bool := decide (k.pixelBytes = 4)

/-- `cfg_vram_in_image` (00_scope.md R8). -/
def Config.vramInImage (k : Config) : Bool :=
  decide (k.vramBase + k.vramStride * k.height ≤ k.memSize)

/-- `cfg_addr` (00_scope.md R8). -/
def Config.addrOk (k : Config) : Bool :=
  decide (1 ≤ k.addrW) && decide (k.addrW ≤ 32) && decide (1 ≤ k.memSize) && decide (k.memSize ≤ 2 ^ k.addrW)

/-- `cfg_vector_in_image` (00_scope.md R8). -/
def Config.vectorInImage (k : Config) : Bool :=
  decide (1 ≤ k.vecBytes) && decide (k.vectorAddr + k.vecBytes ≤ k.memSize)

/-- `cfg_vector_not_vram` (00_scope.md R8): the vector bytes end before the VRAM range or begin after it. -/
def Config.vectorNotVram (k : Config) : Bool :=
  decide (k.vectorAddr + k.vecBytes ≤ k.vramBase) ||
    decide (k.vramBase + k.vramStride * k.height ≤ k.vectorAddr)

/-- The five key codes, in the order of 00_scope.md R7. -/
def Config.keys (k : Config) : List Nat := [k.keySpace, k.keyUp, k.keyDown, k.keyLeft, k.keyRight]

/-- `cfg_keys` (00_scope.md R8): pairwise distinct, each below 2^KEY_W. -/
def Config.keysOk (k : Config) : Bool :=
  decide k.keys.Nodup && k.keys.all fun c => decide (c < 2 ^ k.keyW)

/-- The range of KEY_W (00_scope.md R7, row `KEY_W`). Log 19. -/
def Config.keyWidthOk (k : Config) : Bool := decide (3 ≤ k.keyW) && decide (k.keyW ≤ 16)

/-- A configuration is well-formed when every check holds (00_scope.md R8, and R7's two rows above). -/
def Config.wf (k : Config) : Bool :=
  k.fbSizeOk && k.pixelOk && k.vramInImage && k.addrOk && k.vectorInImage && k.vectorNotVram && k.keysOk &&
    k.pixelBytesOk && k.keyWidthOk

/-- An instruction is well-formed when the bounded field it READS keeps its bound (30_encoding.md R87): `c_addr`
below 2^ADDR_W for VSTORE, `p_code` below 2^KEY_W for PUBLISH. Fields it does not read are ignored (R86). Log 13. -/
def Instr.wf (k : Config) : Instr → Bool
  | .vstore addr _ => decide (addr.toNat < 2 ^ k.addrW)
  | .publish _ code => decide (code.toNat < 2 ^ k.keyW)
  | .idle _ | .take _ | .set _ _ _ | .get _ _ | .snapshot => true

end Sys2Proof
end

