-- ==== Sys2Proof/Decode.lean ====
section
/-! DEFINITION. Decoding request words, total and rejecting by name, and the encoder beside it, both from the packed
words of 30_encoding.md R92 and the operation map of R85. -/

namespace Sys2Proof

/-- Why a request word is no operation of its port: its op is not admitted there (30_encoding.md R91 (a)). -/
inductive DecodeError where
  | badOp (port : Port) (op : BitVec 4)
  deriving DecidableEq, Repr

/-- The four values of a 2-bit kind field (30_encoding.md R88). -/
def kindOfBits (v : BitVec 2) : KindField :=
  if v = 0 then .none else if v = 1 then .pressed else if v = 2 then .released else .reserved

/-- The 2 bits of a request's kind field (30_encoding.md R88). -/
def KindField.bits : KindField → BitVec 2
  | .none => 0
  | .pressed => 1
  | .released => 2
  | .reserved => 3

/-- `c_op` or `p_op`: bits [3:0] of either request word (30_encoding.md R92). -/
def ReqWord.op : ReqWord → BitVec 4
  | .c w => w.extractLsb' 0 4
  | .p w => w.extractLsb' 0 4

/-- Decoding on port C (30_encoding.md R85, R87, R92). -/
def decodeC (w : BitVec 104) : Except DecodeError Instr :=
  let op := w.extractLsb' 0 4
  let x := w.extractLsb' 8 16
  let y := w.extractLsb' 24 16
  let data := w.extractLsb' 40 32
  let addr := w.extractLsb' 72 32
  if op = 0x0 then .ok (.idle .c)
  else if op = 0x1 then .ok (.take (w.extractLsb' 4 1 == 1))
  else if op = 0x2 then .ok (.set x y data)
  else if op = 0x3 then .ok (.get x y)
  else if op = 0x4 then .ok (.vstore addr data)
  else .error (.badOp .c op)

/-- Decoding on port P (30_encoding.md R85, R87, R92). -/
def decodeP (w : BitVec 24) : Except DecodeError Instr :=
  let op := w.extractLsb' 0 4
  if op = 0x0 then .ok (.idle .p)
  else if op = 0x8 then .ok (.publish (kindOfBits (w.extractLsb' 4 2)) (w.extractLsb' 8 16))
  else if op = 0x9 then .ok .snapshot
  else .error (.badOp .p op)

/-- Decoding a request on the port that carries it: every word has a verdict (30_encoding.md R91). -/
def decode : ReqWord → Except DecodeError Instr
  | .c w => decodeC w
  | .p w => decodeP w

/-- The bounds of 30_encoding.md R87 on the whole bundle: `c_addr` below 2^ADDR_W, `p_code` below 2^KEY_W. -/
def rawWidthOk (k : Config) : ReqWord → Bool
  | .c w => decide ((w.extractLsb' 72 32).toNat < 2 ^ k.addrW)
  | .p w => decide ((w.extractLsb' 8 16).toNat < 2 ^ k.keyW)

/-- The field-width check of an issue (40_port_protocol.md R101, R110): an operation's check looks at the bounded
field it reads (30_encoding.md R86), an illegal request's at the bounded field of its bundle (R87). Log 13. -/
def widthOk (k : Config) (r : ReqWord) : Bool :=
  match decode r with
  | .ok i => i.wf k
  | .error _ => rawWidthOk k r

/-- A key code cut to KEY_W bits (10_state.md R22, 43_activities.md R173); one that has no more is as it was. -/
def cutCode (k : Config) (code : KeyCode) : KeyCode := BitVec.ofNat 16 (code.toNat % 2 ^ k.keyW)

/-- A C request word from its fields, the highest first (30_encoding.md R92). -/
def packC (addr : Addr) (data : Pixel) (y x : Coord) (ie : Bool) (op : BitVec 4) : BitVec 104 :=
  addr ++ data ++ y ++ x ++ 0#3 ++ BitVec.ofBool ie ++ op

/-- A P request word from its fields, the highest first (30_encoding.md R92). -/
def packP (code : KeyCode) (kind : BitVec 2) (op : BitVec 4) : BitVec 24 :=
  code ++ 0#2 ++ kind ++ op

/-- The word of an instruction: the fields its format does not name are 0 (30_encoding.md R92, R93). -/
def encode : Instr → ReqWord
  | .idle .c => .c (packC 0 0 0 0 false 0x0)
  | .idle .p => .p (packP 0 0 0x0)
  | .take ie => .c (packC 0 0 0 0 ie 0x1)
  | .set x y data => .c (packC 0 data y x false 0x2)
  | .get x y => .c (packC 0 0 y x false 0x3)
  | .vstore addr data => .c (packC addr data 0 0 false 0x4)
  | .publish kind code => .p (packP code kind.bits 0x8)
  | .snapshot => .p (packP 0 0 0x9)

/-- The request word a table row's bits stand for, all bits above `nbits` zero. Bit 3 of the op is 1 exactly for
the producer's operations (30_encoding.md R85), so it selects the port; IDLE is laid out on port C. Log 29. -/
def tableRequest (nbits w : Nat) : ReqWord :=
  let v := w % 2 ^ nbits
  if v / 8 % 2 = 1 then .p (BitVec.ofNat 24 v) else .c (BitVec.ofNat 104 v)

/-- What the decoder reads from a table row's bits. -/
def decodeTableWord (nbits w : Nat) : Option Instr :=
  match decode (tableRequest nbits w) with
  | .ok i => some i
  | .error _ => none

end Sys2Proof
end

