-- ==== Sys2Proof/Machine/State.lean ====
section
/-! DEFINITION. The machine's state as plain data (10_state.md R20 to R34), its stop reasons, and the state after
reset (70_reset_and_hazards.md R231). -/

namespace Sys2Proof.Machine

open Sys2Proof

/-- Why the model stops with a fault. The block's own faults (60_exceptions.md R200) and the consumer's fatal ends
(R206) are next states, not these. -/
inductive Fault where
  /-- Raised by the meaning of an operation called on a port that holds no pending request, where 40_port_protocol.md
  R102 gives no perform. No step raises it. Safe: the model stops (log 16). -/
  | notPending (port : Port)
  deriving DecidableEq, Repr

/-- Why the model gives a state no meaning (60_exceptions.md R207). -/
inductive Refusal where
  /-- The instruction has no meaning yet. Raised by no arm of `exec`: every one has its meaning. Safe. -/
  | notModelled (mnemonic : String)
  /-- `cfg`: the configuration fails a check (00_scope.md R8). Raised by `step`. Safe. -/
  | cfg
  /-- `field_width`: an address or key code is too wide (30_encoding.md R87). Raised by an issue of a legal or an
  illegal request, and by a perform of an operation no issue admits. Safe. -/
  | fieldWidth
  /-- `vram_read`: a fetch or load meets the VRAM range (20_memory.md R57). Raised by the consumer's Fetch. Safe. -/
  | vramRead
  deriving DecidableEq, Repr

/-- The status of a response (30_encoding.md R89). The values 5 to 7 are never driven. -/
inductive Status where
  | ok
  | noEvent
  | event
  | notVram
  | fault
  deriving DecidableEq, Repr, Inhabited

/-- A fault cause, the value of a fault register (30_encoding.md R90). The values 6 and 7 are never driven. -/
inductive Cause where
  | none
  | fbBounds
  | vramMap
  | vramAlign
  | badOp
  | badKind
  deriving DecidableEq, Repr, Inhabited

/-- The response of port C but for `c_fault`, which is driven from its register (30_encoding.md R82). -/
structure CRsp where
  st : Status
  irq : Bool
  rkind : EventKind
  rcode : KeyCode
  rdata : Pixel
  deriving DecidableEq, Repr, Inhabited

/-- The response of port P but for `p_fault`, which is driven from its register (30_encoding.md R84). -/
structure PRsp where
  st : Status
  snap : Grid
  deriving DecidableEq, Repr, Inhabited

/-- The handshake state of port C (10_state.md R25). -/
inductive CPort where
  | idle
  | pending (req : BitVec 104)
  | done (rsp : CRsp)
  | stopped
  deriving DecidableEq, Repr, Inhabited

/-- The handshake state of port P (10_state.md R25). -/
inductive PPort where
  | idle
  | pending (req : BitVec 24)
  | done (rsp : PRsp)
  | stopped
  deriving DecidableEq, Repr, Inhabited

/-- The block's state (10_state.md R21 to R27). -/
structure Block where
  /-- `mb_kind` (R21) -/
  mbKind : EventKind
  /-- `mb_code` (R22): KEY_W bits on a 16-bit bus -/
  mbCode : KeyCode
  /-- `mb_occ` (R23) -/
  mbOcc : Bool
  /-- `fb` (R24) -/
  fb : Grid
  /-- `c_port` (R25) -/
  cPort : CPort
  /-- `p_port` (R25) -/
  pPort : PPort
  /-- `c_fault` (R26) -/
  cFault : Cause
  /-- `p_fault` (R26) -/
  pFault : Cause
  /-- `g_fb` (R27) -/
  gFb : Option Port
  /-- `g_mb` (R27) -/
  gMb : Option Port
  deriving DecidableEq, Repr, Inhabited

/-- The phase of the consumer's cycle (10_state.md R29). -/
inductive CPhase where
  | inputCheck
  | fetch
  | execute
  | advance
  deriving DecidableEq, Repr, Inhabited

/-- The causes of a fatal end of the consumer (60_exceptions.md R206). -/
inductive Fatal where
  | fetchOob
  | jumpOob
  | memOob
  | isa
  | block (cause : Cause)
  deriving DecidableEq, Repr, Inhabited

/-- The consumer's run status `crun` (10_state.md R29, 60_exceptions.md R206). -/
inductive CRun where
  | running
  | endedEnd
  | endedHalt
  | fatal (cause : Fatal)
  | shutdown
  deriving DecidableEq, Repr, Inhabited

/-- The consumer's private state (10_state.md R29 to R33). -/
structure Consumer where
  /-- `pc` (R30) -/
  pc : Nat
  /-- `cpu` (R29) -/
  cpu : CpuState
  /-- `mem` (R32) -/
  mem : Memory
  /-- `ie` (R31) -/
  ie : Bool
  /-- `kbd` (R33) -/
  kbd : KbdState
  /-- `cphase` (R29) -/
  phase : CPhase
  /-- `crun` (R29) -/
  run : CRun
  /-- the record Fetch hands to Execute and Advance (43_activities.md R180) -/
  fetched : Option IsaRecord
  /-- whether the shutdown check between two cycles is due (43_activities.md R183, log 17) -/
  checkDue : Bool
  /-- the response read at the last retire (40_port_protocol.md R103, log 11) -/
  last : Option CRsp
  deriving DecidableEq, Repr, Inhabited

/-- The phase of the producer's tick (10_state.md R34). -/
inductive PPhase where
  | snapshot
  | present
  | input
  | sleep
  deriving DecidableEq, Repr, Inhabited

/-- The producer's run status `prun` (10_state.md R34). -/
inductive PRun where
  | running
  | stopped
  | shutdown
  deriving DecidableEq, Repr, Inhabited

/-- The producer's private state (10_state.md R34). -/
structure Producer where
  /-- `pphase` -/
  phase : PPhase
  /-- `last_snap` -/
  lastSnap : Option Grid
  /-- `prun` -/
  run : PRun
  /-- the transitions of this tick still to publish, none before the input source is asked (43_activities.md R173,
  log 22) -/
  todo : Option (List Event)
  /-- the response read at the last retire (40_port_protocol.md R103, log 11) -/
  last : Option PRsp
  deriving DecidableEq, Repr, Inhabited

/-- The host's side (43_activities.md R186) and the choice of the next step (40_port_protocol.md R105). -/
structure HostSide where
  /-- the moves lined up, the next one first (log 8) -/
  sched : List Move
  /-- the counter the free choice of a move is drawn with (log 8) -/
  tick : Nat
  /-- the shutdown signal for the consumer (43_activities.md R183, log 18) -/
  shutC : Bool
  /-- the shutdown signal for the producer (43_activities.md R174, log 18) -/
  shutP : Bool
  /-- the frame handed to the presentation sink last, and whether presentation succeeded (43_activities.md R172,
  log 22) -/
  sink : Option (Grid × Bool)
  deriving DecidableEq, Repr, Inhabited

/-- The model state (10_state.md R20), with the configuration as a constant field (log 1). -/
structure State where
  cfg : Config
  block : Block
  cons : Consumer
  prod : Producer
  host : HostSide
  deriving DecidableEq, Repr, Inhabited

/-- The w×h grid whose pixel at column x and row y is `f x y`. -/
def gridOf (w h : Nat) (f : Nat → Nat → Pixel) : Grid :=
  (List.range h).map fun y => (List.range w).map fun x => f x y

/-- The state after reset for any configuration and any reset parameters (70_reset_and_hazards.md R231). The draw of
`mb_code` is cut to KEY_W bits (10_state.md R22). -/
def State.resetOf (k : Config) (b : Boot) : State where
  cfg := k
  block :=
    { mbKind := .none
      mbCode := cutCode k b.mbCode
      mbOcc := false
      fb := gridOf k.width k.height b.fbInit
      cPort := .idle
      pPort := .idle
      cFault := .none
      pFault := .none
      gFb := none
      gMb := none }
  cons :=
    { pc := 0
      cpu := b.cpuInit
      mem := b.image
      ie := b.ieReset
      kbd := b.kbdInit
      phase := .inputCheck
      run := .running
      fetched := none
      checkDue := false
      last := none }
  prod :=
    { phase := .snapshot
      lastSnap := none
      run := .running
      todo := none
      last := none }
  host :=
    { sched := []
      tick := 0
      shutC := false
      shutP := false
      sink := none }

/-- The machine right after reset: Configuration E, and the free reset parameters (log 2, log 3, log 4). -/
def State.reset : State := State.resetOf Config.specE Config.boot

end Sys2Proof.Machine
end

