-- ==== Sys2Proof/Machine/Flags.lean ====
section
/-! DEFINITION. The flag-like bits (10_state.md R35): the interrupt request of a TAKE, and the codes the host reads. -/

namespace Sys2Proof.Machine

open Sys2Proof

/-- `IRQ_QUALIFIES(kind, code)`, a parameter (00_scope.md R7); no event has kind None (42_mailbox.md R150). -/
def irqQualifies (k : Config) (kind : EventKind) (code : KeyCode) : Bool :=
  match kind with
  | .none => false
  | .pressed => k.irqPressed.contains code.toNat
  | .released => k.irqReleased.contains code.toNat

/-- `c_irq` for an event taken with `c_ie = ie` (42_mailbox.md R153). -/
def irqRequest (k : Config) (ie : Bool) (kind : EventKind) (code : KeyCode) : Bool :=
  ie && irqQualifies k kind code

/-- The numeric termination code of `crun` (60_exceptions.md R206). -/
def crunCode : CRun → Nat
  | .running => 0
  | .endedEnd => 1
  | .endedHalt => 2
  | .fatal .fetchOob => 3
  | .fatal .jumpOob => 4
  | .fatal .memOob => 5
  | .fatal .isa => 6
  | .fatal (.block _) => 7
  | .shutdown => 8

end Sys2Proof.Machine
end

