-- ==== Sys2Proof/Machine/Operands.lean ====
section
/-! DEFINITION. Operands and address arithmetic on naturals: the coordinate check, the VRAM range and its decode, and
the packed response words. -/

namespace Sys2Proof.Machine

open Sys2Proof

/-- `in_fb(x, y)` (41_framebuffer.md R120). -/
def inFb (k : Config) (x y : Nat) : Bool := decide (x < k.width) && decide (y < k.height)

/-- `VRAM_HI`, exclusive (20_memory.md R53). -/
def vramHi (k : Config) : Nat := k.vramBase + k.vramStride * k.height

/-- `in_vram(a)` (20_memory.md R53). -/
def inVram (k : Config) (a : Nat) : Bool := decide (k.vramBase ≤ a) && decide (a < vramHi k)

/-- Whether the bytes [lo, hi) meet the VRAM range (20_memory.md R57). -/
def meetsVram (k : Config) (lo hi : Nat) : Bool :=
  decide (max lo k.vramBase < min hi (vramHi k))

/-- The four answers of the VRAM decode (20_memory.md R54). -/
inductive VramTarget where
  | notVram
  | misaligned
  | outOfFb
  | pixel (x y : Nat)
  deriving DecidableEq, Repr

/-- `vram_map(a)`, its checks in the order written (20_memory.md R54). -/
def vramMap (k : Config) (a : Nat) : VramTarget :=
  if inVram k a then
    let off := a - k.vramBase
    let y := off / k.vramStride
    let r := off % k.vramStride
    if r % k.pixelBytes = 0 then
      let x := r / k.pixelBytes
      if inFb k x y then .pixel x y else .outOfFb
    else .misaligned
  else .notVram

/-- `vaddr(x, y)`, the address of a pixel (20_memory.md R55). -/
def vaddr (k : Config) (x y : Nat) : Nat := k.vramBase + y * k.vramStride + x * k.pixelBytes

/-- The pseudo-operation `VSTORE.XY` (30_encoding.md R94). An address of 2^32 or more fits no `c_addr` and never wraps
(20_memory.md R52), and the spec gives no expansion there: DESIGN CHOICE, safe, it has none (log 31). -/
def vstoreXY (k : Config) (x y : Nat) (data : Pixel) : Option Instr :=
  if vaddr k x y < 2 ^ 32 then some (.vstore (BitVec.ofNat 32 (vaddr k x y)) data) else none

/-- The request field a producer drives for an event (43_activities.md R173). -/
def edgeField : Edge → KindField
  | .pressed => .pressed
  | .released => .released

/-- The 2 bits of a held kind (30_encoding.md R88). -/
def kindBits : EventKind → BitVec 2
  | .none => 0
  | .pressed => 1
  | .released => 2

/-- The 3 bits of a status (30_encoding.md R89). -/
def statusBits : Status → BitVec 3
  | .ok => 0
  | .noEvent => 1
  | .event => 2
  | .notVram => 3
  | .fault => 4

/-- The 3 bits of a fault cause (30_encoding.md R90). -/
def causeBits : Cause → BitVec 3
  | .none => 0
  | .fbBounds => 1
  | .vramMap => 2
  | .vramAlign => 3
  | .badOp => 4
  | .badKind => 5

/-- The C response word, with the fault register driven beside it (30_encoding.md R92, R82). -/
def cRspWord (r : CRsp) (f : Cause) : BitVec 59 :=
  causeBits f ++ r.rdata ++ r.rcode ++ 0#2 ++ kindBits r.rkind ++ BitVec.ofBool r.irq ++ statusBits r.st

/-- The P response word, with the fault register driven beside it; the grid is not packed (30_encoding.md R92). -/
def pRspWord (r : PRsp) (f : Cause) : BitVec 6 := causeBits f ++ statusBits r.st

end Sys2Proof.Machine
end

