-- ==== Sys2Proof/Machine/Ops.lean ====
section
/-! DEFINITION. The named operations over the memory image, the pixel grid, the ports, the grants and the interrupt
entry. Each instruction's meaning and each agent's step is written over these. -/

namespace Sys2Proof

/-- What an unlisted byte of the image reads as. DESIGN CHOICE, unsafe: log 4. -/
def Memory.blank : Byte := 0

/-- One byte of the image (00_scope.md R11, `MemRead` of one byte). -/
def Memory.read : Memory → Nat → Byte
  | [], _ => Memory.blank
  | (k, v) :: m, a => if k = a then v else Memory.read m a

/-- One byte written, keeping the canonical form (00_scope.md R11, `MemWrite` of one byte). -/
def Memory.write : Memory → Nat → Byte → Memory
  | [], a, b => if b = Memory.blank then [] else [(a, b)]
  | (k, v) :: m, a, b =>
    if a < k then (if b = Memory.blank then (k, v) :: m else (a, b) :: (k, v) :: m)
    else if a = k then (if b = Memory.blank then m else (a, b) :: m)
    else (k, v) :: Memory.write m a b

/-- Consecutive bytes written from address `a` up (00_scope.md R11, `MemWrite`). -/
def Memory.writeAll : Memory → Nat → List Byte → Memory
  | m, _, [] => m
  | m, a, b :: bs => Memory.writeAll (Memory.write m a b) (a + 1) bs

/-- Byte `k` of a value, the least significant first. A value wider than its store gives its low bytes (log 20). -/
def Memory.byteOf (v k : Nat) : Byte := BitVec.ofNat 8 (v / 256 ^ k)

/-- The bytes of an n-byte value in the order a store lays them out: each byte `k` once, at the place `place k` among
those below it (00_scope.md R11). Every order of the bytes is such a `place`. Log 6. -/
def Memory.storeBytes (place : Nat → Nat) (v : Nat) : Nat → List Byte
  | 0 => []
  | k + 1 => (Memory.storeBytes place v k).insertIdx (place k % (k + 1)) (Memory.byteOf v k)

/-- The `n` bytes from address `a` up (00_scope.md R11, `MemRead`). -/
def Memory.readAll (m : Memory) (a n : Nat) : List Byte := (List.range n).map fun i => Memory.read m (a + i)

/-- Addresses rise strictly from `lo` on, and no byte is the blank one. -/
def Memory.wfFrom : Nat → Memory → Bool
  | _, [] => true
  | lo, (k, v) :: m => decide (lo ≤ k) && decide (v ≠ Memory.blank) && Memory.wfFrom (k + 1) m

/-- The canonical form of the image. -/
def Memory.wf (m : Memory) : Bool := Memory.wfFrom 0 m

/-- Every listed address is below `size` (10_state.md R32: the image has MEM_SIZE bytes). -/
def Memory.within (size : Nat) (m : Memory) : Bool := m.all fun c => decide (c.1 < size)

/-- `fb[y][x]`. Off the grid, where no operation reads, it is 0 (log 26). -/
def Grid.pixel (g : Grid) (x y : Nat) : Pixel := (g.getD y []).getD x 0

/-- `fb[y][x] <- c` (00_scope.md R11). -/
def Grid.put (g : Grid) (x y : Nat) (c : Pixel) : Grid := g.set y ((g.getD y []).set x c)

/-- The grid has `h` rows of `w` pixels (10_state.md R24). -/
def Grid.shaped (w h : Nat) (g : Grid) : Bool := decide (g.length = h) && g.all fun row => decide (row.length = w)

/-- The unsigned value of bytes, the lowest first. -/
def natOfBytes : List Byte → Nat
  | [] => 0
  | b :: bs => b.toNat + 256 * natOfBytes bs

/-- The unsigned value of bytes in address order, in the given byte order (43_activities.md R179). -/
def natOfBytesIn : Endian → List Byte → Nat
  | .little, bs => natOfBytes bs
  | .big, bs => natOfBytes bs.reverse

end Sys2Proof

namespace Sys2Proof.Machine

open Sys2Proof

/-- The request pending on a port, if one is (10_state.md R25). -/
def pendingReq (b : Block) : Port → Option ReqWord
  | .c => match b.cPort with
    | .pending w => some (.c w)
    | .idle | .done _ | .stopped => none
  | .p => match b.pPort with
    | .pending w => some (.p w)
    | .idle | .done _ | .stopped => none

/-- Whether a port is `Idle` (10_state.md R25). -/
def isIdlePort (b : Block) : Port → Bool
  | .c => decide (b.cPort = .idle)
  | .p => decide (b.pPort = .idle)

/-- Who drives a port (log 11). -/
def clientOf (k : Config) : Port → Client
  | .c => k.cClient
  | .p => k.pClient

/-- A C response with its unnamed fields 0 (30_encoding.md R82). -/
def plainC (st : Status) : CRsp := { st := st, irq := false, rkind := .none, rcode := 0, rdata := 0 }

/-- The grid that is 0 everywhere, which `p_snap` shows but on a SNAPSHOT response (30_encoding.md R84). -/
def zeroGrid (k : Config) : Grid := gridOf k.width k.height fun _ _ => 0

/-- A P response with its unnamed fields 0 (30_encoding.md R84). -/
def plainP (k : Config) (st : Status) : PRsp := { st := st, snap := zeroGrid k }

/-- `respond` on port C (00_scope.md R11, 40_port_protocol.md R102). -/
def respondC (b : Block) (r : CRsp) : Block := { b with cPort := .done r }

/-- `respond` on port P (00_scope.md R11, 40_port_protocol.md R102). -/
def respondP (b : Block) (r : PRsp) : Block := { b with pPort := .done r }

/-- TAKING A FAULT, the one fault action: the port's sticky register takes the cause, the response is FAULT with all
other fields 0, and nothing else changes (60_exceptions.md R200). There is no handler and no return from it. -/
def raiseFault (k : Config) (port : Port) (cause : Cause) (b : Block) : Block :=
  match port with
  | .c => respondC { b with cFault := cause } (plainC .fault)
  | .p => respondP { b with pFault := cause } (plainP k .fault)

/-- A body performed while `port` holds `g_fb`, taken at its start and released at its end; while the other port
holds it the request waits (40_port_protocol.md R106). Log 15. -/
def underFb (port : Port) (body : Block → Block) (b : Block) : Block :=
  match b.gFb with
  | none => { body { b with gFb := some port } with gFb := none }
  | some _ => b

/-- A body performed while `port` holds `g_mb`, as `underFb` (40_port_protocol.md R106). Log 15. -/
def underMb (port : Port) (body : Block → Block) (b : Block) : Block :=
  match b.gMb with
  | none => { body { b with gMb := some port } with gMb := none }
  | some _ => b

/-- The perform step of one operation on `port`: one atomic step of the block (40_port_protocol.md R102). It
requires a pending request there (log 16). -/
def performOn (port : Port) (body : Block → Block) (s : State) : Host.Outcome State Fault Refusal :=
  match pendingReq s.block port with
  | some _ => .next { s with block := body s.block }
  | none => .fault (.notPending port)

/-- The port of a request word set to `Pending` (40_port_protocol.md R101). -/
def setPending (b : Block) : ReqWord → Block
  | .c w => { b with cPort := .pending w }
  | .p w => { b with pPort := .pending w }

/-- Issue: an `Idle` port captures the whole request, legal or illegal, unless its op is IDLE; a request with an
over-wide field is refused, which goes before any fault of its perform (40_port_protocol.md R101, R110, 30_encoding.md
R87, 60_exceptions.md R208). Off an `Idle` port there is no issue step (R104). -/
def issue (r : ReqWord) (s : State) : Host.Outcome State Fault Refusal :=
  if isIdlePort s.block r.port ∧ r.op ≠ 0 then
    if widthOk s.cfg r then .next { s with block := setPending s.block r } else .refused .fieldWidth
  else .next s

/-- `crun` after the retire of a response with this status: a FAULT ends a running consumer with the block's cause
(43_activities.md R184). -/
def crunAfter (st : Status) (cause : Cause) (run : CRun) : CRun :=
  if st = .fault ∧ run = .running then .fatal (.block cause) else run

/-- `prun` after the retire of a response with this status: a FAULT stops a running producer (43_activities.md R175). -/
def prunAfter (st : Status) (run : PRun) : PRun := if st = .fault ∧ run = .running then .stopped else run

/-- Retire on port C, by the activity or by a free agent alike: the agent reads the response, the port becomes
`Stopped` on FAULT, else `Idle`, and a FAULT ends the agent (40_port_protocol.md R103, 43_activities.md R184). For a
free agent that end is the model's choice (log 11). -/
def retireC (r : CRsp) (s : State) : State :=
  { s with
    block := { s.block with cPort := if r.st = .fault then .stopped else .idle }
    cons := { s.cons with last := some r, run := crunAfter r.st s.block.cFault s.cons.run } }

/-- Retire on port P, as `retireC` (40_port_protocol.md R103, 43_activities.md R175). -/
def retireP (r : PRsp) (s : State) : State :=
  { s with
    block := { s.block with pPort := if r.st = .fault then .stopped else .idle }
    prod := { s.prod with last := some r, run := prunAfter r.st s.prod.run } }

/-- The value the interrupt vector holds (43_activities.md R179). -/
def vectorTarget (k : Config) (m : Memory) : Nat :=
  natOfBytesIn k.vecEndian (Memory.readAll m k.vectorAddr k.vecBytes)

/-- TAKING THE INTERRUPT, the one interrupt entry: a jump to the vector's value, which saves nothing and changes pc
alone; a target outside the image ends the run (43_activities.md R179, 60_exceptions.md R210). There is no return
from it (60_exceptions.md R211). -/
def dispatch (k : Config) (c : Consumer) : Consumer :=
  let t := vectorTarget k c.mem
  if t < k.memSize then { c with pc := t } else { c with run := .fatal .jumpOob }

end Sys2Proof.Machine
end

