-- ==== Sys2Proof/Machine/Consumer.lean ====
section
/-! DEFINITION. The consumer's cycle: InputCheck, Fetch, Execute, Advance, and the shutdown check between two cycles
(43_activities.md R176 to R184). Each is written over any `ISA_STEP`. -/

namespace Sys2Proof.Machine

open Sys2Proof

/-- The consumer ended by a fatal condition (60_exceptions.md R206). -/
def consumerFatal (f : Fatal) (c : Consumer) : Consumer := { c with run := .fatal f }

/-- What the consumer does with the response of its TAKE: keyboard status for every EVENT, then the dispatch if the
request bit is set, then Fetch unless the dispatch ended the run (43_activities.md R177, R178, R179). A FAULT has
ended the run at the retire (R184). -/
def afterTake (isa : Isa) (k : Config) (r : CRsp) (c : Consumer) : Consumer :=
  match r.st with
  | .fault => c
  | .event =>
    let c := { c with kbd := isa.kbdUpdate c.kbd r.rkind r.rcode }
    let c := if r.irq then dispatch k c else c
    if c.run = .running then { c with phase := .fetch } else c
  | .ok | .noEvent | .notVram => { c with phase := .fetch }

/-- InputCheck: issue a TAKE with `c_ie = ie`, wait for its perform, retire it (43_activities.md R177). -/
def stepInputCheck (isa : Isa) (s : State) : Host.Outcome State Fault Refusal :=
  match s.block.cPort with
  | .idle => issue (encode (.take s.cons.ie)) s
  | .pending _ | .stopped => .next s
  | .done r =>
    let t := retireC r s
    .next { t with cons := afterTake isa s.cfg r t.cons }

/-- Fetch: `ISA_STEP` at pc, its answers in the order of 43_activities.md R180. A refusal condition goes before every
fault (60_exceptions.md R208): the instruction's bytes are those from pc to `len`, to the end of the image when it
needs more, or the one byte at pc when its length is not given (log 14). -/
def stepFetch (isa : Isa) (s : State) : Host.Outcome State Fault Refusal :=
  let k := s.cfg
  let c := s.cons
  match isa.step k c.cpu c.mem c.pc c.ie with
  | .fetchOob =>
    if meetsVram k c.pc k.memSize then .refused .vramRead
    else .next { s with cons := consumerFatal .fetchOob c }
  | .isaFault =>
    if inVram k c.pc then .refused .vramRead
    else .next { s with cons := consumerFatal .isa c }
  | .record r =>
    if meetsVram k c.pc (c.pc + r.len) || r.reads.any (inVram k) then .refused .vramRead
    else if r.reads.any fun a => decide (k.memSize ≤ a) then .next { s with cons := consumerFatal .memOob c }
    else .next { s with cons := { c with fetched := some r, phase := .execute } }

/-- What the consumer does with the response of its VSTORE (43_activities.md R181). The plain path is fatal at every
address outside the image, whatever the size of the store (20_memory.md R52; log 30), and when addr + n > MEM_SIZE; else
it writes the n bytes of the value in the ISA's own byte order. A FAULT has ended the run at the retire (R184); no
VSTORE answers NO_EVENT or EVENT (log 28). -/
def afterStore (isa : Isa) (k : Config) (r : CRsp) (addr : Addr) (n value : Nat) (c : Consumer) : Consumer :=
  match r.st with
  | .ok => { c with phase := .advance }
  | .notVram =>
    if k.memSize ≤ addr.toNat ∨ k.memSize < addr.toNat + n then consumerFatal .memOob c
    else
      { c with
        mem := Memory.writeAll c.mem addr.toNat (Memory.storeBytes (isa.bytePlace n) value n)
        phase := .advance }
  | .fault | .noEvent | .event => c

/-- Execute: the private effects, then for a store the VSTORE transaction (43_activities.md R181). -/
def stepExecute (isa : Isa) (s : State) : Host.Outcome State Fault Refusal :=
  match s.cons.fetched with
  | none => .next s
  | some r =>
    match r.action with
    | .store addr n value _ =>
      match s.block.cPort with
      | .idle =>
        issue (encode (.vstore addr (isa.toColor value))) { s with cons := { s.cons with cpu := r.cpu, ie := r.ie } }
      | .pending _ | .stopped => .next s
      | .done rsp =>
        let t := retireC rsp s
        .next { t with cons := afterStore isa s.cfg rsp addr n value t.cons }
    | .seq | .jump _ | .halt =>
      .next { s with cons := { s.cons with cpu := r.cpu, ie := r.ie, phase := .advance } }

/-- The next pc, or the end of the run, after an instruction of `len` bytes (43_activities.md R182). -/
def goNext (k : Config) (len : Nat) (n : IsaNext) (c : Consumer) : Consumer :=
  match n with
  | .seq => if k.memSize ≤ c.pc + len then { c with run := .endedEnd } else { c with pc := c.pc + len }
  | .jump t => if k.memSize ≤ t then consumerFatal .jumpOob c else { c with pc := t }

/-- Advance by the action of the record (43_activities.md R182). -/
def advance (k : Config) (r : IsaRecord) (c : Consumer) : Consumer :=
  match r.action with
  | .seq => goNext k r.len .seq c
  | .jump t => goNext k r.len (.jump t) c
  | .halt => { c with run := .endedHalt }
  | .store _ _ _ n => goNext k r.len n c

/-- Advance, then back to InputCheck, with the shutdown check due (43_activities.md R182, R183). -/
def stepAdvance (s : State) : Host.Outcome State Fault Refusal :=
  match s.cons.fetched with
  | none => .next s
  | some r =>
    .next { s with cons :=
      { advance s.cfg r s.cons with phase := .inputCheck, fetched := none, checkDue := true } }

/-- The shutdown check between two cycles (43_activities.md R183). -/
def stepCheck (s : State) : Host.Outcome State Fault Refusal :=
  .next { s with cons :=
    { s.cons with run := if s.host.shutC then .shutdown else s.cons.run, checkDue := false } }

/-- One step of the consumer. An ended consumer takes none, nor does one a free agent stands in for (log 9, log 11). -/
def stepConsumer (isa : Isa) (s : State) : Host.Outcome State Fault Refusal :=
  if s.cfg.cClient = .activity ∧ s.cons.run = .running then
    if s.cons.checkDue then stepCheck s
    else
      match s.cons.phase with
      | .inputCheck => stepInputCheck isa s
      | .fetch => stepFetch isa s
      | .execute => stepExecute isa s
      | .advance => stepAdvance s
  else .next s

end Sys2Proof.Machine
end

