-- ==== Sys2Proof/Machine/FrameBuffer.lean ====
section
/-! DEFINITION. The FrameBuffer operations: SET, GET, VSTORE and SNAPSHOT (41_framebuffer.md). -/

namespace Sys2Proof.Machine

open Sys2Proof

/-- One pixel written while port C holds `g_fb`, and the answer OK (41_framebuffer.md R121, R124). -/
def putPixel (x y : Nat) (c : Pixel) : Block → Block :=
  underFb .c fun b => respondC { b with fb := Grid.put b.fb x y c } (plainC .ok)

/-- The body of SET's perform; a faulting perform holds no grant (41_framebuffer.md R121, 40_port_protocol.md R106 (c)). -/
def setBody (k : Config) (x y : Coord) (data : Pixel) (b : Block) : Block :=
  if inFb k x.toNat y.toNat then putPixel x.toNat y.toNat data b else raiseFault k .c .fbBounds b

/-- SET (41_framebuffer.md R121). -/
def execSet (x y : Coord) (data : Pixel) (s : State) : Host.Outcome State Fault Refusal :=
  performOn .c (setBody s.cfg x y data) s

/-- The body of GET's perform, which holds no grant (41_framebuffer.md R122). -/
def getBody (k : Config) (x y : Coord) (b : Block) : Block :=
  if inFb k x.toNat y.toNat then respondC b { plainC .ok with rdata := Grid.pixel b.fb x.toNat y.toNat }
  else raiseFault k .c .fbBounds b

/-- GET (41_framebuffer.md R122). -/
def execGet (x y : Coord) (s : State) : Host.Outcome State Fault Refusal :=
  performOn .c (getBody s.cfg x y) s

/-- The body of VSTORE's perform: NOT_VRAM is no fault and holds no grant (41_framebuffer.md R124). -/
def vstoreBody (k : Config) (addr : Addr) (data : Pixel) (b : Block) : Block :=
  match vramMap k addr.toNat with
  | .notVram => respondC b (plainC .notVram)
  | .misaligned => raiseFault k .c .vramAlign b
  | .outOfFb => raiseFault k .c .vramMap b
  | .pixel x y => putPixel x y data b

/-- VSTORE, a store through the VRAM decode (41_framebuffer.md R124). -/
def execVstore (addr : Addr) (data : Pixel) (s : State) : Host.Outcome State Fault Refusal :=
  performOn .c (vstoreBody s.cfg addr data) s

/-- The body of SNAPSHOT's perform, which holds `g_fb` for the whole copy (41_framebuffer.md R123). -/
def snapshotBody : Block → Block := underFb .p fun b => respondP b { st := .ok, snap := b.fb }

/-- SNAPSHOT (41_framebuffer.md R123). -/
def execSnapshot (s : State) : Host.Outcome State Fault Refusal := performOn .p snapshotBody s

end Sys2Proof.Machine
end

