-- ==== Sys2Proof/Machine/Handshake.lean ====
section
/-! DEFINITION. The meaning of IDLE, the absence of a request. -/

namespace Sys2Proof.Machine

open Sys2Proof

/-- IDLE on either port: no issue step, and no state changes, on a `Stopped` port too (40_port_protocol.md R108). -/
def execIdle (_port : Port) (s : State) : Host.Outcome State Fault Refusal := .next s

end Sys2Proof.Machine
end

