-- ==== Sys2Proof/Machine/Mailbox.lean ====
section
/-! DEFINITION. The InputMailbox operations: TAKE and PUBLISH (42_mailbox.md). -/

namespace Sys2Proof.Machine

open Sys2Proof

/-- The EVENT response of a TAKE (42_mailbox.md R152, R153). -/
def eventRsp (k : Config) (ie : Bool) (kind : EventKind) (code : KeyCode) : CRsp :=
  { st := .event, irq := irqRequest k ie kind code, rkind := kind, rcode := code, rdata := 0 }

/-- The body of TAKE's perform, which holds `g_mb` for the whole check-clear-return: `mb_kind` and `mb_code` keep their
values (42_mailbox.md R152). -/
def takeBody (k : Config) (ie : Bool) : Block → Block :=
  underMb .c fun b =>
    if b.mbOcc then respondC { b with mbOcc := false } (eventRsp k ie b.mbKind b.mbCode)
    else respondC b (plainC .noEvent)

/-- TAKE, the atomic check-clear-return (42_mailbox.md R152). -/
def execTake (ie : Bool) (s : State) : Host.Outcome State Fault Refusal := performOn .c (takeBody s.cfg ie) s

/-- The slot written with an event, and the answer OK, while port P holds `g_mb` (42_mailbox.md R151). -/
def postEvent (k : Config) (kind : EventKind) (code : KeyCode) : Block → Block :=
  underMb .p fun b => respondP { b with mbKind := kind, mbCode := code, mbOcc := true } (plainP k .ok)

/-- The body of PUBLISH's perform; the kinds None and 3 fault, with no grant (42_mailbox.md R151). -/
def publishBody (k : Config) (kind : KindField) (code : KeyCode) (b : Block) : Block :=
  match kind with
  | .pressed => postEvent k .pressed code b
  | .released => postEvent k .released code b
  | .none | .reserved => raiseFault k .p .badKind b

/-- PUBLISH, latest wins (42_mailbox.md R151). -/
def execPublish (kind : KindField) (code : KeyCode) (s : State) : Host.Outcome State Fault Refusal :=
  performOn .p (publishBody s.cfg kind code) s

end Sys2Proof.Machine
end

