-- ==== Sys2Proof/Machine/Dispatch.lean ====
section
/-! DEFINITION. The dispatch of each operation to its meaning: what the perform step of 40_port_protocol.md R102 does
with a decoded request. -/

namespace Sys2Proof.Machine

open Sys2Proof

/-- The effect of an operation on the port it is admitted on. -/
def exec (i : Instr) (s : State) : Host.Outcome State Fault Refusal :=
  match i with
  | .idle port => Sys2Proof.Machine.execIdle port s
  | .take ie => Sys2Proof.Machine.execTake ie s
  | .set x y data => Sys2Proof.Machine.execSet x y data s
  | .get x y => Sys2Proof.Machine.execGet x y s
  | .vstore addr data => Sys2Proof.Machine.execVstore addr data s
  | .publish kind code => Sys2Proof.Machine.execPublish kind code s
  | .snapshot => Sys2Proof.Machine.execSnapshot s

end Sys2Proof.Machine
end

