-- ==== Sys2Proof/Machine/Producer.lean ====
section
/-! DEFINITION. The producer's tick: Snapshot, Present, Input, Sleep (43_activities.md R171 to R175). -/

namespace Sys2Proof.Machine

open Sys2Proof

/-- Snapshot: one SNAPSHOT transaction; its retire gives `last_snap`, and a FAULT stops the producer
(43_activities.md R172, R175). -/
def stepSnapshot (s : State) : Host.Outcome State Fault Refusal :=
  match s.block.pPort with
  | .idle => issue (encode .snapshot) s
  | .pending _ | .stopped => .next s
  | .done r =>
    let t := retireP r s
    if r.st = .fault then .next t
    else .next { t with prod := { t.prod with lastSnap := some r.snap, phase := .present } }

/-- Present: `last_snap` handed to the sink, whose success changes no block or producer state (43_activities.md
R172). -/
def stepPresent (presented : Bool) (s : State) : Host.Outcome State Fault Refusal :=
  .next { s with
    prod := { s.prod with phase := .input, todo := none }
    host := { s.host with sink := s.prod.lastSnap.map fun g => (g, presented) } }

/-- The answer of the input source, a draw of events with codes below 2^KEY_W: what the host supplies, each code cut to
KEY_W bits (43_activities.md R173, log 32). -/
def drawnEvents (k : Config) (events : List Event) : List Event :=
  events.map fun e => { e with code := cutCode k e.code }

/-- Input: ask the input source, then one PUBLISH transaction for each transition, in order; a FAULT stops the producer
(43_activities.md R173, R175). -/
def stepInput (events : List Event) (s : State) : Host.Outcome State Fault Refusal :=
  match s.prod.todo with
  | none => .next { s with prod := { s.prod with todo := some (drawnEvents s.cfg events) } }
  | some [] => .next { s with prod := { s.prod with todo := none, phase := .sleep } }
  | some (e :: es) =>
    match s.block.pPort with
    | .idle => issue (encode (.publish (edgeField e.edge) e.code)) s
    | .pending _ | .stopped => .next s
    | .done r =>
      let t := retireP r s
      if r.st = .fault then .next t
      else .next { t with prod := { t.prod with todo := some es } }

/-- Sleep ends, and the shutdown check between two ticks (43_activities.md R174). -/
def stepSleep (s : State) : Host.Outcome State Fault Refusal :=
  if s.host.shutP then .next { s with prod := { s.prod with run := .shutdown } }
  else .next { s with prod := { s.prod with phase := .snapshot } }

/-- One step of the producer. A producer that is not running takes none, nor does one a free agent stands in for
(log 9, log 11). -/
def stepProducer (events : List Event) (presented : Bool) (s : State) : Host.Outcome State Fault Refusal :=
  if s.cfg.pClient = .activity ∧ s.prod.run = .running then
    match s.prod.phase with
    | .snapshot => stepSnapshot s
    | .present => stepPresent presented s
    | .input => stepInput events s
    | .sleep => stepSleep s
  else .next s

end Sys2Proof.Machine
end

