-- ==== Sys2Proof/Machine/Moves.lean ====
section
/-! DEFINITION. One move of one agent (43_activities.md R170): the block's perform, the clients' steps, a request a
free agent presents, its retire, and the host's shutdown signal. -/

namespace Sys2Proof.Machine

open Sys2Proof

/-- The block performs a port: the pending request is decoded and its operation takes effect; an illegal one faults
BAD_OP; an over-wide one, which no issue admits, is refused (40_port_protocol.md R102, 60_exceptions.md R204). A port
with nothing pending has no perform (log 9). -/
def performPort (port : Port) (s : State) : Host.Outcome State Fault Refusal :=
  match pendingReq s.block port with
  | none => .next s
  | some r =>
    match decode r with
    | .ok i => if i.wf s.cfg then exec i s else .refused .fieldWidth
    | .error _ => performOn port (raiseFault s.cfg port .badOp) s

/-- An agent drives a request bundle. IDLE is no issue (40_port_protocol.md R108); any other request is issued by a
free agent, while an activity issues its own (log 11). -/
def presentReq (r : ReqWord) (s : State) : Host.Outcome State Fault Refusal :=
  if r.op = 0 then exec (.idle r.port) s
  else if clientOf s.cfg r.port = .free then issue r s
  else .next s

/-- A free agent retires the response on its port, and a FAULT ends it (40_port_protocol.md R103, log 11). -/
def retireFree (port : Port) (s : State) : Host.Outcome State Fault Refusal :=
  if clientOf s.cfg port = .free then
    match port with
    | .c => match s.block.cPort with
      | .done r => .next (retireC r s)
      | .idle | .pending _ | .stopped => .next s
    | .p => match s.block.pPort with
      | .done r => .next (retireP r s)
      | .idle | .pending _ | .stopped => .next s
  else .next s

/-- The host asserts shutdown; a signal once asserted stays (43_activities.md R186, log 18). -/
def assertShutdown (consumer producer : Bool) (s : State) : State :=
  { s with host := { s.host with shutC := s.host.shutC || consumer, shutP := s.host.shutP || producer } }

/-- One move. A move whose agent has no enabled step leaves the state as it is (log 9). -/
def runMove (isa : Isa) (m : Move) (s : State) : Host.Outcome State Fault Refusal :=
  match m with
  | .perform port => performPort port s
  | .consumer => stepConsumer isa s
  | .producer events presented => stepProducer events presented s
  | .present r => presentReq r s
  | .retire port => retireFree port s
  | .shutdown consumer producer => .next (assertShutdown consumer producer s)

/-- The next move and the state it runs in: the first one lined up, else the free choice at this tick, which the
counter then leaves behind (40_port_protocol.md R105, log 8). -/
def nextMove (s : State) : Move × State :=
  match s.host.sched with
  | m :: ms => (m, { s with host := { s.host with sched := ms } })
  | [] => (Config.nextMove s.host.tick, { s with host := { s.host with tick := s.host.tick + 1 } })

end Sys2Proof.Machine
end

