-- ==== Sys2Proof/Machine/Step.lean ====
section
/-! DEFINITION. The step of the machine, and the placing of one instruction where the next step runs it. -/

namespace Sys2Proof.Machine

open Sys2Proof

/-- One step: a state whose configuration is ill-formed has no meaning (00_scope.md R8); otherwise the next move
runs. -/
def step (s : State) : Host.Outcome State Fault Refusal :=
  if s.cfg.wf then runMove Config.isa (nextMove s).1 (nextMove s).2 else .refused .cfg

/-- `s` with an instruction placed so that the very next step runs it: a request pending on its port and the block's
perform of that port lined up; an IDLE, which is never pending, presented on its port (log 12). -/
def State.withFetchWord (s : State) (nbits w : Nat) : State :=
  let r := tableRequest nbits w
  if r.op = 0 then { s with host := { s.host with sched := .present r :: s.host.sched } }
  else
    { s with
      block := setPending s.block r
      host := { s.host with sched := .perform r.port :: s.host.sched } }

end Sys2Proof.Machine
end

