-- ==== Sys2Proof/Safety.lean ====
section
/-! DEFINITION. What claims are stated in: runs under a given order of moves, what a move performs, the end of a run,
faulted runs, the machine's invariant, and the named assumption on `ISA_STEP`. -/

namespace Sys2Proof.Machine

open Sys2Proof

/-- The moves of a list run in order, stopping at the first stop. -/
def runMoves (isa : Isa) : List Move → State → Host.Outcome State Fault Refusal
  | [], s => .next s
  | m :: ms, s =>
    match runMove isa m s with
    | .next t => runMoves isa ms t
    | .fault f => .fault f
    | .refused r => .refused r

/-- The operation a move performs in a state: the decoded request of a pending port (40_port_protocol.md R102). -/
def performed (m : Move) (s : State) : Option Instr :=
  match m with
  | .perform port =>
    match pendingReq s.block port with
    | some r => match decode r with
      | .ok i => some i
      | .error _ => none
    | none => none
  | .consumer | .producer _ _ | .present _ | .retire _ | .shutdown _ _ => none

/-- The operations a run performs, in perform order: the order of 20_memory.md R65. -/
def performedAll (isa : Isa) : List Move → State → List Instr
  | [], _ => []
  | m :: ms, s =>
    (performed m s).toList ++
      match runMove isa m s with
      | .next t => performedAll isa ms t
      | .fault _ | .refused _ => []

/-- Whether an operation is a PUBLISH that posts an event (42_mailbox.md R151). -/
def posts : Instr → Bool
  | .publish .pressed _ | .publish .released _ => true
  | .publish .none _ | .publish .reserved _ | .idle _ | .take _ | .set _ _ _ | .get _ _ | .vstore _ _ | .snapshot =>
    false

/-- Whether an operation is a TAKE. -/
def isTake : Instr → Bool
  | .take _ => true
  | .publish _ _ | .idle _ | .set _ _ _ | .get _ _ | .vstore _ _ | .snapshot => false

/-- The pixel an operation writes, if it writes one: a SET in bounds, a VSTORE to a `Pixel` (41_framebuffer.md R121,
R124). -/
def writtenPixel (k : Config) : Instr → Option (Nat × Nat × Pixel)
  | .set x y data => if inFb k x.toNat y.toNat then some (x.toNat, y.toNat, data) else none
  | .vstore addr data => match vramMap k addr.toNat with
    | .pixel x y => some (x, y, data)
    | .notVram | .misaligned | .outOfFb => none
  | .publish _ _ | .idle _ | .take _ | .get _ _ | .snapshot => none

/-- A grid with the writes of some operations applied in order (41_framebuffer.md R127). -/
def applyWrites (k : Config) : List Instr → Grid → Grid
  | [], g => g
  | i :: is, g =>
    match writtenPixel k i with
    | some (x, y, data) => applyWrites k is (Grid.put g x y data)
    | none => applyWrites k is g

/-- The status of the response a port holds, if it holds one. -/
def answered (b : Block) : Port → Option Status
  | .c => match b.cPort with
    | .done r => some r.st
    | .idle | .pending _ | .stopped => none
  | .p => match b.pPort with
    | .done r => some r.st
    | .idle | .pending _ | .stopped => none

/-- A port's fault register (10_state.md R26). -/
def faultOf (b : Block) : Port → Cause
  | .c => b.cFault
  | .p => b.pFault

/-- Whether a port is `Stopped` (10_state.md R25). -/
def isStopped (b : Block) : Port → Bool
  | .c => decide (b.cPort = .stopped)
  | .p => decide (b.pPort = .stopped)

/-- A run ends at the first such state (43_activities.md R187). -/
def Ended (s : State) : Prop := s.cons.run ≠ .running ∧ (s.block.cPort = .idle ∨ s.block.cPort = .stopped)

/-- The consumer ended in a fatal way, or a fault register is set (60_exceptions.md R200). -/
def Faulted (s : State) : Prop :=
  (∃ f, s.cons.run = .fatal f) ∨ s.block.cFault ≠ .none ∨ s.block.pFault ≠ .none

/-- A safe state: not faulted. A faulted run satisfies no claim but one that names the fault (60_exceptions.md
R200). -/
def Safe (s : State) : Prop := ¬ Faulted s

/-- The observation at the end of a run: `crun`, `mem`, `pc`, `fb` and `c_fault` (43_activities.md R187). -/
def observed (s : State) : CRun × Memory × Nat × Grid × Cause :=
  (s.cons.run, s.cons.mem, s.cons.pc, s.block.fb, s.block.cFault)

/-- A fault register is set exactly while its port holds a FAULT response or is `Stopped` (60_exceptions.md R200,
40_port_protocol.md R103, R109). -/
def FaultMatchesPort (b : Block) (port : Port) : Prop :=
  faultOf b port ≠ .none ↔ (answered b port = some .fault ∨ isStopped b port = true)

/-- A request an issue admits: not IDLE, and no field too wide (40_port_protocol.md R101, R110). -/
def Admitted (k : Config) (r : ReqWord) : Prop := r.op ≠ 0 ∧ widthOk k r = true

/-- A pending request is one an issue admits. -/
def PendingAdmitted (k : Config) (b : Block) (port : Port) : Prop :=
  ∀ r, pendingReq b port = some r → Admitted k r

/-- Whether the activity on a port is running (10_state.md R29, R34). -/
def agentRunning (s : State) : Port → Bool
  | .c => decide (s.cons.run = .running)
  | .p => decide (s.prod.run = .running)

/-- Whether an action is a store (00_scope.md R12). -/
def isStore : IsaAction → Bool
  | .store _ _ _ _ => true
  | .seq | .jump _ | .halt => false

/-- Whether the consumer is where it has a request in flight or is about to issue it: in InputCheck, or in the Execute
of a store, with no shutdown check due (43_activities.md R177, R181). -/
def consumerWaits (c : Consumer) : Bool :=
  !c.checkDue && match c.phase with
    | .inputCheck => true
    | .execute => c.fetched.any fun r => isStore r.action
    | .fetch | .advance => false

/-- Whether the producer is where it has a request in flight or is about to issue it: in Snapshot, or in Input with a
transition to publish (43_activities.md R172, R173). -/
def producerWaits (p : Producer) : Bool :=
  match p.phase with
  | .snapshot => true
  | .input => match p.todo with
    | some (_ :: _) => true
    | some [] | none => false
  | .present | .sleep => false

/-- `consumerWaits` or `producerWaits`, by port. -/
def agentWaits (s : State) : Port → Bool
  | .c => consumerWaits s.cons
  | .p => producerWaits s.prod

/-- The transitions still to publish have codes below 2^KEY_W (43_activities.md R173). -/
def TodoFits (k : Config) (p : Producer) : Prop :=
  ∀ es, p.todo = some es → ∀ e ∈ es, e.code.toNat < 2 ^ k.keyW

/-- What every reachable state keeps. -/
structure Invariant (s : State) : Prop where
  /-- the configuration is well-formed (00_scope.md R8) -/
  cfg : s.cfg.wf = true
  /-- the image is in canonical form -/
  memForm : Memory.wf s.cons.mem = true
  /-- the image lists addresses below MEM_SIZE only (10_state.md R32) -/
  memSize : Memory.within s.cfg.memSize s.cons.mem = true
  /-- the frame buffer is W×H (10_state.md R24) -/
  fb : Grid.shaped s.cfg.width s.cfg.height s.block.fb = true
  /-- 0 ≤ pc < MEM_SIZE (10_state.md R30) -/
  pc : s.cons.pc < s.cfg.memSize
  /-- a pending event is Pressed or Released (10_state.md R23) -/
  kind : s.block.mbOcc = true → s.block.mbKind ≠ .none
  /-- `mb_code` has KEY_W bits (10_state.md R22) -/
  code : s.block.mbCode.toNat < 2 ^ s.cfg.keyW
  /-- no grant is held between steps (10_state.md R27) -/
  gFb : s.block.gFb = none
  /-- no grant is held between steps (10_state.md R27) -/
  gMb : s.block.gMb = none
  /-- the fault registers match the ports -/
  faults : ∀ port, FaultMatchesPort s.block port
  /-- the pending requests are ones an issue admits -/
  pending : ∀ port, PendingAdmitted s.cfg s.block port
  /-- the agent of a stopped port is not running (43_activities.md R175, R184) -/
  stopped : ∀ port, isStopped s.block port = true → agentRunning s port = false
  /-- a running activity whose port is not `Idle` waits for its response (40_port_protocol.md R104) -/
  waits : ∀ port, clientOf s.cfg port = .activity → agentRunning s port = true → isIdlePort s.block port = false →
    agentWaits s port = true
  /-- the transitions still to publish have KEY_W-bit codes (43_activities.md R173) -/
  todo : TodoFits s.cfg s.prod

/-- `P` holds of every move of a list and the state it runs in. -/
def along (isa : Isa) (P : Move → State → Prop) : List Move → State → Prop
  | [], _ => True
  | m :: ms, s => P m s ∧ ∀ t, runMove isa m s = .next t → along isa P ms t

/-- The named assumption on `ISA_STEP`: an answer that is a record depends on no image byte but those of the
instruction and those it declares in `reads` (00_scope.md R12). No rule of the model rests on it. -/
def ReadsOnlyDeclared (isa : Isa) : Prop :=
  ∀ k cpu m m' pc ie r, isa.step k cpu m pc ie = .record r →
    (∀ a, (pc ≤ a ∧ a < pc + r.len) ∨ a ∈ r.reads → Memory.read m' a = Memory.read m a) →
    isa.step k cpu m' pc ie = .record r

/-- Fairness of a port's perform along an infinite order of moves (40_port_protocol.md R107): it comes again and again. -/
def PerformsFairly (order : Nat → Move) (port : Port) : Prop := ∀ n, ∃ m, n ≤ m ∧ order m = .perform port

/-- The moves of the agent of a port: its activity's steps, or a free agent's retire, the one step of its own that it
owes (40_port_protocol.md R107; whether and what it issues is its choice, log 11). -/
def isAgentMove (k : Config) : Port → Move → Bool
  | .c, m => match k.cClient, m with
    | .activity, .consumer => true
    | .free, .retire .c => true
    | _, _ => false
  | .p, m => match k.pClient, m with
    | .activity, .producer _ _ => true
    | .free, .retire .p => true
    | _, _ => false

/-- Fairness of the agent of a port: its steps come again and again (40_port_protocol.md R107, 70_reset_and_hazards.md
R250). -/
def AgentsFairly (k : Config) (order : Nat → Move) (port : Port) : Prop :=
  ∀ n, ∃ m, n ≤ m ∧ isAgentMove k port (order m) = true

/-- The fairness of 40_port_protocol.md R107 and 70_reset_and_hazards.md R250 as one premise: every perform and every
agent's step come again and again. Log 10. -/
def Fair (k : Config) (order : Nat → Move) : Prop :=
  ∀ port, PerformsFairly order port ∧ AgentsFairly k order port

end Sys2Proof.Machine
end

