-- ==== Sys2Proof/Certificates/Slice0/Obligations.lean ====
section
/-! DEFINITION. The statements for the provers, each from the numbered rules of spec/. -/

open Sys2Proof Sys2Proof.Machine

/-! ## Encoding -/

/-- Every operation's word decodes to it, with every operand at every value (30_encoding.md R85, R92). -/
def Obligations.DecodeInvertsEncode : Prop := ∀ i : Instr, decode (encode i) = .ok i

/-- The decoder is total and refuses exactly the ops a port does not admit, naming port and op (R85, R91). -/
def Obligations.DecoderRefusesExactlyUnadmittedOps : Prop :=
  (∀ w : BitVec 104, (∃ i, decode (.c w) = .ok i) ↔ (w.extractLsb' 0 4).toNat ∈ [0, 1, 2, 3, 4]) ∧
  (∀ w : BitVec 24, (∃ i, decode (.p w) = .ok i) ↔ (w.extractLsb' 0 4).toNat ∈ [0, 8, 9]) ∧
  (∀ (w : BitVec 104) e, decode (.c w) = .error e → e = .badOp .c (w.extractLsb' 0 4)) ∧
  (∀ (w : BitVec 24) e, decode (.p w) = .error e → e = .badOp .p (w.extractLsb' 0 4))

/-- Two requests with one op that agree on the fields its format reads decode alike (R86). -/
def Obligations.UnreadRequestFieldsAreIgnored : Prop :=
  (∀ w w' : BitVec 104,
    w.extractLsb' 0 4 = w'.extractLsb' 0 4 →
    (w.extractLsb' 0 4 = 1#4 → w.extractLsb' 4 1 = w'.extractLsb' 4 1) →
    (w.extractLsb' 0 4 = 2#4 ∨ w.extractLsb' 0 4 = 3#4 →
      w.extractLsb' 8 16 = w'.extractLsb' 8 16 ∧ w.extractLsb' 24 16 = w'.extractLsb' 24 16) →
    (w.extractLsb' 0 4 = 2#4 ∨ w.extractLsb' 0 4 = 4#4 → w.extractLsb' 40 32 = w'.extractLsb' 40 32) →
    (w.extractLsb' 0 4 = 4#4 → w.extractLsb' 72 32 = w'.extractLsb' 72 32) →
    (∀ i, decode (.c w) = .ok i ↔ decode (.c w') = .ok i)) ∧
  (∀ w w' : BitVec 24,
    w.extractLsb' 0 4 = w'.extractLsb' 0 4 →
    (w.extractLsb' 0 4 = 8#4 →
      w.extractLsb' 4 2 = w'.extractLsb' 4 2 ∧ w.extractLsb' 8 16 = w'.extractLsb' 8 16) →
    (∀ i, decode (.p w) = .ok i ↔ decode (.p w') = .ok i))

/-- Words of 95_test_vectors.md decode to the operations they stand for (R92). -/
def Obligations.WrittenOutWordsDecode : Prop :=
  decode (.c 0x00000000000000000000000011#104) = .ok (.take true) ∧
  decode (.c 0x00000000112233440001000302#104) = .ok (.set 3 1 0x11223344) ∧
  decode (.c 0x0000011C000000010000000004#104) = .ok (.vstore 0x11C 1) ∧
  decode (.p 0x000428#24) = .ok (.publish .released 4) ∧
  decode (.p 0x000009#24) = .ok .snapshot

/-- A C response word determines the response and the fault register beside it. A P response word, with the grid
`p_snap` that R92 leaves out of it, does the same (R82, R84, R92). -/
def Obligations.ResponseWordsLoseNothing : Prop :=
  (∀ r r' f f', cRspWord r f = cRspWord r' f' → r = r' ∧ f = f') ∧
  (∀ r r' f f', pRspWord r f = pRspWord r' f' → r.snap = r'.snap → r = r' ∧ f = f')

/-! ## Configuration and the VRAM decode -/

/-- The well-formedness Bool is the checks of R8, and with them R7's decided PIXEL_BYTES and its range of KEY_W, which
the model holds a configuration to (log 23, log 19). -/
def Obligations.WellFormedConfigurationMeansEveryCheck : Prop :=
  ∀ k : Config, k.wf = true ↔
    (1 ≤ k.width ∧ k.width ≤ 65536 ∧ 1 ≤ k.height ∧ k.height ≤ 65536) ∧
    (1 ≤ k.pixelBytes ∧ k.pixelBytes ≤ k.vramStride) ∧
    (k.vramBase + k.vramStride * k.height ≤ k.memSize) ∧
    (1 ≤ k.addrW ∧ k.addrW ≤ 32 ∧ 1 ≤ k.memSize ∧ k.memSize ≤ 2 ^ k.addrW) ∧
    (1 ≤ k.vecBytes ∧ k.vectorAddr + k.vecBytes ≤ k.memSize) ∧
    (∀ a, k.vectorAddr ≤ a → a < k.vectorAddr + k.vecBytes →
      ¬ (k.vramBase ≤ a ∧ a < k.vramBase + k.vramStride * k.height)) ∧
    ([k.keySpace, k.keyUp, k.keyDown, k.keyLeft, k.keyRight].Pairwise (· ≠ ·) ∧
      ∀ c ∈ [k.keySpace, k.keyUp, k.keyDown, k.keyLeft, k.keyRight], c < 2 ^ k.keyW) ∧
    k.pixelBytes = 4 ∧ (3 ≤ k.keyW ∧ k.keyW ≤ 16)

/-- A configuration that fails a check is refused by every step (R8, R207). That the value of PIXEL_BYTES and the range
of KEY_W that R7 gives are checked with those of R8 is the model's reading, log 23 and log 19. -/
def Obligations.IllFormedConfigurationIsRefused : Prop :=
  ∀ s : State, s.cfg.wf = false → step s = .refused .cfg

/-- Two addresses that decode to pixels decode to different ones, and each is the address of its pixel (R55). -/
def Obligations.VramDecodeIsOneToOne : Prop :=
  ∀ (k : Config) (a1 a2 x1 y1 x2 y2 : Nat), k.wf = true →
    vramMap k a1 = .pixel x1 y1 → vramMap k a2 = .pixel x2 y2 →
    (a1 ≠ a2 → (x1, y1) ≠ (x2, y2)) ∧
    a1 = k.vramBase + y1 * k.vramStride + x1 * k.pixelBytes ∧ x1 * k.pixelBytes < k.vramStride ∧
    a1 = vaddr k x1 y1

/-- An address in the VRAM range is inside the image (R52, R53); a column off the grid needs a stride wider than a row
of pixels (R54); the address of a pixel whose column lies in its row decodes to that pixel (R55). -/
def Obligations.VramRangeLiesInTheImage : Prop :=
  ∀ (k : Config) (a : Nat), k.wf = true →
    (∀ x y, x < k.width → y < k.height → x * k.pixelBytes < k.vramStride →
      vramMap k (vaddr k x y) = .pixel x y) ∧
    (inVram k a = true → a < k.memSize) ∧
    (vramMap k a = .outOfFb → k.width * k.pixelBytes < k.vramStride) ∧
    (vramMap k a = .notVram ↔ ¬ (k.vramBase ≤ a ∧ a < k.vramBase + k.vramStride * k.height))

/-! ## What each operation does -/

/-- IDLE is no request: its operation changes nothing, and an agent that presents op 0x0 on a port in any state,
`Stopped` too, issues nothing (R108). -/
def Obligations.IdleChangesNothing : Prop :=
  ∀ (isa : Isa) (s : State),
    (∀ port, exec (.idle port) s = .next s) ∧ (∀ r : ReqWord, r.op = 0 → runMove isa (.present r) s = .next s)

/-- TAKE answers NO_EVENT on an empty slot; else it clears the flag alone and returns the event with its interrupt
request (R152). -/
def Obligations.TakeChecksClearsAndReturns : Prop :=
  ∀ (ie : Bool) (s : State), pendingReq s.block .c ≠ none → s.block.gMb = none →
    exec (.take ie) s = .next { s with block :=
      if s.block.mbOcc then
        { s.block with
          mbOcc := false
          cPort := .done
            { st := .event
              irq := ie && irqQualifies s.cfg s.block.mbKind s.block.mbCode
              rkind := s.block.mbKind
              rcode := s.block.mbCode
              rdata := 0 } }
      else
        { s.block with cPort := .done { st := .noEvent, irq := false, rkind := .none, rcode := 0, rdata := 0 } } }

/-- SET in bounds writes one pixel and answers OK; out of bounds it faults FB_BOUNDS (R120, R121, R201). -/
def Obligations.SetWritesOnePixelOrFaults : Prop :=
  ∀ (x y : Coord) (c : Pixel) (s : State), pendingReq s.block .c ≠ none →
    (x.toNat < s.cfg.width → y.toNat < s.cfg.height → s.block.gFb = none →
      exec (.set x y c) s = .next { s with block :=
        { s.block with fb := Grid.put s.block.fb x.toNat y.toNat c, cPort := .done (plainC .ok) } }) ∧
    (s.cfg.width ≤ x.toNat ∨ s.cfg.height ≤ y.toNat →
      exec (.set x y c) s = .next { s with block :=
        { s.block with cFault := .fbBounds, cPort := .done (plainC .fault) } })

/-- GET in bounds returns the pixel, with no grant; out of bounds it faults FB_BOUNDS (R120, R122, R201). -/
def Obligations.GetReadsOnePixelOrFaults : Prop :=
  ∀ (x y : Coord) (s : State), pendingReq s.block .c ≠ none →
    (x.toNat < s.cfg.width → y.toNat < s.cfg.height →
      exec (.get x y) s = .next { s with block :=
        { s.block with cPort := .done { plainC .ok with rdata := Grid.pixel s.block.fb x.toNat y.toNat } } }) ∧
    (s.cfg.width ≤ x.toNat ∨ s.cfg.height ≤ y.toNat →
      exec (.get x y) s = .next { s with block :=
        { s.block with cFault := .fbBounds, cPort := .done (plainC .fault) } })

/-- VSTORE by its address: NOT_VRAM outside the range, VRAM_ALIGN off a pixel boundary, then VRAM_MAP past the last
column, else the pixel written (R54, R124, R202, R203). -/
def Obligations.VstoreFollowsTheVramDecode : Prop :=
  ∀ (a : Addr) (c : Pixel) (s : State), pendingReq s.block .c ≠ none →
    let k := s.cfg
    let off := a.toNat - k.vramBase
    let inRange := k.vramBase ≤ a.toNat ∧ a.toNat < k.vramBase + k.vramStride * k.height
    let r := off % k.vramStride
    (¬ inRange →
      exec (.vstore a c) s = .next { s with block := { s.block with cPort := .done (plainC .notVram) } }) ∧
    (inRange → r % k.pixelBytes ≠ 0 →
      exec (.vstore a c) s = .next { s with block :=
        { s.block with cFault := .vramAlign, cPort := .done (plainC .fault) } }) ∧
    (inRange → r % k.pixelBytes = 0 → k.width ≤ r / k.pixelBytes →
      exec (.vstore a c) s = .next { s with block :=
        { s.block with cFault := .vramMap, cPort := .done (plainC .fault) } }) ∧
    (inRange → r % k.pixelBytes = 0 → r / k.pixelBytes < k.width → s.block.gFb = none →
      exec (.vstore a c) s = .next { s with block :=
        { s.block with
          fb := Grid.put s.block.fb (r / k.pixelBytes) (off / k.vramStride) c
          cPort := .done (plainC .ok) } })

/-- SNAPSHOT answers the whole grid and changes nothing else (R123). -/
def Obligations.SnapshotCopiesTheWholeGrid : Prop :=
  ∀ s : State, pendingReq s.block .p ≠ none → s.block.gFb = none →
    exec .snapshot s = .next { s with block :=
      { s.block with pPort := .done { st := .ok, snap := s.block.fb } } }

/-- PUBLISH posts a Pressed or Released event over whatever the slot held; the kinds None and 3 fault BAD_KIND
(R151, R205). -/
def Obligations.PublishOverwritesTheSlotOrFaults : Prop :=
  ∀ (code : KeyCode) (s : State), pendingReq s.block .p ≠ none →
    (s.block.gMb = none →
      exec (.publish .pressed code) s = .next { s with block :=
        { s.block with
          mbKind := .pressed, mbCode := code, mbOcc := true, pPort := .done (plainP s.cfg .ok) } } ∧
      exec (.publish .released code) s = .next { s with block :=
        { s.block with
          mbKind := .released, mbCode := code, mbOcc := true, pPort := .done (plainP s.cfg .ok) } }) ∧
    (∀ kind, kind = .none ∨ kind = .reserved →
      exec (.publish kind code) s = .next { s with block :=
        { s.block with pFault := .badKind, pPort := .done (plainP s.cfg .fault) } })

/-! ## The host's shutdown -/

/-- The host's shutdown move asserts the signals it names and changes nothing else, at any time; no other move changes
a signal (R186). That a signal once asserted stays is the model's reading, log 18. -/
def Obligations.ShutdownMoveAssertsTheSignal : Prop :=
  ∀ (isa : Isa) (s : State),
    (∀ c p, runMove isa (.shutdown c p) s =
      .next { s with host := { s.host with shutC := s.host.shutC || c, shutP := s.host.shutP || p } }) ∧
    (∀ m t, runMove isa m s = .next t →
      (s.host.shutC = true → t.host.shutC = true) ∧ (s.host.shutP = true → t.host.shutP = true) ∧
      (t.host.shutC ≠ s.host.shutC ∨ t.host.shutP ≠ s.host.shutP → ∃ c p, m = .shutdown c p))

/-! ## What each operation leaves unchanged -/

/-- No operation touches the configuration, the consumer (pc, cpu, image, ie, keyboard status), the producer, the
host's side or the other port and its fault register; every byte of the image reads as before (R51, R109, R200). -/
def Obligations.OperationsLeaveTheClientsAndTheOtherPort : Prop :=
  ∀ (i : Instr) (s t : State), exec i s = .next t →
    t.cfg = s.cfg ∧ t.cons = s.cons ∧ t.prod = s.prod ∧ t.host = s.host ∧
    (∀ a, Memory.read t.cons.mem a = Memory.read s.cons.mem a) ∧
    (i.port = .c → t.block.pPort = s.block.pPort ∧ t.block.pFault = s.block.pFault) ∧
    (i.port = .p → t.block.cPort = s.block.cPort ∧ t.block.cFault = s.block.cFault)

/-- SET and VSTORE change at most the pixel they address, and no mailbox field; a VSTORE's pixel is the one the VRAM
decode gives for its address (R121, R124, R68). -/
def Obligations.FrameBufferWritesChangeOnePixel : Prop :=
  ∀ (s t : State) (c : Pixel),
    (∀ x y : Coord, exec (.set x y c) s = .next t →
      (∀ x' y', (x', y') ≠ (x.toNat, y.toNat) → Grid.pixel t.block.fb x' y' = Grid.pixel s.block.fb x' y') ∧
      t.block.mbKind = s.block.mbKind ∧ t.block.mbCode = s.block.mbCode ∧ t.block.mbOcc = s.block.mbOcc) ∧
    (∀ a : Addr, exec (.vstore a c) s = .next t →
      (∀ x' y', vramMap s.cfg a.toNat ≠ .pixel x' y' →
        Grid.pixel t.block.fb x' y' = Grid.pixel s.block.fb x' y') ∧
      ((∀ x y, vramMap s.cfg a.toNat ≠ .pixel x y) → t.block.fb = s.block.fb) ∧
      t.block.mbKind = s.block.mbKind ∧ t.block.mbCode = s.block.mbCode ∧ t.block.mbOcc = s.block.mbOcc)

/-- GET, SNAPSHOT, TAKE, PUBLISH and IDLE leave the frame buffer; GET, SNAPSHOT and IDLE leave the mailbox; TAKE
leaves the kind and the code and never sets the flag; the grants are as before, for every operation, when they were
free (R64, R68). -/
def Obligations.OtherOperationsLeaveTheFrameBuffer : Prop :=
  ∀ (i : Instr) (s t : State), exec i s = .next t →
    ((∀ x y c, i ≠ .set x y c) → (∀ a c, i ≠ .vstore a c) → t.block.fb = s.block.fb) ∧
    ((∀ ie, i ≠ .take ie) → (∀ kd code, i ≠ .publish kd code) →
      t.block.mbKind = s.block.mbKind ∧ t.block.mbCode = s.block.mbCode ∧ t.block.mbOcc = s.block.mbOcc) ∧
    ((∀ kd code, i ≠ .publish kd code) →
      t.block.mbKind = s.block.mbKind ∧ t.block.mbCode = s.block.mbCode ∧
        (t.block.mbOcc = true → s.block.mbOcc = true)) ∧
    (s.block.gFb = none → t.block.gFb = none) ∧ (s.block.gMb = none → t.block.gMb = none)

/-- An operation that answers FAULT changes only its port: the fault register takes a cause, and every other field of
the response is 0 (R200). -/
def Obligations.FaultingOperationWritesOnlyItsRegister : Prop :=
  ∀ (i : Instr) (s t : State), exec i s = .next t → i.isIdle = false → answered t.block i.port = some .fault →
    (i.port = .c → t.block.cFault ≠ .none ∧
      t = { s with block := { s.block with cFault := t.block.cFault, cPort := .done (plainC .fault) } }) ∧
    (i.port = .p → t.block.pFault ≠ .none ∧
      t = { s with block := { s.block with pFault := t.block.pFault, pPort := .done (plainP s.cfg .fault) } })

/-! ## The step -/

/-- A perform of a pending, well-formed request runs its decoded operation, and an IDLE that is presented runs at
once (R102, R108); a step runs the move lined up, which then leaves the list, or the free choice at its tick, which
then counts on (log 8). -/
def Obligations.StepRunsTheDecodedInstruction : Prop :=
  (∀ (s : State) port ms r i, s.cfg.wf = true → s.host.sched = .perform port :: ms →
    pendingReq s.block port = some r → decode r = .ok i → i.wf s.cfg = true →
    step s = exec i { s with host := { s.host with sched := ms } }) ∧
  (∀ (s : State) ms r i, s.cfg.wf = true → s.host.sched = .present r :: ms →
    decode r = .ok i → i.isIdle = true →
    step s = exec i { s with host := { s.host with sched := ms } }) ∧
  (∀ (isa : Isa) (s : State) port r i,
    pendingReq s.block port = some r → decode r = .ok i → i.wf s.cfg = true →
    runMove isa (.perform port) s = exec i s) ∧
  (∀ (s : State) m ms, s.cfg.wf = true → s.host.sched = m :: ms →
    step s = runMove Config.isa m { s with host := { s.host with sched := ms } }) ∧
  (∀ (s : State), s.cfg.wf = true → s.host.sched = [] →
    step s =
      runMove Config.isa (Config.nextMove s.host.tick) { s with host := { s.host with tick := s.host.tick + 1 } })

/-- The perform of a request whose op the port does not admit faults BAD_OP and writes nothing else (R204). -/
def Obligations.UnadmittedOpFaultsBadOp : Prop :=
  (∀ (s : State) ms (w : BitVec 104), s.cfg.wf = true → s.host.sched = .perform .c :: ms →
    s.block.cPort = .pending w →
    (w.extractLsb' 0 4).toNat ∈ [0x5, 0x6, 0x7, 0x8, 0x9, 0xA, 0xB, 0xC, 0xD, 0xE, 0xF] →
    step s = .next { s with
      block := { s.block with cFault := .badOp, cPort := .done (plainC .fault) }
      host := { s.host with sched := ms } }) ∧
  (∀ (s : State) ms (w : BitVec 24), s.cfg.wf = true → s.host.sched = .perform .p :: ms →
    s.block.pPort = .pending w →
    (w.extractLsb' 0 4).toNat ∈ [0x1, 0x2, 0x3, 0x4, 0x5, 0x6, 0x7, 0xA, 0xB, 0xC, 0xD, 0xE, 0xF] →
    step s = .next { s with
      block := { s.block with pFault := .badOp, pPort := .done (plainP s.cfg .fault) }
      host := { s.host with sched := ms } })

/-- No step answers a model fault: the machine never performs a port that holds no request (R102). -/
def Obligations.NoStepFaults : Prop := ∀ (s : State) (f : Fault), step s ≠ .fault f

/-- From a state that meets the invariant a move is refused only in Fetch, for a byte in the VRAM range that the
instruction occupies or its loads read, or at an issue, for a field too wide (R207). The producer is never refused,
since the codes it publishes have KEY_W bits (R173, log 32). Which bytes an answer without a length stands for is the model's
reading, log 14: from pc to the end of the image for FetchOOB, the byte at pc for IsaFault. So is which fields an issue checks, log 13: the field its operation reads, the bundle's when it is illegal. -/
def Obligations.RefusalsHaveTheirReasons : Prop :=
  ∀ (isa : Isa) (m : Move) (s : State) (why : Refusal), Invariant s → runMove isa m s = .refused why →
    (why = .vramRead ∧ m = .consumer ∧ s.cons.phase = .fetch ∧ ∃ a, inVram s.cfg a = true ∧
      match isa.step s.cfg s.cons.cpu s.cons.mem s.cons.pc s.cons.ie with
      | .fetchOob => s.cons.pc ≤ a ∧ a < s.cfg.memSize
      | .isaFault => a = s.cons.pc
      | .record r => (s.cons.pc ≤ a ∧ a < s.cons.pc + r.len) ∨ a ∈ r.reads) ∨
    (why = .fieldWidth ∧
      ((∃ r, m = .present r ∧ match decode r with
        | .ok i => i.wf s.cfg = false
        | .error _ => rawWidthOk s.cfg r = false) ∨
       (∃ r a n v nx, m = .consumer ∧ s.cons.fetched = some r ∧ r.action = .store a n v nx ∧
         2 ^ s.cfg.addrW ≤ a.toNat)))

/-- A free agent's issue is refused when `c_addr` or `p_code` has a bit above its width, for a VSTORE, a PUBLISH of any
kind, and an illegal request (R87, R110). -/
def Obligations.OverWideOperandIsRefusedAtIssue : Prop :=
  ∀ (isa : Isa) (s : State) (r : ReqWord), clientOf s.cfg r.port = .free → isIdlePort s.block r.port = true →
    (∀ a c, decode r = .ok (.vstore a c) → 2 ^ s.cfg.addrW ≤ a.toNat →
      runMove isa (.present r) s = .refused .fieldWidth) ∧
    (∀ kind code, decode r = .ok (.publish kind code) → 2 ^ s.cfg.keyW ≤ code.toNat →
      runMove isa (.present r) s = .refused .fieldWidth) ∧
    (∀ w e, r = .c w → decode r = .error e → 2 ^ s.cfg.addrW ≤ (w.extractLsb' 72 32).toNat →
      runMove isa (.present r) s = .refused .fieldWidth) ∧
    (∀ w e, r = .p w → decode r = .error e → 2 ^ s.cfg.keyW ≤ (w.extractLsb' 8 16).toNat →
      runMove isa (.present r) s = .refused .fieldWidth)

/-- Issue captures the whole request on an `Idle` port, legal or illegal alike, and changes nothing else, when its
fields keep their widths (R101, R110). Which fields are checked is the model's reading, log 13: a SET, GET, TAKE or
SNAPSHOT is issued whatever its `c_addr` or `p_code`, which it does not read; an illegal request is checked like R87
says of any. -/
def Obligations.IssueCapturesTheRequest : Prop :=
  ∀ (isa : Isa) (s : State) (r : ReqWord), clientOf s.cfg r.port = .free → isIdlePort s.block r.port = true →
    r.op ≠ 0 →
    (∀ i, decode r = .ok i → i.wf s.cfg = true) →
    (∀ w e, r = .c w → decode r = .error e → (w.extractLsb' 72 32).toNat < 2 ^ s.cfg.addrW) →
    (∀ w e, r = .p w → decode r = .error e → (w.extractLsb' 8 16).toNat < 2 ^ s.cfg.keyW) →
    ∃ t, runMove isa (.present r) s = .next t ∧ pendingReq t.block r.port = some r ∧
      t = { s with block := { s.block with cPort := t.block.cPort, pPort := t.block.pPort } } ∧
      (r.port = .c → t.block.pPort = s.block.pPort) ∧ (r.port = .p → t.block.cPort = s.block.cPort)

/-- A pending request changes by no step but its own perform, whatever the agents do (R101, R104). -/
def Obligations.PendingRequestIsStable : Prop :=
  ∀ (isa : Isa) (m : Move) (s t : State) (port : Port) (r : ReqWord), pendingReq s.block port = some r →
    m ≠ .perform port → runMove isa m s = .next t → pendingReq t.block port = some r

/-- A retire reads the response and makes the port `Stopped` on FAULT and `Idle` otherwise (R103), and a FAULT ends the
port's running agent: crun becomes Fatal(BLOCK(cause)), prun Stopped (R184, R175). A response leaves its port by no
other step. That a free agent's FAULT ends it in the same way is the model's choice, log 11. -/
def Obligations.RetireStopsThePortOnFault : Prop :=
  ∀ (isa : Isa) (m : Move) (s t : State), runMove isa m s = .next t →
    (∀ r, s.block.cPort = .done r → t.block.cPort ≠ .done r →
      t.block.cPort = (if r.st = .fault then .stopped else .idle) ∧ t.cons.last = some r ∧
        (m = .consumer ∨ m = .retire .c) ∧
        (r.st = .fault → s.cons.run = .running → t.cons.run = .fatal (.block s.block.cFault))) ∧
    (∀ r, s.block.pPort = .done r → t.block.pPort ≠ .done r →
      t.block.pPort = (if r.st = .fault then .stopped else .idle) ∧ t.prod.last = some r ∧
        ((∃ es b, m = .producer es b) ∨ m = .retire .p) ∧
        (r.st = .fault → s.prod.run = .running → t.prod.run = .stopped)) ∧
    (∀ r, s.cfg.cClient = .free → s.block.cPort = .done r →
      runMove isa (.retire .c) s = .next { s with
        block := { s.block with cPort := if r.st = .fault then .stopped else .idle }
        cons := { s.cons with
          last := some r
          run := if r.st = .fault ∧ s.cons.run = .running then .fatal (.block s.block.cFault) else s.cons.run } }) ∧
    (∀ r, s.cfg.pClient = .free → s.block.pPort = .done r →
      runMove isa (.retire .p) s = .next { s with
        block := { s.block with pPort := if r.st = .fault then .stopped else .idle }
        prod := { s.prod with
          last := some r
          run := if r.st = .fault ∧ s.prod.run = .running then .stopped else s.prod.run } })

/-- A stopped port takes no issue, perform or retire: it stays stopped and keeps its cause (R109). -/
def Obligations.StoppedPortStaysStopped : Prop :=
  ∀ (isa : Isa) (m : Move) (s t : State) (port : Port), isStopped s.block port = true →
    runMove isa m s = .next t → isStopped t.block port = true ∧ faultOf t.block port = faultOf s.block port

/-- A fault register changes only at the perform of its own port, and from a state that meets the invariant a set
register keeps its cause (R26). -/
def Obligations.FaultRegistersAreSticky : Prop :=
  ∀ (isa : Isa) (m : Move) (s t : State) (port : Port), runMove isa m s = .next t →
    (faultOf t.block port ≠ faultOf s.block port → m = .perform port) ∧
    (Invariant s → faultOf s.block port ≠ .none → faultOf t.block port = faultOf s.block port)

/-- Only a perform of SET or VSTORE on port C changes the frame buffer (R68, R125). -/
def Obligations.OnlyPortCWritesTheFrameBuffer : Prop :=
  ∀ (isa : Isa) (m : Move) (s t : State), runMove isa m s = .next t → t.block.fb ≠ s.block.fb →
    m = .perform .c ∧ ∃ i, performed m s = some i ∧ writtenPixel s.cfg i ≠ none

/-- Only PUBLISH on port P writes the event and sets the flag; only TAKE on port C clears it (R23, R68). -/
def Obligations.OnlyPublishPostsAndOnlyTakeClears : Prop :=
  ∀ (isa : Isa) (m : Move) (s t : State), runMove isa m s = .next t →
    ((t.block.mbKind ≠ s.block.mbKind ∨ t.block.mbCode ≠ s.block.mbCode ∨
        (s.block.mbOcc = false ∧ t.block.mbOcc = true)) →
      m = .perform .p ∧ ∃ i, performed m s = some i ∧ posts i = true) ∧
    ((s.block.mbOcc = true ∧ t.block.mbOcc = false) →
      m = .perform .c ∧ ∃ i, performed m s = some i ∧ isTake i = true)

/-- Only the consumer's plain store writes the image, and only at the bytes it stores to (R32, R51, R56). -/
def Obligations.OnlyThePlainStoreWritesTheImage : Prop :=
  ∀ (isa : Isa) (m : Move) (s t : State), runMove isa m s = .next t → t.cons.mem ≠ s.cons.mem →
    m = .consumer ∧ s.cons.phase = .execute ∧
    ∃ r a n v nx, s.cons.fetched = some r ∧ r.action = .store a n v nx ∧
      (∃ rsp, s.block.cPort = .done rsp ∧ rsp.st = .notVram) ∧
      ∀ x, (x < a.toNat ∨ a.toNat + n ≤ x) → Memory.read t.cons.mem x = Memory.read s.cons.mem x

/-- A write of bytes writes exactly those bytes, and keeps the image's canonical form; the bytes a plain store writes
are the n bytes of its value, each once, in an order that is ISA-side (R11, R181). That a value wider than n bytes
gives its low ones is the model's reading, log 20. -/
def Obligations.MemoryWritesReadBack : Prop :=
  (∀ (place : Nat → Nat) (v n : Nat),
    (Memory.storeBytes place v n).Perm ((List.range n).map fun j => BitVec.ofNat 8 (v / 256 ^ j))) ∧
  ∀ (m : Memory) (a : Nat) (bs : List Byte), Memory.wf m = true →
    Memory.wf (Memory.writeAll m a bs) = true ∧
    (∀ j b, bs[j]? = some b → Memory.read (Memory.writeAll m a bs) (a + j) = b) ∧
    (∀ x, (x < a ∨ a + bs.length ≤ x) → Memory.read (Memory.writeAll m a bs) x = Memory.read m x)

/-! ## Laws over runs -/

/-- A GET returns the colour of the last write to its pixel, by SET or by VSTORE, whatever else ran in between
(R126). -/
def Obligations.GetReturnsTheLastColourWritten : Prop :=
  ∀ (isa : Isa) (s t u : State) (i : Instr) (ms : List Move) (x y : Coord) (c : Pixel), Invariant s →
    performed (.perform .c) s = some i → writtenPixel s.cfg i = some (x.toNat, y.toNat, c) →
    runMove isa (.perform .c) s = .next t →
    along isa (fun m w => ∀ j, performed m w = some j →
      ∀ d, writtenPixel w.cfg j ≠ some (x.toNat, y.toNat, d)) ms t →
    runMoves isa ms t = .next u →
    performed (.perform .c) u = some (.get x y) →
    ∃ v, runMove isa (.perform .c) u = .next v ∧
      v.block.cPort = .done { st := .ok, irq := false, rkind := .none, rcode := 0, rdata := c }

/-- From reset, a SNAPSHOT returns FB_INIT with the writes performed before it applied in order, and nothing else
(R127). -/
def Obligations.SnapshotShowsExactlyTheWritesBeforeIt : Prop :=
  ∀ (isa : Isa) (k : Config) (b : Boot) (ms : List Move) (t : State), k.wf = true →
    Memory.wf b.image = true → Memory.within k.memSize b.image = true →
    runMoves isa ms (State.resetOf k b) = .next t →
    performed (.perform .p) t = some .snapshot →
    ∃ v, runMove isa (.perform .p) t = .next v ∧
      v.block.pPort = .done
        { st := .ok
          snap := applyWrites k (performedAll isa ms (State.resetOf k b)) (gridOf k.width k.height b.fbInit) }

/-- A TAKE returns the event of the last PUBLISH before it when no TAKE came in between (R154, R67). -/
def Obligations.TakeReturnsTheLatestPublished : Prop :=
  ∀ (isa : Isa) (s t u : State) (e : Edge) (code : KeyCode) (ie : Bool) (ms : List Move), Invariant s →
    performed (.perform .p) s = some (.publish (edgeField e) code) →
    runMove isa (.perform .p) s = .next t →
    along isa (fun m w => ∀ j, performed m w = some j → posts j = false ∧ isTake j = false) ms t →
    runMoves isa ms t = .next u →
    performed (.perform .c) u = some (.take ie) →
    ∃ v r, runMove isa (.perform .c) u = .next v ∧ v.block.cPort = .done r ∧ r.st = .event ∧
      r.rkind = (match e with | .pressed => .pressed | .released => .released) ∧ r.rcode = code ∧
      v.block.mbOcc = false

/-- Two TAKEs with no PUBLISH performed between them, the flag set before the first, return EVENT and then NO_EVENT
(R155). -/
def Obligations.TakeTwiceReturnsEventThenNothing : Prop :=
  ∀ (isa : Isa) (s : State) (ie ie' : Bool), Invariant s →
    performed (.perform .c) s = some (.take ie) → s.block.mbOcc = true →
    ∃ t, runMove isa (.perform .c) s = .next t ∧ answered t.block .c = some .event ∧
      ∀ (ms : List Move) (u : State),
        along isa (fun m w => ∀ j, performed m w = some j → posts j = false) ms t →
        runMoves isa ms t = .next u → performed (.perform .c) u = some (.take ie') →
        ∃ v, runMove isa (.perform .c) u = .next v ∧
          v.block.cPort = .done { st := .noEvent, irq := false, rkind := .none, rcode := 0, rdata := 0 }

/-- The performs of two ports pending together commute when they reach different resources (R66). -/
def Obligations.PerformsOnDifferentResourcesCommute : Prop :=
  ∀ (isa : Isa) (s : State) (i j : Instr), Invariant s →
    performed (.perform .c) s = some i → performed (.perform .p) s = some j →
    ((isTake i = true ∧ j = .snapshot) ∨ (isTake i = false ∧ ∃ kd code, j = .publish kd code)) →
    ∃ t, runMoves isa [.perform .c, .perform .p] s = .next t ∧ runMoves isa [.perform .p, .perform .c] s = .next t

/-- Along a fair order of moves every pending request is performed, and every response on the port of a running agent
is retired, unless the run is refused first (R107). -/
def Obligations.FairOrderPerformsEveryRequest : Prop :=
  ∀ (isa : Isa) (s : State) (port : Port) (order : Nat → Move), Invariant s → Fair s.cfg order →
    (pendingReq s.block port ≠ none →
      ∃ n, (∃ t, runMoves isa ((List.range n).map order) s = .next t ∧ answered t.block port ≠ none) ∨
        (∃ why, runMoves isa ((List.range n).map order) s = .refused why)) ∧
    (agentRunning s port = true → answered s.block port ≠ none →
      ∃ n, (∃ t, runMoves isa ((List.range n).map order) s = .next t ∧ answered t.block port = none) ∨
        (∃ why, runMoves isa ((List.range n).map order) s = .refused why))

/-! ## The consumer -/

/-- InputCheck issues a TAKE with `c_ie = ie` in every cycle; the retire of NO_EVENT leads to Fetch and does nothing
else (R177). -/
def Obligations.InputCheckTakesInEveryCycle : Prop :=
  ∀ (isa : Isa) (s : State), s.cfg.cClient = .activity → s.cons.run = .running → s.cons.checkDue = false →
    s.cons.phase = .inputCheck →
    (s.block.cPort = .idle → ∃ w, decode (.c w) = .ok (.take s.cons.ie) ∧
      runMove isa .consumer s = .next { s with block := { s.block with cPort := .pending w } }) ∧
    (∀ r, s.block.cPort = .done r → r.st = .noEvent →
      runMove isa .consumer s = .next { s with
        block := { s.block with cPort := .idle }
        cons := { s.cons with last := some r, phase := .fetch } })

/-- Every EVENT updates the keyboard status, whether or not an interrupt follows; with no interrupt request that is
all, before Fetch (R178). -/
def Obligations.EventUpdatesTheKeyboardStatus : Prop :=
  ∀ (isa : Isa) (s : State) (r : CRsp), s.cfg.cClient = .activity → s.cons.run = .running →
    s.cons.checkDue = false → s.cons.phase = .inputCheck → s.block.cPort = .done r → r.st = .event →
    ∃ t, runMove isa .consumer s = .next t ∧ t.cons.kbd = isa.kbdUpdate s.cons.kbd r.rkind r.rcode ∧
      (r.irq = false →
        t = { s with
          block := { s.block with cPort := .idle }
          cons := { s.cons with
            last := some r, kbd := isa.kbdUpdate s.cons.kbd r.rkind r.rcode, phase := .fetch } })

/-- The interrupt: pc becomes the unsigned value of the vector's bytes in VEC_ENDIAN order, read from the image now,
and nothing is saved; a target outside the image ends the run with pc kept (R179). -/
def Obligations.InterruptJumpsThroughTheVector : Prop :=
  ∀ (isa : Isa) (s : State) (r : CRsp), s.cfg.cClient = .activity → s.cons.run = .running →
    s.cons.checkDue = false → s.cons.phase = .inputCheck → s.block.cPort = .done r → r.st = .event →
    r.irq = true →
    let bytes := Memory.readAll s.cons.mem s.cfg.vectorAddr s.cfg.vecBytes
    let target := match s.cfg.vecEndian with
      | .little => natOfBytes bytes
      | .big => natOfBytes bytes.reverse
    let kbd := isa.kbdUpdate s.cons.kbd r.rkind r.rcode
    (target < s.cfg.memSize →
      runMove isa .consumer s = .next { s with
        block := { s.block with cPort := .idle }
        cons := { s.cons with last := some r, kbd := kbd, pc := target, phase := .fetch } }) ∧
    (s.cfg.memSize ≤ target →
      runMove isa .consumer s = .next { s with
        block := { s.block with cPort := .idle }
        cons := { s.cons with last := some r, kbd := kbd, run := .fatal .jumpOob } })

/-- Fetch by the answer of ISA_STEP, for bytes and reads that meet no VRAM; what meets VRAM is refused (R180, R57).
That a refusal goes before FETCH_OOB and ISA, and which bytes those two answers stand for, is the model's reading of
R208, log 14. -/
def Obligations.FetchFollowsTheIsaAnswer : Prop :=
  ∀ (isa : Isa) (s : State), s.cfg.cClient = .activity → s.cons.run = .running → s.cons.checkDue = false →
    s.cons.phase = .fetch →
    let k := s.cfg
    let ans := isa.step k s.cons.cpu s.cons.mem s.cons.pc s.cons.ie
    (ans = .fetchOob → vramHi k ≤ s.cons.pc →
      runMove isa .consumer s = .next { s with cons := { s.cons with run := .fatal .fetchOob } }) ∧
    (ans = .fetchOob → k.wf = true → s.cons.pc < vramHi k → runMove isa .consumer s = .refused .vramRead) ∧
    (ans = .isaFault → inVram k s.cons.pc = false →
      runMove isa .consumer s = .next { s with cons := { s.cons with run := .fatal .isa } }) ∧
    (ans = .isaFault → inVram k s.cons.pc = true → runMove isa .consumer s = .refused .vramRead) ∧
    (∀ r, ans = .record r →
      ((∃ a, inVram k a = true ∧ ((s.cons.pc ≤ a ∧ a < s.cons.pc + r.len) ∨ a ∈ r.reads)) →
        runMove isa .consumer s = .refused .vramRead) ∧
      ((∀ a, ((s.cons.pc ≤ a ∧ a < s.cons.pc + r.len) ∨ a ∈ r.reads) → inVram k a = false) →
        ((∃ a ∈ r.reads, k.memSize ≤ a) →
          runMove isa .consumer s = .next { s with cons := { s.cons with run := .fatal .memOob } }) ∧
        ((∀ a ∈ r.reads, a < k.memSize) →
          runMove isa .consumer s = .next { s with
            cons := { s.cons with fetched := some r, phase := .execute } })))

/-- Execute applies the private effects; a store issues a VSTORE with its address and TO_COLOR of its value, or is
refused for an over-wide address, and any other action goes to Advance (R181, R87). That the private effects and the
issue are one step is the model's choice, log 21. -/
def Obligations.ExecuteAppliesEffectsAndIssuesStores : Prop :=
  ∀ (isa : Isa) (s : State) (rec : IsaRecord), s.cfg.cClient = .activity → s.cons.run = .running →
    s.cons.checkDue = false → s.cons.phase = .execute → s.cons.fetched = some rec →
    ((∀ a n v nx, rec.action ≠ .store a n v nx) →
      runMove isa .consumer s = .next { s with
        cons := { s.cons with cpu := rec.cpu, ie := rec.ie, phase := .advance } }) ∧
    (∀ a n v nx, rec.action = .store a n v nx → s.block.cPort = .idle → a.toNat < 2 ^ s.cfg.addrW →
      ∃ w, decode (.c w) = .ok (.vstore a (isa.toColor v)) ∧
        runMove isa .consumer s = .next { s with
          block := { s.block with cPort := .pending w }
          cons := { s.cons with cpu := rec.cpu, ie := rec.ie } }) ∧
    (∀ a n v nx, rec.action = .store a n v nx → s.block.cPort = .idle → 2 ^ s.cfg.addrW ≤ a.toNat →
      runMove isa .consumer s = .refused .fieldWidth)

/-- What the consumer does with the answer of its VSTORE: OK leaves the image, NOT_VRAM writes the n bytes of the value
when the address is in the image and addr + n is at most MEM_SIZE, and is MEM_OOB otherwise, FAULT ends the run with the
block's cause (R11, R52, R181, R184). That all stores of n bytes share one byte order is the model's choice, log 6;
that a value wider than n bytes gives its low ones is its reading, log 20. That a store of no bytes at MEM_SIZE follows R52, and not the test of R181's
pseudocode alone, is the model's reading, log 30. -/
def Obligations.StoreAnswerDecidesTheImageWrite : Prop :=
  ∀ (isa : Isa) (s : State) (rec : IsaRecord) (a : Addr) (n v : Nat) (nx : IsaNext) (r : CRsp),
    s.cfg.cClient = .activity → s.cons.run = .running → s.cons.checkDue = false → s.cons.phase = .execute →
    s.cons.fetched = some rec → rec.action = .store a n v nx → s.block.cPort = .done r →
    (r.st = .ok →
      runMove isa .consumer s = .next { s with
        block := { s.block with cPort := .idle }
        cons := { s.cons with last := some r, phase := .advance } }) ∧
    (r.st = .notVram → a.toNat < s.cfg.memSize → a.toNat + n ≤ s.cfg.memSize →
      runMove isa .consumer s = .next { s with
        block := { s.block with cPort := .idle }
        cons := { s.cons with
          last := some r
          mem := Memory.writeAll s.cons.mem a.toNat (Memory.storeBytes (isa.bytePlace n) v n)
          phase := .advance } }) ∧
    (r.st = .notVram → s.cfg.memSize ≤ a.toNat ∨ s.cfg.memSize < a.toNat + n →
      runMove isa .consumer s = .next { s with
        block := { s.block with cPort := .idle }
        cons := { s.cons with last := some r, run := .fatal .memOob } }) ∧
    (r.st = .fault →
      runMove isa .consumer s = .next { s with
        block := { s.block with cPort := .stopped }
        cons := { s.cons with last := some r, run := .fatal (.block s.block.cFault) } })

/-- Advance: a sequential advance to MEM_SIZE or beyond ends the run normally, a target there is fatal, a halt ends
it; otherwise pc moves. The cycle returns to InputCheck (R182). -/
def Obligations.AdvanceMovesOrEnds : Prop :=
  ∀ (isa : Isa) (s : State) (rec : IsaRecord), s.cfg.cClient = .activity → s.cons.run = .running →
    s.cons.checkDue = false → s.cons.phase = .advance → s.cons.fetched = some rec →
    let home : Consumer := { s.cons with phase := .inputCheck, fetched := none, checkDue := true }
    let goes (c : Consumer) : Prop := runMove isa .consumer s = .next { s with cons := c }
    let isSeq := rec.action = .seq ∨ ∃ a n v, rec.action = .store a n v .seq
    let isJump (t : Nat) := rec.action = .jump t ∨ ∃ a n v, rec.action = .store a n v (.jump t)
    (isSeq → s.cfg.memSize ≤ s.cons.pc + rec.len → goes { home with run := .endedEnd }) ∧
    (isSeq → s.cons.pc + rec.len < s.cfg.memSize → goes { home with pc := s.cons.pc + rec.len }) ∧
    (∀ t, isJump t → s.cfg.memSize ≤ t → goes { home with run := .fatal .jumpOob }) ∧
    (∀ t, isJump t → t < s.cfg.memSize → goes { home with pc := t }) ∧
    (rec.action = .halt → goes { home with run := .endedHalt })

/-- Between two cycles, and only there, the consumer sees its shutdown signal, and then takes no step (R183). That the
check is a step of its own is the model's choice, log 17. -/
def Obligations.ShutdownIsSeenBetweenCycles : Prop :=
  ∀ (isa : Isa) (s : State), s.cfg.cClient = .activity → s.cons.run = .running →
    (s.cons.checkDue = true →
      runMove isa .consumer s = .next { s with
        cons := { s.cons with run := if s.host.shutC then .shutdown else .running, checkDue := false } }) ∧
    (s.cons.checkDue = false → ∀ t, runMove isa .consumer s = .next t → t.cons.run ≠ .shutdown) ∧
    (∀ m t, m ≠ .consumer → runMove isa m s = .next t → t.cons.run = .running) ∧
    (∀ u : State, u.cons.run = .shutdown → runMove isa .consumer u = .next u)

/-- The pc changes only by the dispatch of an interrupt in InputCheck or in Advance, `ie` and the private registers
only in Execute, and the keyboard status only by an EVENT in InputCheck; no other agent changes them (R29, R30, R31,
R33, R176). -/
def Obligations.ConsumerRegistersChangeOnlyInTheirPhases : Prop :=
  ∀ (isa : Isa) (m : Move) (s t : State), runMove isa m s = .next t →
    (t.cons.pc ≠ s.cons.pc → m = .consumer ∧ (s.cons.phase = .advance ∨
      (s.cons.phase = .inputCheck ∧ t.cons.pc = vectorTarget s.cfg s.cons.mem ∧
        ∃ r, s.block.cPort = .done r ∧ r.st = .event ∧ r.irq = true))) ∧
    ((t.cons.ie ≠ s.cons.ie ∨ t.cons.cpu ≠ s.cons.cpu) → m = .consumer ∧ s.cons.phase = .execute) ∧
    (t.cons.kbd ≠ s.cons.kbd → m = .consumer ∧ s.cons.phase = .inputCheck ∧
      ∃ r, s.block.cPort = .done r ∧ r.st = .event)

/-- After the end of a run nothing of its observation changes: crun, mem, pc, fb and c_fault (R187). -/
def Obligations.EndedRunKeepsItsObservation : Prop :=
  ∀ (isa : Isa) (s t : State) (ms : List Move), s.cfg.cClient = .activity → Ended s →
    runMoves isa ms s = .next t → Ended t ∧ observed t = observed s

/-! ## The producer and isolation -/

/-- One tick of the producer, phase by phase: the snapshot taken and kept, handed to the sink outside any
transaction, the transitions published in order, each request waiting for its perform, the shutdown seen after Sleep and
by no other move (R171, R172, R173, R174). That a draw with a code over KEY_W bits is cut to them is the model's choice,
log 32; a producer that holds such a code, which no step gives it, is refused (R87). -/
def Obligations.ProducerTickFollowsItsPhases : Prop :=
  ∀ (isa : Isa) (s : State) (es : List Event) (ok : Bool), s.cfg.pClient = .activity → s.prod.run = .running →
    let goes (t : State) : Prop := runMove isa (.producer es ok) s = .next t
    (s.prod.phase = .snapshot → s.block.pPort = .idle → ∃ w, decode (.p w) = .ok .snapshot ∧
      goes { s with block := { s.block with pPort := .pending w } }) ∧
    (∀ r, s.prod.phase = .snapshot → s.block.pPort = .done r → r.st ≠ .fault →
      goes { s with
        block := { s.block with pPort := .idle }
        prod := { s.prod with last := some r, lastSnap := some r.snap, phase := .present } }) ∧
    (s.prod.phase = .present →
      goes { s with
        prod := { s.prod with phase := .input, todo := none }
        host := { s.host with sink := s.prod.lastSnap.map fun g => (g, ok) } }) ∧
    (s.prod.phase = .snapshot → ∀ w, s.block.pPort = .pending w → goes s) ∧
    (s.prod.phase = .input → s.prod.todo = none → (∀ e ∈ es, e.code.toNat < 2 ^ s.cfg.keyW) →
      goes { s with prod := { s.prod with todo := some es } }) ∧
    (s.prod.phase = .input → s.prod.todo = none →
      goes { s with prod := { s.prod with
        todo := some (es.map fun e => { e with code := BitVec.ofNat 16 (e.code.toNat % 2 ^ s.cfg.keyW) }) } }) ∧
    (∀ e rest, s.prod.phase = .input → s.prod.todo = some (e :: rest) → s.block.pPort = .idle →
      e.code.toNat < 2 ^ s.cfg.keyW →
      ∃ w, decode (.p w) = .ok (.publish (edgeField e.edge) e.code) ∧
        goes { s with block := { s.block with pPort := .pending w } }) ∧
    (∀ e rest, s.prod.phase = .input → s.prod.todo = some (e :: rest) → s.block.pPort = .idle →
      2 ^ s.cfg.keyW ≤ e.code.toNat → runMove isa (.producer es ok) s = .refused .fieldWidth) ∧
    (∀ e rest w, s.prod.phase = .input → s.prod.todo = some (e :: rest) → s.block.pPort = .pending w → goes s) ∧
    (∀ e rest r, s.prod.phase = .input → s.prod.todo = some (e :: rest) → s.block.pPort = .done r →
      r.st ≠ .fault →
      goes { s with
        block := { s.block with pPort := .idle }
        prod := { s.prod with last := some r, todo := some rest } }) ∧
    (s.prod.phase = .input → s.prod.todo = some [] →
      goes { s with prod := { s.prod with todo := none, phase := .sleep } }) ∧
    (s.prod.phase = .sleep →
      goes { s with prod :=
        if s.host.shutP then { s.prod with run := .shutdown } else { s.prod with phase := .snapshot } }) ∧
    (∀ m t, runMove isa m s = .next t → t.prod.run = .shutdown →
      (∃ es' ok', m = .producer es' ok') ∧ s.prod.phase = .sleep ∧ s.host.shutP = true)

/-- The producer's snapshot copy changes only when it retires the next SNAPSHOT: no block operation, no consumer step
and no host move touches it (R34). -/
def Obligations.SnapshotCopyIsImmutable : Prop :=
  ∀ (isa : Isa) (m : Move) (s t : State), runMove isa m s = .next t → t.prod.lastSnap ≠ s.prod.lastSnap →
    s.prod.phase = .snapshot ∧ (∃ es b, m = .producer es b) ∧
    ∃ r, s.block.pPort = .done r ∧ t.prod.lastSnap = some r.snap

/-- The producer neither reads nor writes the consumer's state: with any other consumer it takes the same step
(R51, R219). -/
def Obligations.ProducerIgnoresTheConsumer : Prop :=
  ∀ (isa : Isa) (s : State) (c : Consumer) (es : List Event) (ok : Bool),
    runMove isa (.producer es ok) { s with cons := c } =
      match runMove isa (.producer es ok) s with
      | .next t => .next { t with cons := c }
      | .fault f => .fault f
      | .refused why => .refused why

/-- The consumer neither reads nor writes the producer's state, port P, the mailbox or the frame buffer: those reach
it only through its port (R80, R170). -/
def Obligations.ConsumerReachesSharedStateOnlyByItsPort : Prop :=
  ∀ (isa : Isa) (s t : State), runMove isa .consumer s = .next t →
    t.cfg = s.cfg ∧ t.prod = s.prod ∧ t.host = s.host ∧
    t.block = { s.block with cPort := t.block.cPort } ∧
    ∀ (b : Block) (p : Producer), b.cPort = s.block.cPort → b.cFault = s.block.cFault →
      runMove isa .consumer { s with block := b, prod := p } =
        .next { t with block := { b with cPort := t.block.cPort }, prod := p }

/-- A consumer that has ended takes no step and keeps its end, while the producer and port P go on: their steps are
the ones they would take with any other consumer, a running one too (R219). -/
def Obligations.ConsumerEndStopsTheConsumerAlone : Prop :=
  ∀ (isa : Isa) (s : State), s.cons.run ≠ .running →
    runMove isa .consumer s = .next s ∧
    (∀ m t, m ≠ .consumer → runMove isa m s = .next t → t.cons.run = s.cons.run) ∧
    (∀ (m : Move) (c : Consumer), (m = .perform .p ∨ ∃ es ok, m = .producer es ok) →
      runMove isa m s =
        match runMove isa m { s with cons := c } with
        | .next t => .next { t with cons := s.cons }
        | .fault f => .fault f
        | .refused why => .refused why)

/-- A FAULT on port P stops port P and the producer, and nothing of the consumer or port C (R175). A producer that is
stopped or shut down takes no more steps (R175, R174). -/
def Obligations.ProducerFaultStopsTheProducerAlone : Prop :=
  ∀ (isa : Isa) (s : State) (es : List Event) (ok : Bool) (r : PRsp), s.cfg.pClient = .activity →
    s.prod.run = .running → s.block.pPort = .done r → r.st = .fault →
    (s.prod.phase = .snapshot ∨ (s.prod.phase = .input ∧ ∃ e rest, s.prod.todo = some (e :: rest))) →
    runMove isa (.producer es ok) s = .next { s with
      block := { s.block with pPort := .stopped }
      prod := { s.prod with last := some r, run := .stopped } } ∧
    ∀ u : State, u.prod.run ≠ .running → runMove isa (.producer es ok) u = .next u

/-! ## The invariant and reset -/

/-- Every step keeps the invariant (R23, R24, R27, R30, R32). -/
def Obligations.StepKeepsTheInvariant : Prop := ∀ s t : State, Invariant s → step s = .next t → Invariant t

/-- Reset meets the invariant, for every well-formed configuration and every image that fits it. -/
def Obligations.ResetMeetsTheInvariant : Prop :=
  Invariant State.reset ∧
  ∀ (k : Config) (b : Boot), k.wf = true → Memory.wf b.image = true → Memory.within k.memSize b.image = true →
    Invariant (State.resetOf k b)

/-- The reset state of every field of the spec (R231). The grid is FB_INIT at every pixel. -/
def Obligations.ResetLeavesTheStatedValues : Prop :=
  ∀ (k : Config) (b : Boot),
    let s := State.resetOf k b
    s.block.mbKind = .none ∧ s.block.mbCode.toNat < 2 ^ k.keyW ∧ s.block.mbOcc = false ∧
    Grid.shaped k.width k.height s.block.fb = true ∧
    (∀ x y, x < k.width → y < k.height → Grid.pixel s.block.fb x y = b.fbInit x y) ∧
    s.block.cPort = .idle ∧ s.block.pPort = .idle ∧ s.block.cFault = .none ∧ s.block.pFault = .none ∧
    s.block.gFb = none ∧ s.block.gMb = none ∧
    s.cons.pc = 0 ∧ s.cons.cpu = b.cpuInit ∧ s.cons.ie = b.ieReset ∧
    (∀ a, Memory.read s.cons.mem a = Memory.read b.image a) ∧ s.cons.kbd = b.kbdInit ∧
    s.cons.phase = .inputCheck ∧ s.cons.run = .running ∧
    s.prod.phase = .snapshot ∧ s.prod.lastSnap = none ∧ s.prod.run = .running
end

