-- ==== Sys2Proof/Laws/Decode.lean ====
section
/-! SUPPORT. The fields of a packed request word, and what a decoded operation says of its word. -/

namespace Sys2Proof

/-- Bit `j` of a packed C request (30_encoding.md R92). -/
theorem packC_getLsbD (addr : Addr) (data : Pixel) (y x : Coord) (ie : Bool) (op : BitVec 4) (j : Nat) :
    (packC addr data y x ie op).getLsbD j =
      if j < 4 then op.getLsbD j
      else if j < 5 then ie
      else if j < 8 then false
      else if j < 24 then x.getLsbD (j - 8)
      else if j < 40 then y.getLsbD (j - 24)
      else if j < 72 then data.getLsbD (j - 40)
      else addr.getLsbD (j - 72) := by
  have h : (packC addr data y x ie op).getLsbD j =
    BitVec.getLsbD (addr ++ data ++ y ++ x ++ 0#3 ++ BitVec.ofBool ie ++ op) j := rfl
  rw [h]
  simp only [BitVec.getLsbD_append]
  split_ifs <;> first | rfl | omega | (simp; done) | (obtain rfl : j = 4 := (by omega); simp)

/-- Bit `j` of a packed P request (30_encoding.md R92). -/
theorem packP_getLsbD (code : KeyCode) (kind : BitVec 2) (op : BitVec 4) (j : Nat) :
    (packP code kind op).getLsbD j =
      if j < 4 then op.getLsbD j
      else if j < 6 then kind.getLsbD (j - 4)
      else if j < 8 then false
      else code.getLsbD (j - 8) := by
  have h : (packP code kind op).getLsbD j = BitVec.getLsbD (code ++ 0#2 ++ kind ++ op) j := rfl
  rw [h]
  simp only [BitVec.getLsbD_append]
  split_ifs <;> first | rfl | omega | simp

/-- Every field of a packed C request reads back. -/
theorem packC_fields (addr : Addr) (data : Pixel) (y x : Coord) (ie : Bool) (op : BitVec 4) :
    (packC addr data y x ie op).extractLsb' 0 4 = op ∧
    (packC addr data y x ie op).extractLsb' 4 1 = BitVec.ofBool ie ∧
    (packC addr data y x ie op).extractLsb' 8 16 = x ∧
    (packC addr data y x ie op).extractLsb' 24 16 = y ∧
    (packC addr data y x ie op).extractLsb' 40 32 = data ∧
    (packC addr data y x ie op).extractLsb' 72 32 = addr := by
  refine ⟨?_, ?_, ?_, ?_, ?_, ?_⟩ <;> apply BitVec.eq_of_getLsbD_eq <;> intro i hi <;>
    rw [BitVec.getLsbD_extractLsb', packC_getLsbD] <;> simp only [hi, decide_true, Bool.true_and] <;>
    split_ifs <;> first | rfl | omega | (congr 1; omega) | (obtain rfl : i = 0 := (by omega); simp)

/-- Every field of a packed P request reads back. -/
theorem packP_fields (code : KeyCode) (kind : BitVec 2) (op : BitVec 4) :
    (packP code kind op).extractLsb' 0 4 = op ∧
    (packP code kind op).extractLsb' 4 2 = kind ∧
    (packP code kind op).extractLsb' 8 16 = code := by
  refine ⟨?_, ?_, ?_⟩ <;> apply BitVec.eq_of_getLsbD_eq <;> intro i hi <;>
    rw [BitVec.getLsbD_extractLsb', packP_getLsbD] <;> simp only [hi, decide_true, Bool.true_and] <;>
    split_ifs <;> first | rfl | omega | (congr 1; omega)

/-- The field value 1 of a kind field reads back, as every other does. -/
theorem kindOfBits_bits (k : KindField) : kindOfBits k.bits = k := by cases k <;> decide

/-- A decoded operation is one its port admits (30_encoding.md R85). -/
theorem decode_port {r : ReqWord} {i : Instr} (h : decode r = .ok i) : i.port = r.port := by
  cases r with
  | c w =>
    simp only [decode, decodeC] at h
    repeat' (split at h)
    all_goals (cases h <;> rfl)
  | p w =>
    simp only [decode, decodeP] at h
    repeat' (split at h)
    all_goals (cases h <;> rfl)

/-- A word decodes to IDLE exactly when its op is 0 (30_encoding.md R91 (c)). -/
theorem decode_isIdle_iff {r : ReqWord} {i : Instr} (h : decode r = .ok i) : i.isIdle = true ↔ r.op = 0 := by
  cases r with
  | c w =>
    simp only [decode, decodeC] at h
    simp only [ReqWord.op]
    repeat' (split at h)
    all_goals (cases h <;> simp_all [Instr.isIdle])
  | p w =>
    simp only [decode, decodeP] at h
    simp only [ReqWord.op]
    repeat' (split at h)
    all_goals (cases h <;> simp_all [Instr.isIdle])

/-- The word of an operation other than IDLE has an op other than 0. -/
theorem encode_op_ne {i : Instr} (h : i.isIdle = false) : (encode i).op ≠ 0 := by
  cases i with
  | idle _ => cases h
  | publish kind code => simp only [encode, ReqWord.op, (packP_fields code kind.bits 8).1]; decide
  | snapshot => decide
  | take ie => simp only [encode, ReqWord.op, (packC_fields 0 0 0 0 ie 1).1]; decide
  | set x y data => simp only [encode, ReqWord.op, (packC_fields 0 data y x false 2).1]; decide
  | get x y => simp only [encode, ReqWord.op, (packC_fields 0 0 y x false 3).1]; decide
  | vstore addr data => simp only [encode, ReqWord.op, (packC_fields addr data 0 0 false 4).1]; decide

/-- Op 0 decodes to IDLE on either port. -/
theorem decode_of_op_zero {r : ReqWord} (h : r.op = 0) : decode r = .ok (.idle r.port) := by
  cases r <;> simp_all [ReqWord.op, decode, decodeC, decodeP, ReqWord.port]

end Sys2Proof
end

