-- ==== Sys2Proof/Laws/State.lean ====
section
/-! SUPPORT. One lemma per field per update: what each named update of the state leaves in each field. -/

namespace Sys2Proof.Machine

open Sys2Proof

/-! ### respondC -/

@[simp] theorem respondC_mbKind (b : Block) (r : CRsp) : (respondC b r).mbKind = b.mbKind := rfl
@[simp] theorem respondC_mbCode (b : Block) (r : CRsp) : (respondC b r).mbCode = b.mbCode := rfl
@[simp] theorem respondC_mbOcc (b : Block) (r : CRsp) : (respondC b r).mbOcc = b.mbOcc := rfl
@[simp] theorem respondC_fb (b : Block) (r : CRsp) : (respondC b r).fb = b.fb := rfl
@[simp] theorem respondC_cPort (b : Block) (r : CRsp) : (respondC b r).cPort = .done r := rfl
@[simp] theorem respondC_pPort (b : Block) (r : CRsp) : (respondC b r).pPort = b.pPort := rfl
@[simp] theorem respondC_cFault (b : Block) (r : CRsp) : (respondC b r).cFault = b.cFault := rfl
@[simp] theorem respondC_pFault (b : Block) (r : CRsp) : (respondC b r).pFault = b.pFault := rfl
@[simp] theorem respondC_gFb (b : Block) (r : CRsp) : (respondC b r).gFb = b.gFb := rfl
@[simp] theorem respondC_gMb (b : Block) (r : CRsp) : (respondC b r).gMb = b.gMb := rfl

/-! ### respondP -/

@[simp] theorem respondP_mbKind (b : Block) (r : PRsp) : (respondP b r).mbKind = b.mbKind := rfl
@[simp] theorem respondP_mbCode (b : Block) (r : PRsp) : (respondP b r).mbCode = b.mbCode := rfl
@[simp] theorem respondP_mbOcc (b : Block) (r : PRsp) : (respondP b r).mbOcc = b.mbOcc := rfl
@[simp] theorem respondP_fb (b : Block) (r : PRsp) : (respondP b r).fb = b.fb := rfl
@[simp] theorem respondP_cPort (b : Block) (r : PRsp) : (respondP b r).cPort = b.cPort := rfl
@[simp] theorem respondP_pPort (b : Block) (r : PRsp) : (respondP b r).pPort = .done r := rfl
@[simp] theorem respondP_cFault (b : Block) (r : PRsp) : (respondP b r).cFault = b.cFault := rfl
@[simp] theorem respondP_pFault (b : Block) (r : PRsp) : (respondP b r).pFault = b.pFault := rfl
@[simp] theorem respondP_gFb (b : Block) (r : PRsp) : (respondP b r).gFb = b.gFb := rfl
@[simp] theorem respondP_gMb (b : Block) (r : PRsp) : (respondP b r).gMb = b.gMb := rfl

/-! ### raiseFault on port C -/

@[simp] theorem raiseFault_c_mbKind (k : Config) (f : Cause) (b : Block) : (raiseFault k .c f b).mbKind = b.mbKind := rfl
@[simp] theorem raiseFault_c_mbCode (k : Config) (f : Cause) (b : Block) : (raiseFault k .c f b).mbCode = b.mbCode := rfl
@[simp] theorem raiseFault_c_mbOcc (k : Config) (f : Cause) (b : Block) : (raiseFault k .c f b).mbOcc = b.mbOcc := rfl
@[simp] theorem raiseFault_c_fb (k : Config) (f : Cause) (b : Block) : (raiseFault k .c f b).fb = b.fb := rfl
@[simp] theorem raiseFault_c_cPort (k : Config) (f : Cause) (b : Block) : (raiseFault k .c f b).cPort = .done (plainC .fault) := rfl
@[simp] theorem raiseFault_c_pPort (k : Config) (f : Cause) (b : Block) : (raiseFault k .c f b).pPort = b.pPort := rfl
@[simp] theorem raiseFault_c_cFault (k : Config) (f : Cause) (b : Block) : (raiseFault k .c f b).cFault = f := rfl
@[simp] theorem raiseFault_c_pFault (k : Config) (f : Cause) (b : Block) : (raiseFault k .c f b).pFault = b.pFault := rfl
@[simp] theorem raiseFault_c_gFb (k : Config) (f : Cause) (b : Block) : (raiseFault k .c f b).gFb = b.gFb := rfl
@[simp] theorem raiseFault_c_gMb (k : Config) (f : Cause) (b : Block) : (raiseFault k .c f b).gMb = b.gMb := rfl

/-! ### raiseFault on port P -/

@[simp] theorem raiseFault_p_mbKind (k : Config) (f : Cause) (b : Block) : (raiseFault k .p f b).mbKind = b.mbKind := rfl
@[simp] theorem raiseFault_p_mbCode (k : Config) (f : Cause) (b : Block) : (raiseFault k .p f b).mbCode = b.mbCode := rfl
@[simp] theorem raiseFault_p_mbOcc (k : Config) (f : Cause) (b : Block) : (raiseFault k .p f b).mbOcc = b.mbOcc := rfl
@[simp] theorem raiseFault_p_fb (k : Config) (f : Cause) (b : Block) : (raiseFault k .p f b).fb = b.fb := rfl
@[simp] theorem raiseFault_p_cPort (k : Config) (f : Cause) (b : Block) : (raiseFault k .p f b).cPort = b.cPort := rfl
@[simp] theorem raiseFault_p_pPort (k : Config) (f : Cause) (b : Block) : (raiseFault k .p f b).pPort = .done (plainP k .fault) := rfl
@[simp] theorem raiseFault_p_cFault (k : Config) (f : Cause) (b : Block) : (raiseFault k .p f b).cFault = b.cFault := rfl
@[simp] theorem raiseFault_p_pFault (k : Config) (f : Cause) (b : Block) : (raiseFault k .p f b).pFault = f := rfl
@[simp] theorem raiseFault_p_gFb (k : Config) (f : Cause) (b : Block) : (raiseFault k .p f b).gFb = b.gFb := rfl
@[simp] theorem raiseFault_p_gMb (k : Config) (f : Cause) (b : Block) : (raiseFault k .p f b).gMb = b.gMb := rfl

/-! ### setPending on port C -/

@[simp] theorem setPending_c_mbKind (b : Block) (w : BitVec 104) : (setPending b (.c w)).mbKind = b.mbKind := rfl
@[simp] theorem setPending_c_mbCode (b : Block) (w : BitVec 104) : (setPending b (.c w)).mbCode = b.mbCode := rfl
@[simp] theorem setPending_c_mbOcc (b : Block) (w : BitVec 104) : (setPending b (.c w)).mbOcc = b.mbOcc := rfl
@[simp] theorem setPending_c_fb (b : Block) (w : BitVec 104) : (setPending b (.c w)).fb = b.fb := rfl
@[simp] theorem setPending_c_cPort (b : Block) (w : BitVec 104) : (setPending b (.c w)).cPort = .pending w := rfl
@[simp] theorem setPending_c_pPort (b : Block) (w : BitVec 104) : (setPending b (.c w)).pPort = b.pPort := rfl
@[simp] theorem setPending_c_cFault (b : Block) (w : BitVec 104) : (setPending b (.c w)).cFault = b.cFault := rfl
@[simp] theorem setPending_c_pFault (b : Block) (w : BitVec 104) : (setPending b (.c w)).pFault = b.pFault := rfl
@[simp] theorem setPending_c_gFb (b : Block) (w : BitVec 104) : (setPending b (.c w)).gFb = b.gFb := rfl
@[simp] theorem setPending_c_gMb (b : Block) (w : BitVec 104) : (setPending b (.c w)).gMb = b.gMb := rfl

/-! ### setPending on port P -/

@[simp] theorem setPending_p_mbKind (b : Block) (w : BitVec 24) : (setPending b (.p w)).mbKind = b.mbKind := rfl
@[simp] theorem setPending_p_mbCode (b : Block) (w : BitVec 24) : (setPending b (.p w)).mbCode = b.mbCode := rfl
@[simp] theorem setPending_p_mbOcc (b : Block) (w : BitVec 24) : (setPending b (.p w)).mbOcc = b.mbOcc := rfl
@[simp] theorem setPending_p_fb (b : Block) (w : BitVec 24) : (setPending b (.p w)).fb = b.fb := rfl
@[simp] theorem setPending_p_cPort (b : Block) (w : BitVec 24) : (setPending b (.p w)).cPort = b.cPort := rfl
@[simp] theorem setPending_p_pPort (b : Block) (w : BitVec 24) : (setPending b (.p w)).pPort = .pending w := rfl
@[simp] theorem setPending_p_cFault (b : Block) (w : BitVec 24) : (setPending b (.p w)).cFault = b.cFault := rfl
@[simp] theorem setPending_p_pFault (b : Block) (w : BitVec 24) : (setPending b (.p w)).pFault = b.pFault := rfl
@[simp] theorem setPending_p_gFb (b : Block) (w : BitVec 24) : (setPending b (.p w)).gFb = b.gFb := rfl
@[simp] theorem setPending_p_gMb (b : Block) (w : BitVec 24) : (setPending b (.p w)).gMb = b.gMb := rfl

/-! ### retireC and retireP -/

@[simp] theorem retireC_cfg (r : CRsp) (s : State) : (retireC r s).cfg = s.cfg := rfl
@[simp] theorem retireC_prod (r : CRsp) (s : State) : (retireC r s).prod = s.prod := rfl
@[simp] theorem retireC_host (r : CRsp) (s : State) : (retireC r s).host = s.host := rfl
@[simp] theorem retireC_block (r : CRsp) (s : State) :
    (retireC r s).block = { s.block with cPort := if r.st = .fault then .stopped else .idle } := rfl
@[simp] theorem retireC_cons (r : CRsp) (s : State) :
    (retireC r s).cons = { s.cons with last := some r, run := crunAfter r.st s.block.cFault s.cons.run } := rfl
@[simp] theorem retireP_cfg (r : PRsp) (s : State) : (retireP r s).cfg = s.cfg := rfl
@[simp] theorem retireP_cons (r : PRsp) (s : State) : (retireP r s).cons = s.cons := rfl
@[simp] theorem retireP_host (r : PRsp) (s : State) : (retireP r s).host = s.host := rfl
@[simp] theorem retireP_block (r : PRsp) (s : State) :
    (retireP r s).block = { s.block with pPort := if r.st = .fault then .stopped else .idle } := rfl
@[simp] theorem retireP_prod (r : PRsp) (s : State) :
    (retireP r s).prod = { s.prod with last := some r, run := prunAfter r.st s.prod.run } := rfl

/-! ### crunAfter and prunAfter -/

@[simp] theorem crunAfter_fault (f : Cause) : crunAfter .fault f .running = .fatal (.block f) := rfl
@[simp] theorem crunAfter_ok (f : Cause) (run : CRun) : crunAfter .ok f run = run := rfl
@[simp] theorem crunAfter_noEvent (f : Cause) (run : CRun) : crunAfter .noEvent f run = run := rfl
@[simp] theorem crunAfter_event (f : Cause) (run : CRun) : crunAfter .event f run = run := rfl
@[simp] theorem crunAfter_notVram (f : Cause) (run : CRun) : crunAfter .notVram f run = run := rfl
theorem crunAfter_of_ne {st : Status} (h : st ≠ .fault) (f : Cause) (run : CRun) : crunAfter st f run = run := by
  simp [crunAfter, h]
theorem crunAfter_ended {run : CRun} (h : run ≠ .running) (st : Status) (f : Cause) : crunAfter st f run = run := by
  simp [crunAfter, h]
/-- No agent runs after the retire of a FAULT. -/
theorem crunAfter_fault_ne (f : Cause) (run : CRun) : crunAfter .fault f run ≠ .running := by
  unfold crunAfter
  split
  · simp
  · rename_i h; simpa using h
/-- A retire never gives the end of a shutdown. -/
theorem crunAfter_ne_shutdown {run : CRun} (h : run ≠ .shutdown) (st : Status) (f : Cause) :
    crunAfter st f run ≠ .shutdown := by
  unfold crunAfter
  split
  · simp
  · exact h
@[simp] theorem prunAfter_fault : prunAfter .fault .running = .stopped := rfl
@[simp] theorem prunAfter_ok (run : PRun) : prunAfter .ok run = run := rfl
theorem prunAfter_of_ne {st : Status} (h : st ≠ .fault) (run : PRun) : prunAfter st run = run := by simp [prunAfter, h]
theorem prunAfter_ended {run : PRun} (h : run ≠ .running) (st : Status) : prunAfter st run = run := by
  simp [prunAfter, h]
/-- No agent runs after the retire of a FAULT. -/
theorem prunAfter_fault_ne (run : PRun) : prunAfter .fault run ≠ .running := by
  unfold prunAfter
  split
  · simp
  · rename_i h; simpa using h

/-- A retire never gives the end of a shutdown. -/
theorem prunAfter_ne_shutdown {run : PRun} (h : run ≠ .shutdown) (st : Status) : prunAfter st run ≠ .shutdown := by
  unfold prunAfter
  split
  · simp
  · exact h

end Sys2Proof.Machine
end

