-- ==== Sys2Proof/Laws/Ops.lean ====
section
/-! SUPPORT. One specification lemma for each shared operation: the image, the grid, the VRAM decode, the grants, the
perform step and the issue step. -/

namespace Sys2Proof

/-! ### The memory image -/

theorem Memory.wfFrom_mono {lo lo' : Nat} {m : Memory} (h : Memory.wfFrom lo m = true) (hl : lo' ≤ lo) :
    Memory.wfFrom lo' m = true := by
  cases m with
  | nil => rfl
  | cons c m =>
    simp only [Memory.wfFrom, Bool.and_eq_true, decide_eq_true_eq] at h ⊢
    exact ⟨⟨by omega, h.1.2⟩, h.2⟩

theorem Memory.read_below {lo a : Nat} {m : Memory} (h : Memory.wfFrom lo m = true) (ha : a < lo) :
    Memory.read m a = Memory.blank := by
  induction m generalizing lo with
  | nil => rfl
  | cons c m ih =>
    simp only [Memory.wfFrom, Bool.and_eq_true, decide_eq_true_eq] at h
    simp only [Memory.read]
    rw [if_neg (by omega)]
    exact ih h.2 (by omega)

theorem Memory.wfFrom_write {lo : Nat} {m : Memory} (h : Memory.wfFrom lo m = true) {a : Nat} (ha : lo ≤ a) (b : Byte) :
    Memory.wfFrom lo (Memory.write m a b) = true := by
  induction m generalizing lo with
  | nil => by_cases hb : b = Memory.blank <;> simp [Memory.write, Memory.wfFrom, hb, ha]
  | cons c m ih =>
    obtain ⟨k, v⟩ := c
    simp only [Memory.wfFrom, Bool.and_eq_true, decide_eq_true_eq] at h
    obtain ⟨⟨h1, h2⟩, h3⟩ := h
    simp only [Memory.write]
    split
    · split
      · simp [Memory.wfFrom, h1, h2, h3]
      · rename_i hak hb
        simp [Memory.wfFrom, hb, ha, h2, h3]
        omega
    · split
      · subst_vars
        split
        · exact Memory.wfFrom_mono h3 (by omega)
        · simp [Memory.wfFrom, *]
      · simp only [Memory.wfFrom, Bool.and_eq_true, decide_eq_true_eq]
        exact ⟨⟨h1, h2⟩, ih h3 (by omega)⟩

/-- A write keeps the canonical form. -/
theorem Memory.wf_write {m : Memory} (h : Memory.wf m = true) (a : Nat) (b : Byte) :
    Memory.wf (Memory.write m a b) = true :=
  Memory.wfFrom_write h (Nat.zero_le a) b

theorem Memory.read_write_from {lo : Nat} {m : Memory} (h : Memory.wfFrom lo m = true) (a : Nat) (b : Byte) (x : Nat) :
    Memory.read (Memory.write m a b) x = if x = a then b else Memory.read m x := by
  induction m generalizing lo with
  | nil =>
    by_cases hb : b = Memory.blank <;> by_cases hx : a = x <;>
      simp [Memory.write, Memory.read, hb, hx, eq_comm (a := x)]
  | cons c m ih =>
    obtain ⟨k, v⟩ := c
    simp only [Memory.wfFrom, Bool.and_eq_true, decide_eq_true_eq] at h
    have hr := fun y hy => Memory.read_below (a := y) h.2 hy
    by_cases hx : x = a
    · subst hx
      rcases Nat.lt_trichotomy x k with hlt | rfl | hgt
      · by_cases hb : b = Memory.blank
        · simp [Memory.write, Memory.read, hlt, hb, show k ≠ x by omega, hr x (by omega)]
        · simp [Memory.write, Memory.read, hlt, hb]
      · by_cases hb : b = Memory.blank
        · simp [Memory.write, hb, hr x (by omega)]
        · simp [Memory.write, Memory.read, hb]
      · simp [Memory.write, Memory.read, show ¬ x < k by omega, show x ≠ k by omega, show k ≠ x by omega, ih h.2]
    · have hx' : a ≠ x := fun e => hx e.symm
      rcases Nat.lt_trichotomy a k with hlt | rfl | hgt
      · by_cases hb : b = Memory.blank <;> simp [Memory.write, Memory.read, hlt, hb, hx, hx']
      · by_cases hb : b = Memory.blank <;> simp [Memory.write, Memory.read, hb, hx, hx']
      · simp [Memory.write, Memory.read, show ¬ a < k by omega, show a ≠ k by omega, ih h.2, hx]

/-- A read after a write gives the byte written at its address and the old byte everywhere else. -/
theorem Memory.read_write {m : Memory} (h : Memory.wf m = true) (a : Nat) (b : Byte) (x : Nat) :
    Memory.read (Memory.write m a b) x = if x = a then b else Memory.read m x :=
  Memory.read_write_from h a b x

theorem Memory.within_write {n : Nat} {m : Memory} (h : Memory.within n m = true) {a : Nat} (ha : a < n) (b : Byte) :
    Memory.within n (Memory.write m a b) = true := by
  induction m with
  | nil => by_cases hb : b = Memory.blank <;> simp [Memory.write, Memory.within, hb, ha]
  | cons c m ih =>
    obtain ⟨k, v⟩ := c
    simp only [Memory.within, List.all_cons, Bool.and_eq_true, decide_eq_true_eq] at h ih ⊢
    simp only [Memory.write]
    split
    · split <;> simp [ha, h.1, h.2]
    · split
      · split
        · exact h.2
        · simp [ha, h.2]
      · simp [h.1, ih h.2]

/-- Writing bytes keeps the canonical form. -/
theorem Memory.wf_writeAll {m : Memory} (h : Memory.wf m = true) (a : Nat) (bs : List Byte) :
    Memory.wf (Memory.writeAll m a bs) = true := by
  induction bs generalizing m a with
  | nil => exact h
  | cons b bs ih => exact ih (Memory.wf_write h a b) (a + 1)

/-- Writing bytes inside the image lists no address outside it. -/
theorem Memory.within_writeAll {n : Nat} {m : Memory} (h : Memory.within n m = true) {a : Nat} {bs : List Byte}
    (ha : a + bs.length ≤ n) : Memory.within n (Memory.writeAll m a bs) = true := by
  induction bs generalizing m a with
  | nil => exact h
  | cons b bs ih =>
    simp only [List.length_cons] at ha
    exact ih (Memory.within_write h (by omega) b) (by omega)

/-- A write leaves the byte at every other address, whatever the list. -/
theorem Memory.read_write_other (m : Memory) {a x : Nat} (b : Byte) (hx : x ≠ a) :
    Memory.read (Memory.write m a b) x = Memory.read m x := by
  induction m with
  | nil => by_cases hb : b = Memory.blank <;> simp [Memory.write, Memory.read, hb, Ne.symm hx]
  | cons c m ih =>
    obtain ⟨k, v⟩ := c
    simp only [Memory.write]
    split
    · split <;> simp [Memory.read, Ne.symm hx]
    · split
      · rename_i hk
        have hk' : k ≠ x := by omega
        split <;> simp [Memory.read, Ne.symm hx, hk']
      · simp [Memory.read, ih]

/-- Writing bytes leaves every byte before them and after them. -/
theorem Memory.read_writeAll_outside (m : Memory) {a x : Nat} {bs : List Byte} (hx : x < a ∨ a + bs.length ≤ x) :
    Memory.read (Memory.writeAll m a bs) x = Memory.read m x := by
  induction bs generalizing m a with
  | nil => rfl
  | cons b bs ih =>
    simp only [List.length_cons] at hx
    simp only [Memory.writeAll]
    rw [ih _ (by omega), Memory.read_write_other _ _ (by omega)]

/-- A store lays out as many bytes as it has. -/
theorem Memory.storeBytes_length (place : Nat → Nat) (v n : Nat) : (Memory.storeBytes place v n).length = n := by
  induction n with
  | zero => rfl
  | succ k ih =>
    rw [Memory.storeBytes, List.length_insertIdx_of_le_length (by rw [ih]; exact Nat.le_of_lt_succ (Nat.mod_lt _ (by omega))), ih]

/-- A store lays out exactly the bytes of its value, each once. -/
theorem Memory.storeBytes_perm (place : Nat → Nat) (v n : Nat) :
    (Memory.storeBytes place v n).Perm ((List.range n).map (Memory.byteOf v)) := by
  induction n with
  | zero => exact .refl _
  | succ k ih =>
    rw [Memory.storeBytes, List.range_succ, List.map_append]
    have hle : place k % (k + 1) ≤ (Memory.storeBytes place v k).length := by
      rw [Memory.storeBytes_length]; exact Nat.le_of_lt_succ (Nat.mod_lt _ (by omega))
    exact (List.perm_insertIdx _ _ hle).trans ((ih.cons _).trans (List.perm_append_singleton _ _).symm)

/-! ### The grid -/

theorem Grid.pixel_put_other (g : Grid) {x y x' y' : Nat} (c : Pixel) (h : (x', y') ≠ (x, y)) :
    Grid.pixel (Grid.put g x y c) x' y' = Grid.pixel g x' y' := by
  unfold Grid.pixel Grid.put
  simp only [List.getD_eq_getElem?_getD, List.getElem?_set]
  by_cases hy : y = y'
  · subst hy
    have hx : x ≠ x' := fun e => h (by rw [e])
    simp only [if_true]
    by_cases hl : y < g.length
    · simp only [hl, if_true, Option.getD_some, List.getElem?_set, if_neg hx]
    · simp [hl]
  · simp [hy]

theorem Grid.pixel_put_same {w h : Nat} {g : Grid} (hg : Grid.shaped w h g = true) {x y : Nat} (hx : x < w) (hy : y < h)
    (c : Pixel) : Grid.pixel (Grid.put g x y c) x y = c := by
  simp only [Grid.shaped, Bool.and_eq_true, decide_eq_true_eq, List.all_eq_true] at hg
  have hl : y < g.length := by omega
  have hrow := hg.2 g[y] (List.getElem_mem hl)
  unfold Grid.pixel Grid.put
  simp [hl, hrow, hx]

theorem Grid.shaped_put {w h : Nat} {g : Grid} (hg : Grid.shaped w h g = true) (x y : Nat) (c : Pixel) :
    Grid.shaped w h (Grid.put g x y c) = true := by
  simp only [Grid.shaped, Bool.and_eq_true, decide_eq_true_eq, List.all_eq_true] at hg ⊢
  unfold Grid.put
  refine ⟨by simpa using hg.1, fun row hr => ?_⟩
  by_cases hl : y < g.length
  · rcases List.mem_or_eq_of_mem_set hr with hr | rfl
    · exact hg.2 row hr
    · have := hg.2 g[y] (List.getElem_mem hl)
      simpa [hl] using this
  · rw [List.set_eq_of_length_le (by omega)] at hr
    exact hg.2 row hr

end Sys2Proof

namespace Sys2Proof.Machine

open Sys2Proof

theorem gridOf_shaped (w h : Nat) (f : Nat → Nat → Pixel) : Grid.shaped w h (gridOf w h f) = true := by
  simp [Grid.shaped, gridOf]

theorem gridOf_pixel {w h x y : Nat} (f : Nat → Nat → Pixel) (hx : x < w) (hy : y < h) :
    Grid.pixel (gridOf w h f) x y = f x y := by
  simp [Grid.pixel, gridOf, hx, hy]

/-! ### The ports and their agents -/

@[simp] theorem isIdlePort_c {b : Block} : isIdlePort b .c = true ↔ b.cPort = .idle := decide_eq_true_iff
@[simp] theorem isIdlePort_p {b : Block} : isIdlePort b .p = true ↔ b.pPort = .idle := decide_eq_true_iff
@[simp] theorem isIdlePort_c_false {b : Block} : isIdlePort b .c = false ↔ b.cPort ≠ .idle := decide_eq_false_iff_not
@[simp] theorem isIdlePort_p_false {b : Block} : isIdlePort b .p = false ↔ b.pPort ≠ .idle := decide_eq_false_iff_not
@[simp] theorem isStopped_c {b : Block} : isStopped b .c = true ↔ b.cPort = .stopped := decide_eq_true_iff
@[simp] theorem isStopped_p {b : Block} : isStopped b .p = true ↔ b.pPort = .stopped := decide_eq_true_iff
@[simp] theorem agentRunning_c {s : State} : agentRunning s .c = true ↔ s.cons.run = .running := decide_eq_true_iff
@[simp] theorem agentRunning_p {s : State} : agentRunning s .p = true ↔ s.prod.run = .running := decide_eq_true_iff
@[simp] theorem agentRunning_c_false {s : State} : agentRunning s .c = false ↔ s.cons.run ≠ .running :=
  decide_eq_false_iff_not
@[simp] theorem agentRunning_p_false {s : State} : agentRunning s .p = false ↔ s.prod.run ≠ .running :=
  decide_eq_false_iff_not
@[simp] theorem agentWaits_c {s : State} : agentWaits s .c = consumerWaits s.cons := rfl
@[simp] theorem agentWaits_p {s : State} : agentWaits s .p = producerWaits s.prod := rfl
@[simp] theorem clientOf_c {k : Config} : clientOf k .c = k.cClient := rfl
@[simp] theorem clientOf_p {k : Config} : clientOf k .p = k.pClient := rfl

/-! ### Key codes -/

/-- A cut code has KEY_W bits. -/
theorem cutCode_lt (k : Config) (code : KeyCode) : (cutCode k code).toNat < 2 ^ k.keyW := by
  simp only [cutCode, BitVec.toNat_ofNat]
  exact lt_of_le_of_lt (Nat.mod_le _ _) (Nat.mod_lt _ (by positivity))

/-- A code of KEY_W bits is not changed by the cut. -/
theorem cutCode_of_lt {k : Config} {code : KeyCode} (h : code.toNat < 2 ^ k.keyW) : cutCode k code = code := by
  simp [cutCode, Nat.mod_eq_of_lt h]

/-! ### The configuration and the VRAM decode -/

/-- The bounds a well-formed configuration gives. -/
theorem Config.wf_bounds {k : Config} (h : k.wf = true) :
    (1 ≤ k.width ∧ k.width ≤ 65536 ∧ 1 ≤ k.height ∧ k.height ≤ 65536) ∧
    (1 ≤ k.pixelBytes ∧ k.pixelBytes ≤ k.vramStride) ∧
    (k.vramBase + k.vramStride * k.height ≤ k.memSize) ∧
    (1 ≤ k.addrW ∧ k.addrW ≤ 32 ∧ 1 ≤ k.memSize ∧ k.memSize ≤ 2 ^ k.addrW) ∧
    (1 ≤ k.vecBytes ∧ k.vectorAddr + k.vecBytes ≤ k.memSize) ∧ k.pixelBytes = 4 ∧ (3 ≤ k.keyW ∧ k.keyW ≤ 16) := by
  simp only [Config.wf, Config.fbSizeOk, Config.pixelOk, Config.vramInImage, Config.addrOk, Config.vectorInImage,
    Config.pixelBytesOk, Config.keyWidthOk, Bool.and_eq_true, decide_eq_true_eq] at h
  tauto

theorem inVram_iff {k : Config} {a : Nat} :
    inVram k a = true ↔ k.vramBase ≤ a ∧ a < k.vramBase + k.vramStride * k.height := by
  rw [inVram, Bool.and_eq_true, decide_eq_true_iff, decide_eq_true_iff, vramHi]

/-- Bytes meet the VRAM range exactly when one of them is in it. -/
theorem meetsVram_iff {k : Config} {lo hi : Nat} :
    meetsVram k lo hi = true ↔ ∃ a, lo ≤ a ∧ a < hi ∧ inVram k a = true := by
  rw [meetsVram, decide_eq_true_iff]
  simp only [inVram_iff, vramHi]
  constructor
  · intro h
    exact ⟨max lo k.vramBase, by omega, by omega, by omega, by omega⟩
  · rintro ⟨a, h1, h2, h3, h4⟩
    omega

/-- The decode gives a pixel exactly for an aligned address of the range whose column is on the grid. -/
theorem vramMap_pixel_iff (k : Config) (a x y : Nat) :
    vramMap k a = .pixel x y ↔
      inVram k a = true ∧ (a - k.vramBase) % k.vramStride % k.pixelBytes = 0 ∧
        x = (a - k.vramBase) % k.vramStride / k.pixelBytes ∧ y = (a - k.vramBase) / k.vramStride ∧
        x < k.width ∧ y < k.height := by
  unfold vramMap
  split
  · simp only
    split
    · split
      · rename_i hv hr hf
        simp only [inFb, Bool.and_eq_true, decide_eq_true_eq] at hf
        constructor
        · intro e; injection e with e1 e2; subst e1 e2; exact ⟨hv, hr, rfl, rfl, hf⟩
        · rintro ⟨-, -, rfl, rfl, -⟩; rfl
      · rename_i hv hr hf
        constructor
        · intro e; cases e
        · rintro ⟨-, -, rfl, rfl, hx, hy⟩
          exact absurd (by simp [inFb, hx, hy]) hf
    · rename_i hv hr
      constructor
      · intro e; cases e
      · rintro ⟨-, h, -⟩; exact absurd h hr
  · rename_i hv
    constructor
    · intro e; cases e
    · rintro ⟨h, -⟩; exact absurd h hv

theorem vramMap_pixel_inFb {k : Config} {a x y : Nat} (h : vramMap k a = .pixel x y) : inFb k x y = true := by
  have := (vramMap_pixel_iff k a x y).1 h
  simp [inFb, this.2.2.2.2]

/-- The row of an address in the range is on the grid. -/
theorem inVram_row {k : Config} {a : Nat} (h : inVram k a = true) : (a - k.vramBase) / k.vramStride < k.height := by
  have := inVram_iff.1 h
  exact Nat.div_lt_of_lt_mul (by omega)

/-! ### Grants, the perform step, the issue step -/

theorem underFb_free {port : Port} {body : Block → Block} {b : Block} (h : b.gFb = none) :
    underFb port body b = { body { b with gFb := some port } with gFb := none } := by
  simp [underFb, h]

theorem underFb_held {port q : Port} {body : Block → Block} {b : Block} (h : b.gFb = some q) :
    underFb port body b = b := by
  simp [underFb, h]

theorem underMb_free {port : Port} {body : Block → Block} {b : Block} (h : b.gMb = none) :
    underMb port body b = { body { b with gMb := some port } with gMb := none } := by
  simp [underMb, h]

theorem underMb_held {port q : Port} {body : Block → Block} {b : Block} (h : b.gMb = some q) :
    underMb port body b = b := by
  simp [underMb, h]

/-- A pending request is one of its port. -/
theorem pendingReq_port {b : Block} {port : Port} {r : ReqWord} (h : pendingReq b port = some r) : r.port = port := by
  cases port <;> simp only [pendingReq] at h <;> split at h <;> cases h <;> rfl

/-- A port with a pending request is not `Idle`. -/
theorem pendingReq_not_idle {b : Block} {port : Port} {r : ReqWord} (h : pendingReq b port = some r) :
    isIdlePort b port = false := by
  cases port <;> simp only [pendingReq] at h <;> split at h <;> simp_all [isIdlePort]

/-- What is pending on a port depends on that port alone. -/
theorem pendingReq_congr {b b' : Block} (port : Port) (hc : port = .c → b'.cPort = b.cPort)
    (hp : port = .p → b'.pPort = b.pPort) : pendingReq b' port = pendingReq b port := by
  cases port
  · simp [pendingReq, hc rfl]
  · simp [pendingReq, hp rfl]

/-- A captured request is pending on its port. -/
theorem pendingReq_setPending (b : Block) (r : ReqWord) : pendingReq (setPending b r) r.port = some r := by
  cases r <;> rfl

/-- A perform answers a next state exactly where a request is pending, and its body gives the block. -/
theorem performOn_next_iff {port : Port} {body : Block → Block} {s t : State} :
    performOn port body s = .next t ↔ pendingReq s.block port ≠ none ∧ t = { s with block := body s.block } := by
  unfold performOn
  cases pendingReq s.block port <;> simp [eq_comm]

theorem performOn_of_pending {port : Port} {body : Block → Block} {s : State} (h : pendingReq s.block port ≠ none) :
    performOn port body s = .next { s with block := body s.block } :=
  performOn_next_iff.2 ⟨h, rfl⟩

/-- A perform is never refused. -/
theorem performOn_ne_refused {port : Port} {body : Block → Block} {s : State} {why : Refusal} :
    performOn port body s ≠ .refused why := by
  unfold performOn
  cases pendingReq s.block port <;> simp

/-- A perform faults exactly where no request is pending. -/
theorem performOn_fault_iff {port : Port} {body : Block → Block} {s : State} {f : Fault} :
    performOn port body s = .fault f ↔ pendingReq s.block port = none ∧ f = .notPending port := by
  unfold performOn
  cases pendingReq s.block port <;> simp [eq_comm]

/-- An issue either leaves the state, or captures a request an issue admits on an `Idle` port. -/
theorem issue_next {r : ReqWord} {s t : State} (h : issue r s = .next t) :
    (t = s ∧ (isIdlePort s.block r.port = false ∨ r.op = 0)) ∨
      (isIdlePort s.block r.port = true ∧ t = { s with block := setPending s.block r } ∧ Admitted s.cfg r) := by
  unfold issue at h
  split at h
  · rename_i hp
    split at h
    · rename_i hw
      injection h with h
      exact .inr ⟨hp.1, h.symm, hp.2, hw⟩
    · cases h
  · rename_i hp
    injection h with h
    refine .inl ⟨h.symm, ?_⟩
    cases hi : isIdlePort s.block r.port
    · exact .inl rfl
    · exact .inr (Classical.not_not.1 fun ho => hp ⟨hi, ho⟩)

/-- An issue is refused only for a field too wide, on an `Idle` port. -/
theorem issue_refused {r : ReqWord} {s : State} {why : Refusal} (h : issue r s = .refused why) :
    why = .fieldWidth ∧ isIdlePort s.block r.port = true ∧ r.op ≠ 0 ∧ widthOk s.cfg r = false := by
  unfold issue at h
  split at h
  · rename_i hp
    split at h
    · cases h
    · rename_i hw
      injection h with h
      exact ⟨h.symm, hp.1, hp.2, by simpa using hw⟩
  · cases h

/-- An issue captures a request it admits. -/
theorem issue_of_admitted {r : ReqWord} {s : State} (hi : isIdlePort s.block r.port = true) (ha : Admitted s.cfg r) :
    issue r s = .next { s with block := setPending s.block r } := by
  rw [issue, if_pos ⟨hi, ha.1⟩, if_pos ha.2]

/-- An issue of a field too wide is refused. -/
theorem issue_of_overWide {r : ReqWord} {s : State} (hi : isIdlePort s.block r.port = true) (ho : r.op ≠ 0)
    (hw : widthOk s.cfg r = false) : issue r s = .refused .fieldWidth := by
  rw [issue, if_pos ⟨hi, ho⟩, hw, if_neg (by simp)]

/-- An issue never faults. -/
theorem issue_ne_fault {r : ReqWord} {s : State} {f : Fault} : issue r s ≠ .fault f := by
  unfold issue
  split
  · split <;> simp
  · simp

/-- An admitted request that decodes is an operation other than IDLE within its widths. -/
theorem Admitted.op {k : Config} {r : ReqWord} {i : Instr} (h : Admitted k r) (hd : decode r = .ok i) :
    i.isIdle = false ∧ i.wf k = true := by
  refine ⟨?_, by simpa [widthOk, hd] using h.2⟩
  cases hi : i.isIdle
  · rfl
  · exact absurd ((decode_isIdle_iff hd).1 hi) h.1

end Sys2Proof.Machine
end

