-- ==== Sys2Proof/Laws/Exec.lean ====
section
/-! SUPPORT. What the body of each operation's perform leaves in each field of the block, and `exec` as one perform of
its body. -/

namespace Sys2Proof.Machine

open Sys2Proof

/-- The body of an operation's perform. -/
def bodyOf (k : Config) : Instr → Block → Block
  | .idle _ => id
  | .take ie => takeBody k ie
  | .set x y data => setBody k x y data
  | .get x y => getBody k x y
  | .vstore addr data => vstoreBody k addr data
  | .publish kind code => publishBody k kind code
  | .snapshot => snapshotBody

/-- Every operation but IDLE is the perform of its body on its port. -/
theorem exec_eq_performOn {i : Instr} (h : i.isIdle = false) (s : State) :
    exec i s = performOn i.port (bodyOf s.cfg i) s := by
  cases i <;> first | rfl | cases h

theorem exec_idle {i : Instr} (h : i.isIdle = true) (s : State) : exec i s = .next s := by
  cases i <;> first | rfl | cases h

/-- `exec` answers a next state in one of two ways. -/
theorem exec_next {i : Instr} {s t : State} (h : exec i s = .next t) :
    t = { s with block := bodyOf s.cfg i s.block } := by
  cases hi : i.isIdle
  · rw [exec_eq_performOn hi] at h
    exact (performOn_next_iff.1 h).2
  · rw [exec_idle hi] at h
    injection h with h
    subst h
    cases i <;> first | rfl | cases hi

theorem exec_of_pending {i : Instr} {s : State} (h : pendingReq s.block i.port ≠ none) :
    exec i s = .next { s with block := bodyOf s.cfg i s.block } := by
  cases hi : i.isIdle
  · rw [exec_eq_performOn hi]; exact performOn_of_pending h
  · rw [exec_idle hi]; cases i <;> first | rfl | cases hi

theorem exec_ne_refused {i : Instr} {s : State} {why : Refusal} : exec i s ≠ .refused why := by
  cases hi : i.isIdle
  · rw [exec_eq_performOn hi]; exact performOn_ne_refused
  · rw [exec_idle hi]; simp

/-- The frame buffer after a body: the pixel the operation writes, if `g_fb` is free. -/
theorem bodyOf_fb (k : Config) (i : Instr) (b : Block) :
    (bodyOf k i b).fb =
      match b.gFb, writtenPixel k i with
      | none, some (x, y, data) => Grid.put b.fb x y data
      | _, _ => b.fb := by
  cases i with
  | idle _ => cases h : b.gFb <;> simp [bodyOf, writtenPixel]
  | take ie => cases h : b.gFb <;> cases h' : b.gMb <;> cases ho : b.mbOcc <;> simp [bodyOf, writtenPixel, takeBody, underMb, h', ho]
  | set x y data =>
    cases h : b.gFb <;> by_cases hf : inFb k x.toNat y.toNat <;>
      simp [bodyOf, writtenPixel, setBody, putPixel, underFb, h, hf]
  | get x y => cases h : b.gFb <;> by_cases hf : inFb k x.toNat y.toNat <;> simp [bodyOf, writtenPixel, getBody, hf]
  | vstore a data =>
    cases h : b.gFb <;> cases hv : vramMap k a.toNat <;>
      simp [bodyOf, writtenPixel, vstoreBody, putPixel, underFb, h, hv]
  | publish kd code =>
    cases h : b.gFb <;> cases h' : b.gMb <;> cases kd <;>
      simp [bodyOf, writtenPixel, publishBody, postEvent, underMb, h']
  | snapshot => cases h : b.gFb <;> simp [bodyOf, writtenPixel, snapshotBody, underFb, h]

/-- Only a PUBLISH that posts writes the kind and the code. -/
theorem bodyOf_slot {k : Config} {i : Instr} (h : posts i = false) (b : Block) :
    (bodyOf k i b).mbKind = b.mbKind ∧ (bodyOf k i b).mbCode = b.mbCode := by
  cases i with
  | idle _ => exact ⟨rfl, rfl⟩
  | take ie => cases h' : b.gMb <;> cases ho : b.mbOcc <;> simp [bodyOf, takeBody, underMb, h', ho]
  | set x y data => cases h : b.gFb <;> by_cases hf : inFb k x.toNat y.toNat <;> simp [bodyOf, setBody, putPixel, underFb, h, hf]
  | get x y => by_cases hf : inFb k x.toNat y.toNat <;> simp [bodyOf, getBody, hf]
  | vstore a data => cases h : b.gFb <;> cases hv : vramMap k a.toNat <;> simp [bodyOf, vstoreBody, putPixel, underFb, h, hv]
  | publish kd code => cases kd <;> simp_all [bodyOf, publishBody, posts]
  | snapshot => cases h : b.gFb <;> simp [bodyOf, snapshotBody, underFb, h]

/-- Only a PUBLISH that posts and a TAKE write the flag. -/
theorem bodyOf_mbOcc {k : Config} {i : Instr} (h : posts i = false) (b : Block) :
    (bodyOf k i b).mbOcc = (b.mbOcc && !(isTake i && b.gMb.isNone)) := by
  cases i with
  | idle _ => simp [bodyOf, isTake]
  | take ie => cases h' : b.gMb <;> cases ho : b.mbOcc <;> simp [bodyOf, takeBody, underMb, isTake, h', ho]
  | set x y data => cases h : b.gFb <;> by_cases hf : inFb k x.toNat y.toNat <;> simp [bodyOf, setBody, putPixel, underFb, isTake, h, hf]
  | get x y => by_cases hf : inFb k x.toNat y.toNat <;> simp [bodyOf, getBody, isTake, hf]
  | vstore a data => cases h : b.gFb <;> cases hv : vramMap k a.toNat <;> simp [bodyOf, vstoreBody, putPixel, underFb, isTake, h, hv]
  | publish kd code => cases kd <;> simp_all [bodyOf, publishBody, posts, isTake]
  | snapshot => cases h : b.gFb <;> simp [bodyOf, snapshotBody, underFb, isTake, h]

/-- What a PUBLISH that posts leaves in the slot while `g_mb` is free. -/
theorem bodyOf_publish_free {k : Config} {e : Edge} {code : KeyCode} {b : Block} (h : b.gMb = none) :
    bodyOf k (.publish (edgeField e) code) b =
      { b with
        mbKind := (match e with | .pressed => .pressed | .released => .released)
        mbCode := code, mbOcc := true, pPort := .done (plainP k .ok) } := by
  cases e <;> simp [bodyOf, edgeField, publishBody, postEvent, underMb, h, respondP]

/-- Bodies give back the grants they find free. -/
theorem bodyOf_grants (k : Config) (i : Instr) (b : Block) :
    (b.gFb = none → (bodyOf k i b).gFb = none) ∧ (b.gMb = none → (bodyOf k i b).gMb = none) := by
  cases i with
  | idle _ => exact ⟨id, id⟩
  | take ie => cases h' : b.gMb <;> cases ho : b.mbOcc <;> simp [bodyOf, takeBody, underMb, h', ho]
  | set x y data => cases h : b.gFb <;> by_cases hf : inFb k x.toNat y.toNat <;> simp [bodyOf, setBody, putPixel, underFb, h, hf]
  | get x y => by_cases hf : inFb k x.toNat y.toNat <;> simp [bodyOf, getBody, hf]
  | vstore a data => cases h : b.gFb <;> cases hv : vramMap k a.toNat <;> simp [bodyOf, vstoreBody, putPixel, underFb, h, hv]
  | publish kd code => cases h' : b.gMb <;> cases kd <;> simp [bodyOf, publishBody, postEvent, underMb, h']
  | snapshot => cases h : b.gFb <;> simp [bodyOf, snapshotBody, underFb, h]

/-- A body leaves the other port and its fault register. -/
theorem bodyOf_otherPort (k : Config) (i : Instr) (b : Block) :
    (i.port = .c → (bodyOf k i b).pPort = b.pPort ∧ (bodyOf k i b).pFault = b.pFault) ∧
    (i.port = .p → (bodyOf k i b).cPort = b.cPort ∧ (bodyOf k i b).cFault = b.cFault) := by
  cases i with
  | idle _ => simp [bodyOf]
  | take ie => cases h' : b.gMb <;> cases ho : b.mbOcc <;> simp [bodyOf, takeBody, underMb, h', ho, Instr.port]
  | set x y data => cases h : b.gFb <;> by_cases hf : inFb k x.toNat y.toNat <;> simp [bodyOf, setBody, putPixel, underFb, h, hf, Instr.port]
  | get x y => by_cases hf : inFb k x.toNat y.toNat <;> simp [bodyOf, getBody, hf, Instr.port]
  | vstore a data => cases h : b.gFb <;> cases hv : vramMap k a.toNat <;> simp [bodyOf, vstoreBody, putPixel, underFb, h, hv, Instr.port]
  | publish kd code => cases h' : b.gMb <;> cases kd <;> simp [bodyOf, publishBody, postEvent, underMb, h', Instr.port]
  | snapshot => cases h : b.gFb <;> simp [bodyOf, snapshotBody, underFb, h, Instr.port]

/-- A body, with both grants free, answers its own port: FAULT with a cause, or another status with the fault register
as before. -/
theorem bodyOf_answers (k : Config) {i : Instr} (hi : i.isIdle = false) {b : Block} (hf : b.gFb = none)
    (hm : b.gMb = none) :
    ∃ st, answered (bodyOf k i b) i.port = some st ∧
      ((st = .fault ∧ ∃ cause, cause ≠ .none ∧ bodyOf k i b = raiseFault k i.port cause b) ∨
       (st ≠ .fault ∧ faultOf (bodyOf k i b) i.port = faultOf b i.port)) := by
  cases i with
  | idle _ => cases hi
  | take ie => cases ho : b.mbOcc <;> simp [bodyOf, takeBody, underMb, hm, ho, Instr.port, answered, faultOf, plainC, eventRsp]
  | set x y data =>
    by_cases h : inFb k x.toNat y.toNat
    · simp [bodyOf, setBody, putPixel, underFb, hf, h, Instr.port, answered, faultOf, plainC]
    · exact ⟨.fault, by simp [bodyOf, setBody, h, Instr.port, answered, plainC],
        .inl ⟨rfl, .fbBounds, by decide, by simp [bodyOf, setBody, h, Instr.port]⟩⟩
  | get x y =>
    by_cases h : inFb k x.toNat y.toNat
    · simp [bodyOf, getBody, h, Instr.port, answered, faultOf, plainC]
    · exact ⟨.fault, by simp [bodyOf, getBody, h, Instr.port, answered, plainC],
        .inl ⟨rfl, .fbBounds, by decide, by simp [bodyOf, getBody, h, Instr.port]⟩⟩
  | vstore a data =>
    cases hv : vramMap k a.toNat with
    | notVram => simp [bodyOf, vstoreBody, hv, Instr.port, answered, faultOf, plainC]
    | misaligned => exact ⟨.fault, by simp [bodyOf, vstoreBody, hv, Instr.port, answered, plainC],
        .inl ⟨rfl, .vramAlign, by decide, by simp [bodyOf, vstoreBody, hv, Instr.port]⟩⟩
    | outOfFb => exact ⟨.fault, by simp [bodyOf, vstoreBody, hv, Instr.port, answered, plainC],
        .inl ⟨rfl, .vramMap, by decide, by simp [bodyOf, vstoreBody, hv, Instr.port]⟩⟩
    | pixel x y => simp [bodyOf, vstoreBody, putPixel, underFb, hf, hv, Instr.port, answered, faultOf, plainC]
  | publish kd code =>
    cases kd with
    | pressed => simp [bodyOf, publishBody, postEvent, underMb, hm, Instr.port, answered, faultOf, plainP]
    | released => simp [bodyOf, publishBody, postEvent, underMb, hm, Instr.port, answered, faultOf, plainP]
    | none => exact ⟨.fault, by simp [bodyOf, publishBody, Instr.port, answered, plainP],
        .inl ⟨rfl, .badKind, by decide, by simp [bodyOf, publishBody, Instr.port]⟩⟩
    | reserved => exact ⟨.fault, by simp [bodyOf, publishBody, Instr.port, answered, plainP],
        .inl ⟨rfl, .badKind, by decide, by simp [bodyOf, publishBody, Instr.port]⟩⟩
  | snapshot => simp [bodyOf, snapshotBody, underFb, hf, Instr.port, answered, faultOf]

end Sys2Proof.Machine
end

