-- ==== Sys2Proof/Laws/Moves.lean ====
section
/-! SUPPORT. What one move can do, said once: every next state of `runMove` is one of the effects below. -/

namespace Sys2Proof.Machine

open Sys2Proof

/-- The ways a move can end in a next state. -/
inductive Effect (s : State) : Move → State → Prop where
  /-- nothing happens: no enabled step, an IDLE, a wait -/
  | stays (m : Move) : Effect s m s
  /-- the block performs a decoded operation -/
  | performs (port : Port) (r : ReqWord) (i : Instr) (hr : pendingReq s.block port = some r) (hd : decode r = .ok i)
      (hw : i.wf s.cfg = true) : Effect s (.perform port) { s with block := bodyOf s.cfg i s.block }
  /-- the block performs an illegal request -/
  | faultsBadOp (port : Port) (r : ReqWord) (e : DecodeError) (hr : pendingReq s.block port = some r)
      (hd : decode r = .error e) : Effect s (.perform port) { s with block := raiseFault s.cfg port .badOp s.block }
  /-- a free agent issues a request -/
  | issues (r : ReqWord) (hc : clientOf s.cfg r.port = .free) (hi : isIdlePort s.block r.port = true)
      (ha : Admitted s.cfg r) : Effect s (.present r) { s with block := setPending s.block r }
  /-- the consumer issues a request; an Execute applies the private effects with it -/
  | consumerIssues (w : BitVec 104) (cpu : CpuState) (ie : Bool) (hact : s.cfg.cClient = .activity)
      (hrun : s.cons.run = .running) (hw : consumerWaits s.cons = true) (hi : isIdlePort s.block .c = true)
      (ha : Admitted s.cfg (.c w)) :
      Effect s .consumer
        { s with block := setPending s.block (.c w), cons := { s.cons with cpu := cpu, ie := ie } }
  /-- the consumer retires a response -/
  | consumerRetires (rsp : CRsp) (c : Consumer) (hact : s.cfg.cClient = .activity) (hrun : s.cons.run = .running)
      (hw : consumerWaits s.cons = true) (hp : s.block.cPort = .done rsp) (hlast : c.last = some rsp)
      (hns : c.run ≠ .shutdown) (hf : rsp.st = .fault → c.run = .fatal (.block s.block.cFault))
      (hpc : s.cons.pc < s.cfg.memSize → c.pc < s.cfg.memSize)
      (hmem : c.mem = s.cons.mem ∨ ∃ r a n v nx bs, s.cons.phase = .execute ∧ s.cons.fetched = some r ∧
        r.action = .store a n v nx ∧ rsp.st = .notVram ∧ a.toNat + n ≤ s.cfg.memSize ∧ bs.length = n ∧
        c.mem = Memory.writeAll s.cons.mem a.toNat bs) :
      Effect s .consumer
        { s with
          block := { s.block with cPort := if rsp.st = .fault then .stopped else .idle }
          cons := c }
  /-- the consumer changes its private state alone -/
  | consumerMoves (c : Consumer) (hact : s.cfg.cClient = .activity) (hrun : s.cons.run = .running)
      (hw : consumerWaits s.cons = false)
      (hlast : c.last = s.cons.last) (hmem : c.mem = s.cons.mem) (hns : s.cons.checkDue = false → c.run ≠ .shutdown)
      (hpc : s.cons.pc < s.cfg.memSize → c.pc < s.cfg.memSize) : Effect s .consumer { s with cons := c }
  /-- the producer issues a request -/
  | producerIssues (es : List Event) (ok : Bool) (w : BitVec 24) (hact : s.cfg.pClient = .activity)
      (hrun : s.prod.run = .running) (hw : producerWaits s.prod = true) (hi : isIdlePort s.block .p = true)
      (ha : Admitted s.cfg (.p w)) : Effect s (.producer es ok) { s with block := setPending s.block (.p w) }
  /-- the producer retires a response -/
  | producerRetires (es : List Event) (ok : Bool) (rsp : PRsp) (q : Producer) (hact : s.cfg.pClient = .activity)
      (hrun : s.prod.run = .running) (hw : producerWaits s.prod = true) (hp : s.block.pPort = .done rsp)
      (hlast : q.last = some rsp) (hf : rsp.st = .fault → q.run = .stopped) (hns : q.run ≠ .shutdown)
      (htodo : TodoFits s.cfg s.prod → TodoFits s.cfg q)
      (hsnap : q.lastSnap = s.prod.lastSnap ∨ (s.prod.phase = .snapshot ∧ q.lastSnap = some rsp.snap)) :
      Effect s (.producer es ok)
        { s with
          block := { s.block with pPort := if rsp.st = .fault then .stopped else .idle }
          prod := q }
  /-- the producer changes its private state, and hands the sink a frame -/
  | producerMoves (es : List Event) (ok : Bool) (q : Producer) (sink : Option (Grid × Bool))
      (hact : s.cfg.pClient = .activity) (hrun : s.prod.run = .running) (hw : producerWaits s.prod = false)
      (hns : q.run = .shutdown → s.prod.phase = .sleep ∧ s.host.shutP = true)
      (htodo : TodoFits s.cfg s.prod → TodoFits s.cfg q) (hlast : q.last = s.prod.last) (hsnap : q.lastSnap = s.prod.lastSnap) :
      Effect s (.producer es ok) { s with prod := q, host := { s.host with sink := sink } }
  /-- a free agent retires a response on port C -/
  | freeRetiresC (rsp : CRsp) (hc : s.cfg.cClient = .free) (hp : s.block.cPort = .done rsp) :
      Effect s (.retire .c) (retireC rsp s)
  /-- a free agent retires a response on port P -/
  | freeRetiresP (rsp : PRsp) (hc : s.cfg.pClient = .free) (hp : s.block.pPort = .done rsp) :
      Effect s (.retire .p) (retireP rsp s)
  /-- the host asserts shutdown -/
  | asserts (c p : Bool) : Effect s (.shutdown c p) (assertShutdown c p s)

theorem performPort_effect {port : Port} {s t : State} (h : performPort port s = .next t) :
    Effect s (.perform port) t := by
  unfold performPort at h
  split at h
  · injection h with h; subst h; exact .stays _
  · rename_i r hr
    split at h
    · rename_i i hd
      split at h
      · rename_i hw
        rw [exec_next h]
        exact .performs port r i hr hd hw
      · cases h
    · rename_i e hd
      rw [(performOn_next_iff.1 h).2]
      exact .faultsBadOp port r e hr hd

theorem presentReq_effect {r : ReqWord} {s t : State} (h : presentReq r s = .next t) :
    Effect s (.present r) t := by
  unfold presentReq at h
  split at h
  · rw [exec_idle rfl] at h
    injection h with h; subst h; exact .stays _
  · split at h
    · rename_i hc
      rcases issue_next h with ⟨rfl, -⟩ | ⟨hi, rfl, ha⟩
      · exact .stays _
      · exact .issues r hc hi ha
    · injection h with h; subst h; exact .stays _

theorem retireFree_effect {port : Port} {s t : State} (h : retireFree port s = .next t) :
    Effect s (.retire port) t := by
  unfold retireFree at h
  split at h
  · rename_i hc
    cases port <;> simp only at h
    all_goals
      split at h
      · rename_i r hp
        injection h with h; subst h
        first | exact .freeRetiresC r hc hp | exact .freeRetiresP r hc hp
      all_goals (injection h with h; subst h; exact .stays _)
  · injection h with h; subst h; exact .stays _

theorem dispatch_spec (k : Config) (c : Consumer) :
    (dispatch k c).mem = c.mem ∧ (dispatch k c).last = c.last ∧ (c.pc < k.memSize → (dispatch k c).pc < k.memSize) ∧
      (c.run ≠ .shutdown → (dispatch k c).run ≠ .shutdown) := by
  unfold dispatch
  simp only
  split
  · rename_i h; exact ⟨rfl, rfl, fun _ => h, id⟩
  · exact ⟨rfl, rfl, id, fun _ => by simp⟩

theorem afterTake_spec (isa : Isa) (k : Config) (r : CRsp) (c : Consumer) :
    (afterTake isa k r c).mem = c.mem ∧ (afterTake isa k r c).last = c.last ∧
      (c.pc < k.memSize → (afterTake isa k r c).pc < k.memSize) ∧
      (c.run ≠ .shutdown → (afterTake isa k r c).run ≠ .shutdown) ∧
      (r.st = .fault → (afterTake isa k r c).run = c.run) := by
  unfold afterTake
  cases hst : r.st
  case event =>
    simp only [reduceCtorEq, false_implies, and_true]
    have hd := dispatch_spec k { c with kbd := isa.kbdUpdate c.kbd r.rkind r.rcode }
    cases hirq : r.irq
    · simp only [Bool.false_eq_true, if_false]
      split <;> exact ⟨rfl, rfl, id, id⟩
    · simp only [if_true]
      split <;> exact hd
  all_goals exact ⟨rfl, rfl, id, id, fun _ => rfl⟩

theorem afterStore_spec (isa : Isa) (k : Config) (r : CRsp) (a : Addr) (n v : Nat) (c : Consumer) :
    (afterStore isa k r a n v c).pc = c.pc ∧ (afterStore isa k r a n v c).last = c.last ∧
      (c.run ≠ .shutdown → (afterStore isa k r a n v c).run ≠ .shutdown) ∧
      (r.st = .fault → (afterStore isa k r a n v c).run = c.run) ∧
      ((afterStore isa k r a n v c).mem = c.mem ∨ (r.st = .notVram ∧ a.toNat < k.memSize ∧ a.toNat + n ≤ k.memSize ∧
        (afterStore isa k r a n v c).mem = Memory.writeAll c.mem a.toNat (Memory.storeBytes (isa.bytePlace n) v n))) := by
  unfold afterStore
  cases r.st
  case notVram =>
    simp only
    split
    · exact ⟨rfl, rfl, fun _ => by simp [consumerFatal], by simp, .inl rfl⟩
    · exact ⟨rfl, rfl, id, by simp, .inr ⟨trivial, by omega, by omega, rfl⟩⟩
  all_goals exact ⟨rfl, rfl, id, fun _ => rfl, .inl rfl⟩

theorem goNext_spec (k : Config) (len : Nat) (n : IsaNext) (c : Consumer) :
    (goNext k len n c).mem = c.mem ∧ (goNext k len n c).last = c.last ∧
      (c.pc < k.memSize → (goNext k len n c).pc < k.memSize) ∧
      (c.run = .running → (goNext k len n c).run ≠ .shutdown) := by
  cases n <;> simp only [goNext] <;> split <;>
    exact ⟨rfl, rfl, fun h => by first | exact h | (simp only; omega), fun h => by simp [consumerFatal, h]⟩

theorem advance_spec (k : Config) (r : IsaRecord) (c : Consumer) :
    (advance k r c).mem = c.mem ∧ (advance k r c).last = c.last ∧
      (c.pc < k.memSize → (advance k r c).pc < k.memSize) ∧
      (c.run = .running → (advance k r c).run ≠ .shutdown) := by
  unfold advance
  split
  · exact goNext_spec k r.len .seq c
  · exact goNext_spec k r.len _ c
  · exact ⟨rfl, rfl, id, fun _ => by simp⟩
  · exact goNext_spec k r.len _ c

theorem consumerIssue_effect {w : BitVec 104} {cpu : CpuState} {ie : Bool} {s t : State}
    (hact : s.cfg.cClient = .activity) (hrun : s.cons.run = .running) (hw : consumerWaits s.cons = true)
    (hp : s.block.cPort = .idle) (ho : (ReqWord.c w).op ≠ 0)
    (h : issue (.c w) { s with cons := { s.cons with cpu := cpu, ie := ie } } = .next t) :
    Effect s .consumer t := by
  rcases issue_next h with ⟨-, hi | hi⟩ | ⟨hi, rfl, ha⟩
  · simp [isIdlePort, ReqWord.port, hp] at hi
  · exact absurd hi ho
  · exact .consumerIssues w cpu ie hact hrun hw hi ha

theorem stepConsumer_effect {isa : Isa} {s t : State} (h : stepConsumer isa s = .next t) : Effect s .consumer t := by
  unfold stepConsumer at h
  split at h
  · rename_i hh
    obtain ⟨hact, hrun⟩ := hh
    have hns : s.cons.run ≠ .shutdown := by simp [hrun]
    split at h
    · rename_i hck
      injection h with h; subst h
      exact .consumerMoves _ hact hrun (by simp [consumerWaits, hck]) rfl rfl (fun h => by rw [h] at hck; cases hck) id
    · rename_i hck
      split at h
      · -- InputCheck
        rename_i hph
        have hw : consumerWaits s.cons = true := by simp [consumerWaits, hck, hph]
        unfold stepInputCheck at h
        split at h
        · rename_i hp
          exact consumerIssue_effect (cpu := s.cons.cpu) (ie := s.cons.ie) hact hrun hw hp
            (encode_op_ne (i := .take s.cons.ie) rfl) h
        · injection h with h; subst h; exact .stays _
        · injection h with h; subst h; exact .stays _
        · rename_i r hp
          injection h with h; subst h
          obtain ⟨h1, h2, h3, h4, h5⟩ := afterTake_spec isa s.cfg r (retireC r s).cons
          exact .consumerRetires r _ hact hrun hw hp h2 (h4 (crunAfter_ne_shutdown hns _ _))
            (fun hf => by rw [h5 hf, retireC_cons]; simp [hf, hrun]) h3 (.inl h1)
      · -- Fetch
        rename_i hph
        have hw : consumerWaits s.cons = false := by simp [consumerWaits, hph]
        unfold stepFetch at h
        simp only at h
        repeat' split at h
        all_goals first
          | cases h; done
          | (injection h with h; subst h
             exact .consumerMoves _ hact hrun hw rfl rfl (fun _ => by simp [consumerFatal, hrun]) id)
      · -- Execute
        rename_i hph
        unfold stepExecute at h
        split at h
        · injection h with h; subst h; exact .stays _
        · rename_i r hf
          split at h
          · rename_i a n v nx hst
            have hw : consumerWaits s.cons = true := by simp [consumerWaits, hck, hph, hf, hst, isStore]
            split at h
            · rename_i hp
              exact consumerIssue_effect hact hrun hw hp (encode_op_ne (i := .vstore a (isa.toColor v)) rfl) h
            · injection h with h; subst h; exact .stays _
            · injection h with h; subst h; exact .stays _
            · rename_i rsp hp
              injection h with h; subst h
              obtain ⟨h1, h2, h3, h4, h5⟩ := afterStore_spec isa s.cfg rsp a n v (retireC rsp s).cons
              refine .consumerRetires rsp _ hact hrun hw hp h2 (h3 (crunAfter_ne_shutdown hns _ _))
                (fun hf => by rw [h4 hf, retireC_cons]; simp [hf, hrun]) (fun h => by rw [h1]; exact h) ?_
              rcases h5 with h5 | ⟨h5, -, h6, h7⟩
              · exact .inl h5
              · exact .inr ⟨r, a, n, v, nx, _, hph, hf, hst, h5, h6, Memory.storeBytes_length _ _ _, h7⟩
          all_goals
            rename_i hst
            injection h with h; subst h
            exact .consumerMoves _ hact hrun (by simp [consumerWaits, hph, hf, hst, isStore]) rfl rfl (fun _ => hns) id
      · -- Advance
        rename_i hph
        unfold stepAdvance at h
        split at h
        · injection h with h; subst h; exact .stays _
        · rename_i r hf
          injection h with h; subst h
          have ha := advance_spec s.cfg r s.cons
          exact .consumerMoves _ hact hrun (by simp [consumerWaits, hph]) ha.2.1 ha.1 (fun _ => ha.2.2.2 hrun) ha.2.2.1
  · injection h with h; subst h; exact .stays _

/-- A draw of the input source fits. -/
theorem todoFits_drawn (k : Config) (p : Producer) (es : List Event) :
    TodoFits k { p with todo := some (drawnEvents k es) } := by
  rintro _ h e he
  injection h with h; subst h
  simp only [drawnEvents, List.mem_map] at he
  obtain ⟨e', -, rfl⟩ := he
  exact cutCode_lt k e'.code

/-- A draw whose codes have KEY_W bits is taken as it is (43_activities.md R173). -/
theorem drawnEvents_of_fits {k : Config} {es : List Event} (h : ∀ e ∈ es, e.code.toNat < 2 ^ k.keyW) :
    drawnEvents k es = es := by
  conv_rhs => rw [← List.map_id es]
  refine List.map_congr_left fun e he => ?_
  rw [cutCode_of_lt (h e he)]; rfl

theorem producerIssue_effect {es : List Event} {ok : Bool} {w : BitVec 24} {s t : State}
    (hact : s.cfg.pClient = .activity) (hrun : s.prod.run = .running) (hw : producerWaits s.prod = true)
    (h : issue (.p w) s = .next t) : Effect s (.producer es ok) t := by
  rcases issue_next h with ⟨rfl, -⟩ | ⟨hi, rfl, ha⟩
  · exact .stays _
  · exact .producerIssues es ok w hact hrun hw hi ha

theorem stepProducer_effect {es : List Event} {ok : Bool} {s t : State} (h : stepProducer es ok s = .next t) :
    Effect s (.producer es ok) t := by
  unfold stepProducer at h
  split at h
  · rename_i hh
    obtain ⟨hact, hrun⟩ := hh
    have hns : s.prod.run ≠ .shutdown := by simp [hrun]
    split at h
    · rename_i hph
      have hw : producerWaits s.prod = true := by simp [producerWaits, hph]
      unfold stepSnapshot at h
      split at h
      · exact producerIssue_effect hact hrun hw h
      · injection h with h; subst h; exact .stays _
      · injection h with h; subst h; exact .stays _
      · rename_i r hp
        simp only at h
        split at h <;> (injection h with h; subst h)
        · exact .producerRetires es ok r _ hact hrun hw hp rfl (fun hf => by simp [hf, hrun])
            (prunAfter_ne_shutdown hns _) id (.inl rfl)
        · exact .producerRetires es ok r _ hact hrun hw hp rfl (fun hf => absurd hf ‹_›)
            (prunAfter_ne_shutdown hns _) id (.inr ⟨hph, rfl⟩)
    · rename_i hph
      injection h with h; subst h
      exact .producerMoves es ok _ _ hact hrun (by simp [producerWaits, hph]) (fun h => absurd h hns)
        (fun _ => by simp [TodoFits]) rfl rfl
    · rename_i hph
      unfold stepInput at h
      split at h
      · rename_i hto
        injection h with h; subst h
        exact .producerMoves es ok { s.prod with todo := some (drawnEvents s.cfg es) } s.host.sink hact hrun
          (by simp [producerWaits, hph, hto]) (fun h => absurd h hns) (fun _ => todoFits_drawn _ _ _) rfl rfl
      · rename_i hto
        injection h with h; subst h
        exact .producerMoves es ok { s.prod with todo := none, phase := .sleep } s.host.sink hact hrun
          (by simp [producerWaits, hph, hto]) (fun h => absurd h hns) (fun _ => by simp [TodoFits]) rfl rfl
      · rename_i e rest hto
        have hw : producerWaits s.prod = true := by simp [producerWaits, hph, hto]
        split at h
        · cases he : e.edge <;> rw [he] at h <;> exact producerIssue_effect hact hrun hw h
        · injection h with h; subst h; exact .stays _
        · injection h with h; subst h; exact .stays _
        · rename_i r hp
          simp only at h
          split at h <;> (injection h with h; subst h)
          · exact .producerRetires es ok r _ hact hrun hw hp rfl (fun hf => by simp [hf, hrun])
              (prunAfter_ne_shutdown hns _) id (.inl rfl)
          · refine .producerRetires es ok r _ hact hrun hw hp rfl (fun hf => absurd hf ‹_›)
              (prunAfter_ne_shutdown hns _) (fun hfit => ?_) (.inl rfl)
            rintro _ h e' he'
            injection h with h; subst h
            exact hfit _ hto e' (List.mem_cons_of_mem _ he')
    · rename_i hph
      have hw : producerWaits s.prod = false := by simp [producerWaits, hph]
      unfold stepSleep at h
      split at h <;> (injection h with h; subst h)
      · exact .producerMoves es ok { s.prod with run := .shutdown } s.host.sink hact hrun hw (fun _ => ⟨hph, ‹_›⟩)
          id rfl rfl
      · exact .producerMoves es ok { s.prod with phase := .snapshot } s.host.sink hact hrun hw
          (fun h => absurd h hns) id rfl rfl
  · injection h with h; subst h; exact .stays _

/-- Every next state of a move is one of its effects. -/
theorem runMove_effect {isa : Isa} {m : Move} {s t : State} (h : runMove isa m s = .next t) : Effect s m t := by
  cases m with
  | perform port => exact performPort_effect h
  | consumer => exact stepConsumer_effect h
  | producer es ok => exact stepProducer_effect h
  | present r => exact presentReq_effect h
  | retire port => exact retireFree_effect h
  | shutdown c p => injection h with h; subst h; exact .asserts c p

end Sys2Proof.Machine
end

