-- ==== Sys2Proof/Laws/PerInstr.lean ====
section
/-! SUPPORT. A fact about each instruction as syntax: its word is laid out for its own port, carries the op of
30_encoding.md R85, and bit 3 of that op is 1 exactly for the producer's operations. -/

namespace Sys2Proof.Laws.OpPort

open Sys2Proof

/-- The op value of the operation map (30_encoding.md R85). -/
def opValue : Instr → BitVec 4
  | .idle _ => 0x0
  | .take _ => 0x1
  | .set _ _ _ => 0x2
  | .get _ _ => 0x3
  | .vstore _ _ => 0x4
  | .publish _ _ => 0x8
  | .snapshot => 0x9

/-- The word's port and op, and what bit 3 of the op says of the port. -/
def Statement (i : Instr) : Prop :=
  (encode i).port = i.port ∧ (encode i).op = opValue i ∧
    (i.isIdle = false → ((opValue i).getLsbD 3 = true ↔ i.port = .p))

theorem idle (port : Port) : Statement (.idle port) := by
  cases port <;> exact ⟨rfl, rfl, fun h => by cases h⟩

theorem take (ie : Bool) : Statement (.take ie) :=
  ⟨rfl, (packC_fields 0 0 0 0 ie 1).1, fun _ => by simp [opValue, Instr.port]⟩

theorem set (x y : Coord) (data : Pixel) : Statement (.set x y data) :=
  ⟨rfl, (packC_fields 0 data y x false 2).1, fun _ => by simp [opValue, Instr.port]⟩

theorem get (x y : Coord) : Statement (.get x y) :=
  ⟨rfl, (packC_fields 0 0 y x false 3).1, fun _ => by simp [opValue, Instr.port]⟩

theorem vstore (addr : Addr) (data : Pixel) : Statement (.vstore addr data) :=
  ⟨rfl, (packC_fields addr data 0 0 false 4).1, fun _ => by simp [opValue, Instr.port]⟩

theorem publish (kind : KindField) (code : KeyCode) : Statement (.publish kind code) :=
  ⟨rfl, (packP_fields code kind.bits 8).1, fun _ => by simp [opValue, Instr.port]⟩

theorem snapshot : Statement .snapshot := ⟨rfl, (packP_fields 0 0 9).1, fun _ => by simp [opValue, Instr.port]⟩

end Sys2Proof.Laws.OpPort
end

