-- ==== Sys2Proof/Laws/Step.lean ====
section
/-! SUPPORT. One step, and the placing of an instruction where the next step runs it. -/

namespace Sys2Proof.Machine

open Sys2Proof

/-- A step of a well-formed state with a move lined up runs that move. -/
theorem step_of_sched {s : State} {m : Move} {ms : List Move} (hk : s.cfg.wf = true) (hs : s.host.sched = m :: ms) :
    step s = runMove Config.isa m { s with host := { s.host with sched := ms } } := by
  simp [step, hk, nextMove, hs]

/-- A step of a well-formed state with nothing lined up runs the free choice at its tick. -/
theorem step_of_tick {s : State} (hk : s.cfg.wf = true) (hs : s.host.sched = []) :
    step s =
      runMove Config.isa (Config.nextMove s.host.tick) { s with host := { s.host with tick := s.host.tick + 1 } } := by
  simp [step, hk, nextMove, hs]

/-- What the decoder reads from a table row's bits is what the placed request decodes to. -/
theorem decodeTableWord_iff {nbits w : Nat} {i : Instr} :
    decodeTableWord nbits w = some i ↔ decode (tableRequest nbits w) = .ok i := by
  unfold decodeTableWord
  cases decode (tableRequest nbits w) <;> simp

/-- A placed operation, IDLE apart, is pending on its port, and the very next step performs it. -/
theorem step_withFetchWord {s : State} {nbits w : Nat} {i : Instr} (hk : s.cfg.wf = true)
    (hd : decodeTableWord nbits w = some i) (hw : i.wf s.cfg = true) (hi : i.isIdle = false) :
    step (s.withFetchWord nbits w) =
      exec i { s with block := setPending s.block (tableRequest nbits w) } := by
  have hd := decodeTableWord_iff.1 hd
  have hop : (tableRequest nbits w).op ≠ 0 := by
    intro h
    have := (decode_isIdle_iff hd).2 h
    rw [hi] at this
    cases this
  simp only [State.withFetchWord, hop, if_false, step, hk, if_true, nextMove, runMove, performPort,
    pendingReq_setPending, hd, hw]

/-- A placed IDLE is presented on its port, and the very next step runs it. -/
theorem step_withFetchWord_idle {s : State} {nbits w : Nat} {i : Instr} (hk : s.cfg.wf = true)
    (hd : decodeTableWord nbits w = some i) (hi : i.isIdle = true) : step (s.withFetchWord nbits w) = exec i s := by
  have hd := decodeTableWord_iff.1 hd
  have hop := (decode_isIdle_iff hd).1 hi
  obtain rfl : Instr.idle (tableRequest nbits w).port = i := by
    rw [decode_of_op_zero hop] at hd; injection hd
  simp only [State.withFetchWord, hop, if_true, step, hk, nextMove, runMove, presentReq]

end Sys2Proof.Machine
end

