-- ==== Sys2Proof/Tests/Slice0.lean ====
section
/-! SUPPORT. The model's own tests: a refused term for each well-formedness check, decoding of words written out from
95_test_vectors.md, single steps of its vectors (named by their labels: F2, V8, M8, K9 ...), and for each obligation
with hypotheses a witness that meets them. Every expected word and value is the spec's. -/

namespace Sys2Proof.Tests

open Sys2Proof Sys2Proof.Machine

/-! ## Small states -/

/-- The reset parameters of 95_test_vectors.md §0, with a draw of `mb_code`. -/
def bootE : Boot :=
  { fbInit := fun _ _ => 0, ieReset := false, cpuInit := 0, kbdInit := 0, mbCode := 0x2A, image := [] }

/-- Configuration E with free agents on both ports. -/
def cfgE : Config := { Config.specE with cClient := .free, pClient := .free }

/-- Configuration E20. -/
def cfgE20 : Config := { cfgE with vramStride := 20 }

/-- State S0 of 95_test_vectors.md §0. -/
def s0 : State := State.resetOf cfgE bootE

/-- S0 under E20. -/
def s20 : State := State.resetOf cfgE20 bootE

/-- S0 with the two activities as clients. -/
def sAct : State := State.resetOf Config.specE bootE

/-- A request pending on port C. -/
def pendC (w : BitVec 104) (s : State) : State := { s with block := { s.block with cPort := .pending w } }

/-- A request pending on port P. -/
def pendP (w : BitVec 24) (s : State) : State := { s with block := { s.block with pPort := .pending w } }

/-- A response waiting on port C. -/
def doneC (r : CRsp) (s : State) : State := { s with block := { s.block with cPort := .done r } }

/-- A response waiting on port P. -/
def doneP (r : PRsp) (s : State) : State := { s with block := { s.block with pPort := .done r } }

/-- An event in the mailbox slot. -/
def slot (k : EventKind) (code : KeyCode) (s : State) : State :=
  { s with block := { s.block with mbKind := k, mbCode := code, mbOcc := true } }

/-- Moves lined up. -/
def lined (ms : List Move) (s : State) : State := { s with host := { s.host with sched := ms } }

/-- The next state of an outcome, if it is one. -/
def nextOf : Host.Outcome State Fault Refusal → Option State
  | .next t => some t
  | .fault _ | .refused _ => none

/-- The reason of a refusal, if an outcome is one. -/
def whyOf : Host.Outcome State Fault Refusal → Option Refusal
  | .refused r => some r
  | .next _ | .fault _ => none

/-- The state after a list of moves, or the first one where they stop. -/
def ran (isa : Isa) (ms : List Move) (s : State) : State := (nextOf (runMoves isa ms s)).getD s

/-- The packed response word on port C. -/
def cWord (t : State) : Option (BitVec 59) :=
  match t.block.cPort with
  | .done r => some (cRspWord r t.block.cFault)
  | .idle | .pending _ | .stopped => none

/-- The packed response word on port P. -/
def pWord (t : State) : Option (BitVec 6) :=
  match t.block.pPort with
  | .done r => some (pRspWord r t.block.pFault)
  | .idle | .pending _ | .stopped => none

/-- The instruction set X0 of 95_test_vectors.md §0; a keyboard status (kind, code) is coded kind·65536 + code. -/
def x0Step (k : Config) (m : Memory) (pc : Nat) (ie : Bool) : IsaAnswer :=
  let at16 (a : Nat) : Nat := natOfBytes (Memory.readAll m a 2)
  let answer (len : Nat) (ie : Bool) (action : IsaAction) : IsaAnswer :=
    if k.memSize < pc + len then .fetchOob
    else .record { len := len, reads := [], cpu := 0, ie := ie, action := action }
  match (Memory.read m pc).toNat with
  | 0 => answer 1 ie .halt
  | 1 => answer 7 ie
      (.store (BitVec.ofNat 32 (at16 (pc + 1))) 4 (natOfBytes (Memory.readAll m (pc + 3) 4)) .seq)
  | 2 => answer 3 ie (.jump (at16 (pc + 1)))
  | 3 => answer 1 true .seq
  | 4 => answer 1 false .seq
  | 5 => answer 1 ie .seq
  | _ => .isaFault

/-- X0 with its little-endian stores. -/
def x0 : Isa where
  step k _ m pc ie := x0Step k m pc ie
  toColor v := BitVec.ofNat 32 v
  kbdUpdate _ kind code := (kindBits kind).toNat * 65536 + code.toNat
  bytePlace _ k := k

/-- The consumer in a phase at `pc`, with an image of some bytes from there up. -/
def cpuAt (phase : CPhase) (pc : Nat) (bytes : List Byte) (s : State) : State :=
  { s with cons := { s.cons with phase := phase, pc := pc, mem := Memory.writeAll [] pc bytes } }

/-- The consumer holding a fetched record. -/
def holding (phase : CPhase) (r : IsaRecord) (s : State) : State :=
  { s with cons := { s.cons with phase := phase, fetched := some r } }

/-- The vector bytes of 95_test_vectors.md (little-endian at 0x1F0). -/
def vector (target : Nat) (s : State) : State :=
  let bytes := [BitVec.ofNat 8 target, BitVec.ofNat 8 (target / 256), 0, 0]
  { s with cons := { s.cons with mem := Memory.writeAll s.cons.mem 0x1F0 bytes } }

/-- The producer in a phase with transitions still to publish. -/
def prodAt (phase : PPhase) (todo : Option (List Event)) (s : State) : State :=
  { s with prod := { s.prod with phase := phase, todo := todo } }

/-! ## Well-formedness refuses -/

theorem test_wf_specE : Config.specE.wf = true ∧ cfgE20.wf = true := by decide
theorem test_wf_fbSize : ({ cfgE with width := 0 } : Config).fbSizeOk = false ∧
    ({ cfgE with height := 65537 } : Config).wf = false := by decide
theorem test_wf_pixel : ({ cfgE with pixelBytes := 17 } : Config).pixelOk = false ∧
    ({ cfgE with pixelBytes := 0 } : Config).wf = false := by decide
theorem test_wf_pixelBytes : ({ cfgE with pixelBytes := 8 } : Config).pixelOk = true ∧
    ({ cfgE with pixelBytes := 8 } : Config).pixelBytesOk = false ∧
    ({ cfgE with pixelBytes := 8 } : Config).wf = false := by decide
theorem test_wf_vramInImage : ({ cfgE with vramBase := 0x1E1 } : Config).vramInImage = false ∧
    ({ cfgE with vramBase := 0x1E1 } : Config).wf = false := by decide
theorem test_wf_addr : ({ cfgE with addrW := 8 } : Config).addrOk = false ∧
    ({ cfgE with addrW := 33 } : Config).wf = false := by decide
theorem test_wf_vectorInImage : ({ cfgE with vectorAddr := 0x1FD } : Config).vectorInImage = false ∧
    ({ cfgE with vecBytes := 0 } : Config).wf = false := by decide
theorem test_wf_vectorNotVram : ({ cfgE with vectorAddr := 0xFD } : Config).vectorNotVram = false ∧
    ({ cfgE with vectorAddr := 0x11F } : Config).wf = false := by decide
theorem test_wf_keys : ({ cfgE with keyUp := 2 } : Config).keysOk = false ∧
    ({ cfgE with keySpace := 256 } : Config).wf = false := by decide
theorem test_wf_keyWidth : ({ cfgE with keyW := 17 } : Config).keyWidthOk = false ∧
    ({ cfgE with keyW := 17 } : Config).wf = false := by decide
theorem test_wf_vstore : (Instr.vstore 0x10000 1).wf cfgE = false ∧ (Instr.vstore 0xFFFF 1).wf cfgE = true := by decide
theorem test_wf_publish : (Instr.publish .pressed 0x100).wf cfgE = false ∧
    (Instr.publish .pressed 0xFF).wf cfgE = true := by decide

/-! ## Decoding of words written out from the encoding -/

/-- E7, and IDLE on port P with every other field set. -/
theorem test_decode_idle : decode (.c 0x00000000000000000000000000#104) = .ok (.idle .c) ∧
    decode (.p 0xFFFFF0#24) = .ok (.idle .p) := by decide
/-- M4, M5. -/
theorem test_decode_take : decode (.c 0x00000000000000000000000001#104) = .ok (.take false) ∧
    decode (.c 0x00000000000000000000000011#104) = .ok (.take true) := by decide
/-- F2, and F12 with fields SET does not read. -/
theorem test_decode_set : decode (.c 0x00000000112233440001000302#104) = .ok (.set 3 1 0x11223344) ∧
    decode (.c 0x00001234000000050000000112#104) = .ok (.set 1 0 5) := by decide
/-- F8, F5's coordinates. -/
theorem test_decode_get : decode (.c 0x00000000000000000001000303#104) = .ok (.get 3 1) ∧
    decode (.c 0x0000000000000000FFFFFFFF03#104) = .ok (.get 65535 65535) := by decide
/-- V1, V2. -/
theorem test_decode_vstore : decode (.c 0x00000100EEEEEE000000000004#104) = .ok (.vstore 0x100 0xEEEEEE00) ∧
    decode (.c 0x00000114000000AB0000000004#104) = .ok (.vstore 0x114 0xAB) := by decide
/-- M6, M8, M9, M10. -/
theorem test_decode_publish : decode (.p 0x000428#24) = .ok (.publish .released 4) ∧
    decode (.p 0x000108#24) = .ok (.publish .none 1) ∧ decode (.p 0x000138#24) = .ok (.publish .reserved 1) ∧
    decode (.p 0x00FF18#24) = .ok (.publish .pressed 0xFF) := by decide
/-- S1. -/
theorem test_decode_snapshot : decode (.p 0x000009#24) = .ok .snapshot := by decide
/-- E1, E2, E3, S5, E4, E6: refused by port and op. -/
theorem test_decode_refuses : decode (.c 0x08#104) = .error (.badOp .c 8) ∧
    decode (.c 0x05#104) = .error (.badOp .c 5) ∧ decode (.c 0x0F#104) = .error (.badOp .c 15) ∧
    decode (.c 0x09#104) = .error (.badOp .c 9) ∧ decode (.p 0x000001#24) = .error (.badOp .p 1) ∧
    decode (.p 0x00000A#24) = .error (.badOp .p 10) := by decide
/-- The words of R93's examples, and R94's VSTORE.XY of program P1 and DRAIN of program P2. -/
theorem test_encode_words :
    encode (.set 0 0 0xEEEEEE00) = .c 0x00000000EEEEEE000000000002#104 ∧
    encode (.publish .pressed 4) = .p 0x000418#24 ∧
    (vstoreXY cfgE 3 1 0x00FF00FF).map encode = some (.c 0x0000011C00FF00FF0000000004#104) ∧
    vstoreXY cfgE 0 0x10000000 1 = none ∧
    encode Instr.drain = .c 0x00000000000000000000000001#104 := by decide

/-! ## The table's rows as the first instruction after reset -/

/-- Each row's op alone is decoded as its row. -/
theorem test_table_decodes :
    decodeTableWord 8 0 = some (.idle .c) ∧ decodeTableWord 8 1 = some (.take false) ∧
    decodeTableWord 8 2 = some (.set 0 0 0) ∧ decodeTableWord 8 3 = some (.get 0 0) ∧
    decodeTableWord 8 4 = some (.vstore 0 0) ∧ decodeTableWord 8 8 = some (.publish .none 0) ∧
    decodeTableWord 8 9 = some .snapshot ∧ decodeTableWord 8 5 = none := by decide
/-- Each row runs as the very next step from reset. -/
theorem test_table_runs : ∀ op ∈ [0, 1, 2, 3, 4, 8, 9],
    (nextOf (step (State.reset.withFetchWord 8 op))).isSome = true := by decide

/-! ## Single performs of the vectors -/

/-- M5: the event and its interrupt request; the flag alone is cleared. -/
theorem test_take_event :
    ((nextOf (exec (.take true) (pendC 0x11#104 (slot .pressed 4 s0)))).map fun t =>
      (cWord t, t.block.mbKind, t.block.mbCode, t.block.mbOcc)) =
      some (some 0x00000000000041A#59, .pressed, 4, false) := by decide
/-- M7: NO_EVENT although `mb_kind` holds Pressed; M6: a Released event does not qualify. -/
theorem test_take_others :
    ((nextOf (exec (.take true) (pendC 0x11#104
      { s0 with block := { s0.block with mbKind := .pressed, mbCode := 4 } }))).bind cWord) =
      some 0x000000000000001#59 ∧
    ((nextOf (exec (.take true) (pendC 0x11#104 (slot .released 4 s0)))).bind cWord) =
      some 0x000000000000422#59 := by decide
/-- F2: the last pixel. -/
theorem test_set_pixel :
    ((nextOf (exec (.set 3 1 0x11223344) (pendC 0x02#104 s0))).map fun t => (cWord t, t.block.fb)) =
      some (some 0x000000000000000#59, [[0, 0, 0, 0], [0, 0, 0, 0x11223344]]) := by decide
/-- F3, F4: x = W and y = H fault. -/
theorem test_set_bounds :
    ((nextOf (exec (.set 4 0 0) (pendC 0x02#104 s0))).bind cWord) = some 0x100000000000004#59 ∧
    ((nextOf (exec (.set 0 2 0) (pendC 0x02#104 s0))).bind cWord) = some 0x100000000000004#59 := by decide
/-- F8: the colour stored; F10: y = H faults. -/
theorem test_get :
    ((nextOf (exec (.get 3 1) (pendC 0x03#104
      { s0 with block := { s0.block with fb := [[0, 0, 0, 0], [0, 0, 0, 0x11223344]] } }))).bind cWord) =
      some 0x011223344000000#59 ∧
    ((nextOf (exec (.get 0 2) (pendC 0x03#104 s0))).bind cWord) = some 0x100000000000004#59 := by decide
/-- V2 and V13: one address under two strides gives two pixels. -/
theorem test_vstore_pixel :
    ((nextOf (exec (.vstore 0x114 0xAB) (pendC 0x04#104 s0))).map (·.block.fb)) =
      some [[0, 0, 0, 0], [0, 0xAB, 0, 0]] ∧
    ((nextOf (exec (.vstore 0x114 0xAB) (pendC 0x04#104 s20))).map (·.block.fb)) =
      some [[0, 0, 0, 0], [0xAB, 0, 0, 0]] := by decide
/-- V6, V7 NOT_VRAM; V8 VRAM_ALIGN; V11 VRAM_MAP; V12 VRAM_ALIGN before VRAM_MAP. -/
theorem test_vstore_others :
    ((nextOf (exec (.vstore 0xFF 1) (pendC 0x04#104 s0))).bind cWord) = some 0x000000000000003#59 ∧
    ((nextOf (exec (.vstore 0x120 1) (pendC 0x04#104 s0))).bind cWord) = some 0x000000000000003#59 ∧
    ((nextOf (exec (.vstore 0x102 1) (pendC 0x04#104 s0))).bind cWord) = some 0x300000000000004#59 ∧
    ((nextOf (exec (.vstore 0x110 3) (pendC 0x04#104 s20))).bind cWord) = some 0x200000000000004#59 ∧
    ((nextOf (exec (.vstore 0x113 1) (pendC 0x04#104 s20))).bind cWord) = some 0x300000000000004#59 := by decide
/-- S2: the grid as it is, and nothing else changed. -/
theorem test_snapshot :
    ((nextOf (exec .snapshot (pendP 0x000009#24
      { s0 with block := { s0.block with fb := [[0, 5, 0, 0], [0, 0, 0, 0]] } }))).map (·.block.pPort)) =
      some (.done { st := .ok, snap := [[0, 5, 0, 0], [0, 0, 0, 0]] }) := by decide
/-- M2: latest wins. -/
theorem test_publish_overwrites :
    ((nextOf (exec (.publish .pressed 1) (pendP 0x000118#24 (slot .pressed 4 s0)))).map fun t =>
      (pWord t, t.block.mbKind, t.block.mbCode, t.block.mbOcc)) =
      some (some 0x00#6, .pressed, 1, true) := by decide
/-- M8, M9: the kinds None and 3 fault. -/
theorem test_publish_badKind :
    ((nextOf (exec (.publish .none 1) (pendP 0x000108#24 s0))).map fun t => (pWord t, t.block.mbOcc)) =
      some (some 0x2C#6, false) ∧
    ((nextOf (exec (.publish .reserved 1) (pendP 0x000138#24 s0))).bind pWord) = some 0x2C#6 := by decide
/-- E7, and IDLE on a stopped port. -/
theorem test_idle :
    ((nextOf (runMove x0 (.present (.c 0#104)) s0)).map fun t => (t.block, t.cons)) = some (s0.block, s0.cons) ∧
    ((nextOf (exec (.idle .c) { s0 with block := { s0.block with cPort := .stopped } })).map (·.block)) =
      some { s0.block with cPort := .stopped } := by decide
/-- E1, E4: BAD_OP on either port. -/
theorem test_badOp : ((nextOf (runMove x0 (.perform .c) (pendC 0x08#104 s0))).bind cWord) =
      some 0x400000000000004#59 ∧
    ((nextOf (runMove x0 (.perform .p) (pendP 0x000001#24 s0))).bind pWord) = some 0x24#6 := by decide
/-- V16, M11: over-wide operands are refused at issue; so are illegal requests with an over-wide field (R110). -/
theorem test_fieldWidth :
    (whyOf (runMove x0 (.present (.c 0x00010000000000010000000004#104)) s0) = some .fieldWidth ∧
      whyOf (runMove x0 (.present (.p 0x010018#24)) s0) = some .fieldWidth) ∧
    (whyOf (runMove x0 (.present (.c 0x00010000000000000000000008#104)) s0) = some .fieldWidth ∧
      whyOf (runMove x0 (.present (.p 0x010001#24)) s0) = some .fieldWidth) := by decide
/-- R184, R175: a FAULT that a free agent retires ends it, as it ends an activity. -/
theorem test_free_fault :
    ((nextOf (runMoves x0 [.perform .c, .retire .c] (pendC 0x00000000000000000000000402#104 s0))).map
      fun t => (t.cons.run, t.block.cPort)) = some (.fatal (.block .fbBounds), .stopped) ∧
    ((nextOf (runMoves x0 [.perform .p, .retire .p] (pendP 0x000108#24 s0))).map
      fun t => (t.prod.run, t.block.pPort)) = some (.stopped, .stopped) := by decide
/-- E10: a stopped port takes no issue; its cause stays. -/
theorem test_stopped :
    ((nextOf (runMove x0 (.present (.c 0x02#104))
      { s0 with block := { s0.block with cPort := .stopped, cFault := .fbBounds } })).map (·.block)) =
      some { s0.block with cPort := .stopped, cFault := .fbBounds } := by decide
/-- O1 and O1': the order of two performs decides what a TAKE returns. -/
theorem test_order :
    cWord (ran x0 [.perform .p, .perform .c] (pendC 0x11#104 (pendP 0x000418#24 s0))) =
      some 0x00000000000041A#59 ∧
    cWord (ran x0 [.perform .c, .perform .p] (pendC 0x11#104 (pendP 0x000418#24 s0))) =
      some 0x000000000000001#59 := by decide

/-! ## Single consumer steps of the vectors -/

/-- K6, K7, K8: Fetch beyond the image, an ISA fault, a fetch that meets VRAM. -/
theorem test_fetch_stops :
    ((nextOf (runMove x0 .consumer (cpuAt .fetch 0x1FE [2] sAct))).map (·.cons.run)) =
      some (.fatal .fetchOob) ∧
    ((nextOf (runMove x0 .consumer (cpuAt .fetch 0 [7] sAct))).map (·.cons.run)) = some (.fatal .isa) ∧
    whyOf (runMove x0 .consumer (cpuAt .fetch 0x100 [] sAct)) = some .vramRead := by decide
/-- L1.6: the fetched store is issued as a VSTORE. -/
theorem test_execute_store :
    ((nextOf (runMoves x0 [.consumer, .consumer] (cpuAt .fetch 0 [1, 0, 1, 0, 0xEE, 0xEE, 0xEE, 0] sAct))).map
      (·.block.cPort)) = some (.pending 0x00000100EEEEEE000000000004#104) := by decide
/-- K2: NOT_VRAM, and the four image bytes written. -/
theorem test_plain_store :
    ((nextOf (runMove x0 .consumer (doneC (plainC .notVram) (holding .execute
      { len := 7, reads := [], cpu := 0, ie := false, action := .store 0x180 4 0x12345678 .seq } sAct)))).map
      fun t => (t.cons.mem, t.cons.phase)) =
      some ([(0x180, 0x78), (0x181, 0x56), (0x182, 0x34), (0x183, 0x12)], .advance) := by decide
/-- K3: a plain store beyond the image; K9: a block fault ends the run and stops the port. -/
theorem test_store_stops :
    ((nextOf (runMove x0 .consumer (doneC (plainC .notVram) (holding .execute
      { len := 7, reads := [], cpu := 0, ie := false, action := .store 0x1FE 4 0 .seq } sAct)))).map
      fun t => (t.cons.run, t.cons.mem)) = some (.fatal .memOob, []) ∧
    ((nextOf (runMove x0 .consumer
      { doneC (plainC .fault) (holding .execute
          { len := 7, reads := [], cpu := 0, ie := false, action := .store 0x102 4 1 .seq } sAct) with
        block := { sAct.block with cPort := .done (plainC .fault), cFault := .vramAlign } })).map
      fun t => (crunCode t.cons.run, t.cons.run, t.block.cPort)) =
      some (7, .fatal (.block .vramAlign), .stopped) := by decide
/-- R52: a store of no bytes is fatal at MEM_SIZE, and goes on to Advance at the last byte. -/
theorem test_empty_store : ∀ p ∈ [((0x1FF : Addr), CRun.running, CPhase.advance), (0x200, .fatal .memOob, .execute)],
    ((nextOf (runMove x0 .consumer (doneC (plainC .notVram) (holding .execute
      { len := 1, reads := [], cpu := 0, ie := false, action := .store p.1 0 7 .seq } sAct)))).map
      fun t => (t.cons.run, t.cons.phase, t.cons.mem)) = some (p.2.1, p.2.2, []) := by decide
/-- K4, K5: a jump to MEM_SIZE is fatal, a sequential advance to it is a normal end; L1.6: pc 7. -/
theorem test_advance :
    ((nextOf (runMove x0 .consumer (holding .advance
      { len := 3, reads := [], cpu := 0, ie := false, action := .jump 0x200 } sAct))).map
      fun t => (crunCode t.cons.run, t.cons.pc)) = some (4, 0) ∧
    ((nextOf (runMove x0 .consumer (holding .advance
      { len := 1, reads := [], cpu := 0, ie := false, action := .seq } (cpuAt .advance 0x1FF [] sAct)))).map
      fun t => (crunCode t.cons.run, t.cons.pc)) = some (1, 0x1FF) ∧
    ((nextOf (runMove x0 .consumer (holding .advance
      { len := 7, reads := [], cpu := 0, ie := false, action := .store 0x100 4 0 .seq } sAct))).map
      fun t => (t.cons.run, t.cons.pc, t.cons.phase)) = some (.running, 7, .inputCheck) := by decide
/-- P3 step 4: the dispatch to 0x10; K10: a vector of 0x200 ends the run, pc kept, keyboard status updated. -/
theorem test_dispatch :
    ((nextOf (runMove x0 .consumer (doneC { plainC .event with irq := true, rkind := .pressed, rcode := 4 }
      (vector 0x10 sAct)))).map fun t => (t.cons.pc, t.cons.kbd, t.cons.phase)) = some (0x10, 65540, .fetch) ∧
    ((nextOf (runMove x0 .consumer (doneC { plainC .event with irq := true, rkind := .pressed, rcode := 1 }
      (vector 0x200 (cpuAt .inputCheck 1 [3, 2, 1, 0] sAct))))).map
      fun t => (t.cons.run, t.cons.pc, t.cons.kbd)) = some (.fatal .jumpOob, 1, 65537) := by decide

/-- R173: a draw below 2^KEY_W is taken as it is, and one above is cut to KEY_W bits. -/
theorem test_draw :
    ((nextOf (runMove x0 (.producer [⟨.pressed, 0xFF⟩, ⟨.released, 0x104⟩] true) (prodAt .input none sAct))).map
      (·.prod.todo)) = some (some [⟨.pressed, 0xFF⟩, ⟨.released, 4⟩]) := by decide

/-! ## The invariant, as a check -/

/-- Whether what is pending on a port is a request an issue admits. -/
def admittedB (k : Config) : Option ReqWord → Bool
  | none => true
  | some r => decide (r.op ≠ 0) && widthOk k r

/-- Whether a stopped port's agent is not running, and a running activity with a busy port waits. -/
def agentOkB (s : State) (port : Port) : Bool :=
  (!isStopped s.block port || !agentRunning s port) &&
    (decide (clientOf s.cfg port ≠ .activity) || !agentRunning s port || isIdlePort s.block port || agentWaits s port)

/-- Whether a port's fault register matches the port. -/
def faultOkB (b : Block) (port : Port) : Bool :=
  decide (faultOf b port ≠ .none) == (decide (answered b port = some .fault) || isStopped b port)

/-- `Invariant` as one Bool. -/
def invB (s : State) : Bool :=
  s.cfg.wf && Memory.wf s.cons.mem && Memory.within s.cfg.memSize s.cons.mem &&
    Grid.shaped s.cfg.width s.cfg.height s.block.fb && decide (s.cons.pc < s.cfg.memSize) &&
    (!s.block.mbOcc || decide (s.block.mbKind ≠ .none)) && decide (s.block.mbCode.toNat < 2 ^ s.cfg.keyW) &&
    decide (s.block.gFb = none) && decide (s.block.gMb = none) && faultOkB s.block .c && faultOkB s.block .p &&
    admittedB s.cfg (pendingReq s.block .c) && admittedB s.cfg (pendingReq s.block .p) &&
    agentOkB s .c && agentOkB s .p &&
    (s.prod.todo.all fun es => es.all fun e => decide (e.code.toNat < 2 ^ s.cfg.keyW))

theorem admitted_of_check {k : Config} {b : Block} {port : Port} (h : admittedB k (pendingReq b port) = true) :
    PendingAdmitted k b port := by
  intro r hr
  rw [hr] at h
  simp only [admittedB, Bool.and_eq_true, decide_eq_true_eq] at h
  exact h

theorem agent_of_check {s : State} {port : Port} (h : agentOkB s port = true) :
    (isStopped s.block port = true → agentRunning s port = false) ∧
      (clientOf s.cfg port = .activity → agentRunning s port = true → isIdlePort s.block port = false →
        agentWaits s port = true) := by
  simp only [agentOkB, Bool.and_eq_true, Bool.or_eq_true, Bool.not_eq_true', decide_eq_true_eq] at h
  refine ⟨fun hs => ?_, fun hc hr hi => ?_⟩
  · rcases h.1 with h | h <;> simp_all
  · rcases h.2 with ((h | h) | h) | h <;> simp_all

theorem faults_of_check {b : Block} {port : Port} (h : faultOkB b port = true) : FaultMatchesPort b port := by
  unfold FaultMatchesPort
  simp only [faultOkB, beq_iff_eq] at h
  rw [← decide_eq_true_iff (p := faultOf b port ≠ .none), h]
  simp

/-- A state that passes the check meets the invariant. -/
theorem invariant_of_check {s : State} (h : invB s = true) : Invariant s := by
  simp only [invB, Bool.and_eq_true, decide_eq_true_eq, Bool.or_eq_true, Bool.not_eq_true'] at h
  obtain ⟨⟨⟨⟨⟨⟨⟨⟨⟨⟨⟨⟨⟨⟨⟨h1, h2⟩, h3⟩, h4⟩, h5⟩, h6⟩, h7⟩, h8⟩, h9⟩, h10⟩, h11⟩, h12⟩, h13⟩, h14⟩, h15⟩, h16⟩ := h
  refine ⟨h1, h2, h3, h4, h5, ?_, h7, h8, h9, ?_, ?_, ?_, ?_, ?_⟩
  · intro ho
    rcases h6 with h | h
    · rw [ho] at h; cases h
    · exact h
  · intro port
    cases port
    · exact faults_of_check h10
    · exact faults_of_check h11
  · intro port
    cases port
    · exact admitted_of_check h12
    · exact admitted_of_check h13
  · intro port
    cases port
    · exact (agent_of_check h14).1
    · exact (agent_of_check h15).1
  · intro port
    cases port
    · exact (agent_of_check h14).2
    · exact (agent_of_check h15).2
  · intro es hes e he
    rw [hes] at h16
    exact of_decide_eq_true (List.all_eq_true.1 h16 e he)

/-! ## Witnesses: encoding, configuration, decode -/

theorem witness_DecoderRefusesExactlyUnadmittedOps :
    decode (.c 0x05#104) = .error (.badOp .c 5) ∧ decode (.p 0x00000F#24) = .error (.badOp .p 15) := by decide
/-- F12 beside F12 with its unread fields 0; two PUBLISH and two SNAPSHOT words that differ in unread bits. -/
theorem witness_UnreadRequestFieldsAreIgnored :
    (let w := 0x00001234000000050000000112#104
     let w' := 0x00000000000000050000000102#104
     w ≠ w' ∧ w.extractLsb' 0 4 = w'.extractLsb' 0 4 ∧
      (w.extractLsb' 0 4 = 1#4 → w.extractLsb' 4 1 = w'.extractLsb' 4 1) ∧
      w.extractLsb' 8 16 = w'.extractLsb' 8 16 ∧ w.extractLsb' 24 16 = w'.extractLsb' 24 16 ∧
      w.extractLsb' 40 32 = w'.extractLsb' 40 32 ∧
      (w.extractLsb' 0 4 = 4#4 → w.extractLsb' 72 32 = w'.extractLsb' 72 32)) ∧
    (let w := 0x0004D8#24
     let w' := 0x000418#24
     w ≠ w' ∧ w.extractLsb' 0 4 = w'.extractLsb' 0 4 ∧ w.extractLsb' 4 2 = w'.extractLsb' 4 2 ∧
      w.extractLsb' 8 16 = w'.extractLsb' 8 16) ∧
    (0xFFFFF9#24 ≠ 0x000009#24 ∧ (0xFFFFF9#24).extractLsb' 0 4 = (0x000009#24).extractLsb' 0 4 ∧
      (0xFFFFF9#24).extractLsb' 0 4 ≠ 8#4) := by decide
theorem witness_ResponseWordsLoseNothing :
    cRspWord (plainC .fault) .fbBounds = cRspWord (plainC .fault) .fbBounds ∧
    (pRspWord (plainP cfgE .fault) .badKind = pRspWord (plainP cfgE20 .fault) .badKind ∧
      (plainP cfgE .fault).snap = (plainP cfgE20 .fault).snap) := by decide
theorem witness_IllFormedConfigurationIsRefused :
    ({ s0 with cfg := { cfgE with keyW := 17 } } : State).cfg.wf = false := by decide
/-- The first and the last pixel of Configuration E. -/
theorem witness_VramDecodeIsOneToOne : cfgE.wf = true ∧ vramMap cfgE 0x100 = .pixel 0 0 ∧
    vramMap cfgE 0x11C = .pixel 3 1 ∧ (0x100 : Nat) ≠ 0x11C := by decide
/-- The last pixel, the last byte of the range, the slot past the last column, both ends outside. -/
theorem witness_VramRangeLiesInTheImage :
    (cfgE.wf = true ∧ 3 < cfgE.width ∧ 1 < cfgE.height ∧ 3 * cfgE.pixelBytes < cfgE.vramStride) ∧
    inVram cfgE 0x11F = true ∧ (cfgE20.wf = true ∧ vramMap cfgE20 0x110 = .outOfFb) ∧
    vramMap cfgE 0xFF = .notVram ∧ vramMap cfgE 0x120 = .notVram := by decide

/-! ## Witnesses: operations -/

theorem witness_IdleChangesNothing : (ReqWord.c 0x10#104).op = 0 ∧ (ReqWord.p 0xFFFFF0#24).op = 0 := by decide
theorem witness_TakeChecksClearsAndReturns :
    pendingReq (pendC 0x01#104 s0).block .c ≠ none ∧ (pendC 0x01#104 s0).block.gMb = none ∧
    (pendC 0x01#104 s0).block.mbOcc = false ∧ (pendC 0x01#104 (slot .pressed 4 s0)).block.mbOcc = true := by decide
/-- The last pixel, and x = W, y = H. -/
theorem witness_SetWritesOnePixelOrFaults :
    (let s := pendC 0x02#104 s0
     pendingReq s.block .c ≠ none ∧ (3 : Coord).toNat < s.cfg.width ∧ (1 : Coord).toNat < s.cfg.height ∧
      s.block.gFb = none ∧ s.cfg.width ≤ (4 : Coord).toNat ∧ s.cfg.height ≤ (2 : Coord).toNat) := by decide
theorem witness_GetReadsOnePixelOrFaults :
    (let s := pendC 0x03#104 s0
     pendingReq s.block .c ≠ none ∧ (3 : Coord).toNat < s.cfg.width ∧ (1 : Coord).toNat < s.cfg.height ∧
      s.cfg.width ≤ (4 : Coord).toNat ∧ s.cfg.height ≤ (2 : Coord).toNat) := by decide
/-- V6, V7; V8; V11; V3: one address for each clause, at the ends of the range. -/
theorem witness_VstoreFollowsTheVramDecode :
    (let s := pendC 0x04#104 s0
     let k := s.cfg
     pendingReq s.block .c ≠ none ∧
      ¬ (k.vramBase ≤ 0xFF ∧ 0xFF < k.vramBase + k.vramStride * k.height) ∧
      ¬ (k.vramBase ≤ 0x120 ∧ 0x120 < k.vramBase + k.vramStride * k.height) ∧
      (k.vramBase ≤ 0x102 ∧ 0x102 < k.vramBase + k.vramStride * k.height ∧
        (0x102 - k.vramBase) % k.vramStride % k.pixelBytes ≠ 0) ∧
      (k.vramBase ≤ 0x11C ∧ 0x11C < k.vramBase + k.vramStride * k.height ∧
        (0x11C - k.vramBase) % k.vramStride % k.pixelBytes = 0 ∧
        (0x11C - k.vramBase) % k.vramStride / k.pixelBytes < k.width ∧ s.block.gFb = none)) ∧
    (let k := s20.cfg
     k.vramBase ≤ 0x110 ∧ 0x110 < k.vramBase + k.vramStride * k.height ∧
      (0x110 - k.vramBase) % k.vramStride % k.pixelBytes = 0 ∧
      k.width ≤ (0x110 - k.vramBase) % k.vramStride / k.pixelBytes) := by decide
theorem witness_SnapshotCopiesTheWholeGrid :
    pendingReq (pendP 0x000009#24 s0).block .p ≠ none ∧ (pendP 0x000009#24 s0).block.gFb = none := by decide
theorem witness_PublishOverwritesTheSlotOrFaults :
    pendingReq (pendP 0x000418#24 s0).block .p ≠ none ∧ (pendP 0x000418#24 s0).block.gMb = none ∧
    (KindField.none = .none ∨ KindField.none = .reserved) := by decide
theorem witness_ShutdownMoveAssertsTheSignal :
    (∃ t, runMove x0 (.shutdown true false) s0 = .next t ∧ t.host.shutC ≠ s0.host.shutC) ∧
    (let s : State := { s0 with host := { s0.host with shutC := true, shutP := true } }
     s.host.shutC = true ∧ s.host.shutP = true ∧ ∃ t, runMove x0 (.shutdown false true) s = .next t) :=
  ⟨⟨_, rfl, by decide⟩, rfl, rfl, _, rfl⟩
theorem witness_OperationsLeaveTheClientsAndTheOtherPort :
    (∃ t, exec (.set 3 1 7) (pendC 0x02#104 s0) = .next t) ∧ (∃ t, exec .snapshot (pendP 0x000009#24 s0) = .next t) :=
  ⟨⟨_, rfl⟩, ⟨_, rfl⟩⟩
/-- A SET, a VSTORE to a pixel and a VSTORE outside the range. -/
theorem witness_FrameBufferWritesChangeOnePixel :
    (∃ t, exec (.set 3 1 7) (pendC 0x02#104 s0) = .next t) ∧
    (∃ t, exec (.vstore 0x11C 7) (pendC 0x04#104 s0) = .next t ∧ vramMap s0.cfg (0x11C : Addr).toNat ≠ .pixel 0 0) ∧
    (∃ t, exec (.vstore 0xFF 7) (pendC 0x04#104 s0) = .next t ∧
      ∀ x y, vramMap s0.cfg (0xFF : Addr).toNat ≠ .pixel x y) :=
  ⟨⟨_, rfl⟩, ⟨_, rfl, by decide⟩, ⟨_, rfl, fun x y h => by
    rw [show vramMap s0.cfg (0xFF : Addr).toNat = .notVram by decide] at h; cases h⟩⟩
theorem witness_OtherOperationsLeaveTheFrameBuffer :
    (∃ t, exec (.get 3 1) (pendC 0x03#104 s0) = .next t ∧ s0.block.gFb = none ∧ s0.block.gMb = none) ∧
    (∃ t, exec (.take false) (pendC 0x01#104 (slot .pressed 4 s0)) = .next t) ∧
    (∃ t, exec (.publish .pressed 4) (pendP 0x000418#24 s0) = .next t) :=
  ⟨⟨_, rfl, rfl, rfl⟩, ⟨_, rfl⟩, ⟨_, rfl⟩⟩
theorem witness_FaultingOperationWritesOnlyItsRegister :
    (∃ t, exec (.set 4 0 0) (pendC 0x02#104 s0) = .next t ∧ (Instr.set 4 0 0).isIdle = false ∧
      answered t.block (Instr.set 4 0 0).port = some .fault) ∧
    (∃ t, exec (.publish .none 1) (pendP 0x000108#24 s0) = .next t ∧
      answered t.block (Instr.publish .none 1).port = some .fault) :=
  ⟨⟨_, rfl, rfl, rfl⟩, ⟨_, rfl, rfl⟩⟩

/-! ## Witnesses: the step and the handshake -/

theorem witness_StepRunsTheDecodedInstruction :
    (let s := lined [.perform .c] (pendC 0x02#104 s0)
     s.cfg.wf = true ∧ s.host.sched = [.perform .c] ∧ pendingReq s.block .c = some (.c 0x02#104) ∧
      decode (.c 0x02#104) = .ok (.set 0 0 0) ∧ (Instr.set 0 0 0).wf s.cfg = true) ∧
    (let s := lined [.present (.p 0#24)] s0
     s.host.sched = [.present (.p 0#24)] ∧ decode (.p 0#24) = .ok (.idle .p) ∧ (Instr.idle .p).isIdle = true) ∧
    s0.host.sched = [] := by decide
/-- The ends of the illegal ranges on both ports. -/
theorem witness_UnadmittedOpFaultsBadOp :
    (∀ w ∈ [0x05#104, 0x08#104, 0x0F#104],
      let s := lined [.perform .c] (pendC w s0)
      s.cfg.wf = true ∧ s.host.sched = [.perform .c] ∧ s.block.cPort = .pending w ∧
        (w.extractLsb' 0 4).toNat ∈ [0x5, 0x6, 0x7, 0x8, 0x9, 0xA, 0xB, 0xC, 0xD, 0xE, 0xF]) ∧
    (∀ w ∈ [0x000001#24, 0x000007#24, 0x00000A#24, 0x00000F#24],
      let s := lined [.perform .p] (pendP w s0)
      s.cfg.wf = true ∧ s.host.sched = [.perform .p] ∧ s.block.pPort = .pending w ∧
        (w.extractLsb' 0 4).toNat ∈ [0x1, 0x2, 0x3, 0x4, 0x5, 0x6, 0x7, 0xA, 0xB, 0xC, 0xD, 0xE, 0xF]) := by
  constructor <;> intro w hw <;> simp only [List.mem_cons, List.mem_nil_iff, or_false] at hw
  · rcases hw with rfl | rfl | rfl <;> exact ⟨rfl, rfl, rfl, by decide⟩
  · rcases hw with rfl | rfl | rfl | rfl <;> exact ⟨rfl, rfl, rfl, by decide⟩
/-- K8; V16; an illegal request past KEY_W; a store of the consumer past ADDR_W. -/
theorem witness_RefusalsHaveTheirReasons :
    (let s := cpuAt .fetch 0x100 [] sAct
     Invariant s ∧ runMove x0 .consumer s = .refused .vramRead) ∧
    (Invariant s0 ∧ runMove x0 (.present (.c 0x00010000000000010000000004#104)) s0 = .refused .fieldWidth) ∧
    (Invariant s0 ∧ runMove x0 (.present (.p 0x01000F#24)) s0 = .refused .fieldWidth) ∧
    (let s := holding .execute { len := 7, reads := [], cpu := 0, ie := false, action := .store 0x10000 4 1 .seq }
       sAct
     Invariant s ∧ runMove x0 .consumer s = .refused .fieldWidth) :=
  ⟨⟨invariant_of_check (by decide), rfl⟩, ⟨invariant_of_check (by decide), rfl⟩,
    ⟨invariant_of_check (by decide), rfl⟩, ⟨invariant_of_check (by decide), rfl⟩⟩
theorem witness_OverWideOperandIsRefusedAtIssue :
    (clientOf s0.cfg .c = .free ∧ isIdlePort s0.block .c = true ∧
      decode (.c 0x00010000000000010000000004#104) = .ok (.vstore 0x10000 1) ∧
      2 ^ s0.cfg.addrW ≤ (0x10000 : Addr).toNat) ∧
    (clientOf s0.cfg .p = .free ∧ isIdlePort s0.block .p = true ∧
      decode (.p 0x010018#24) = .ok (.publish .pressed 0x100) ∧ 2 ^ s0.cfg.keyW ≤ (0x100 : KeyCode).toNat) ∧
    (let w := 0x00010000000000000000000008#104
     decode (.c w) = .error (.badOp .c 8) ∧ 2 ^ s0.cfg.addrW ≤ (w.extractLsb' 72 32).toNat) ∧
    (let w := 0x010001#24
     decode (.p w) = .error (.badOp .p 1) ∧ 2 ^ s0.cfg.keyW ≤ (w.extractLsb' 8 16).toNat) :=
  ⟨⟨by decide, by decide, by decide, Nat.le_of_eq rfl⟩, ⟨by decide, by decide, by decide, Nat.le_of_eq rfl⟩,
    ⟨by decide, Nat.le_of_eq rfl⟩, ⟨by decide, Nat.le_of_eq rfl⟩⟩
/-- A legal request on port C, an illegal one on each port at the last value of its bounded field. -/
theorem witness_IssueCapturesTheRequest :
    (clientOf s0.cfg .c = .free ∧ isIdlePort s0.block .c = true ∧ (ReqWord.c 0x02#104).op ≠ 0 ∧
      decode (.c 0x02#104) = .ok (.set 0 0 0) ∧ (Instr.set 0 0 0).wf s0.cfg = true) ∧
    (clientOf s0.cfg .p = .free ∧ isIdlePort s0.block .p = true ∧ (ReqWord.p 0x00FF01#24).op ≠ 0 ∧
      decode (.p 0x00FF01#24) = .error (.badOp .p 1) ∧ (0x00FF01#24).extractLsb' 8 16 = 0xFF#16 ∧
      s0.cfg.keyW = 8) ∧
    (decode (.c 0x0000FFFF000000000000000008#104) = .error (.badOp .c 8) ∧
      (0x0000FFFF000000000000000008#104).extractLsb' 72 32 = 0xFFFF#32 ∧ s0.cfg.addrW = 16) := by decide
theorem witness_PendingRequestIsStable :
    (let s := pendC 0x02#104 (pendP 0x000009#24 s0)
     pendingReq s.block .c = some (.c 0x02#104) ∧ Move.perform .p ≠ .perform .c ∧
      ∃ t, runMove x0 (.perform .p) s = .next t) :=
  ⟨rfl, by decide, _, rfl⟩
theorem witness_RetireStopsThePortOnFault :
    s0.cfg.cClient = .free ∧ s0.cfg.pClient = .free ∧ s0.cons.run = .running ∧ s0.prod.run = .running ∧
    (let s := doneC (plainC .fault) s0
     ∃ t, runMove x0 (.retire .c) s = .next t ∧ s.block.cPort = .done (plainC .fault) ∧
      t.block.cPort ≠ .done (plainC .fault)) ∧
    (let s := doneP (plainP cfgE .ok) s0
     ∃ t, runMove x0 (.retire .p) s = .next t ∧ s.block.pPort = .done (plainP cfgE .ok) ∧
      t.block.pPort ≠ .done (plainP cfgE .ok)) ∧
    (let s := doneP (plainP cfgE .fault) s0
     ∃ t, runMove x0 (.retire .p) s = .next t ∧ s.block.pPort = .done (plainP cfgE .fault) ∧
      t.block.pPort ≠ .done (plainP cfgE .fault)) :=
  ⟨rfl, rfl, rfl, rfl, ⟨_, rfl, rfl, by decide⟩, ⟨_, rfl, rfl, by decide⟩, ⟨_, rfl, rfl, by decide⟩⟩
theorem witness_StoppedPortStaysStopped :
    (let s : State := { s0 with block := { s0.block with cPort := .stopped, cFault := .fbBounds } }
     isStopped s.block .c = true ∧ ∃ t, runMove x0 (.present (.c 0x02#104)) s = .next t) :=
  ⟨rfl, _, rfl⟩
/-- The perform of F3 changes the register; a set register of a stopped port stands. -/
theorem witness_FaultRegistersAreSticky :
    (let s := pendC 0x00000000000000000000000402#104 s0
     ∃ t, runMove x0 (.perform .c) s = .next t ∧ faultOf t.block .c ≠ faultOf s.block .c) ∧
    (let s : State := { s0 with
       block := { s0.block with cPort := .stopped, cFault := .fbBounds }
       cons := { s0.cons with run := .fatal (.block .fbBounds) } }
     Invariant s ∧ faultOf s.block .c ≠ .none ∧ ∃ t, runMove x0 (.perform .c) s = .next t) :=
  ⟨⟨_, rfl, by decide⟩, ⟨invariant_of_check (by decide), by decide, _, rfl⟩⟩
theorem witness_OnlyPortCWritesTheFrameBuffer :
    (let s := pendC 0x00000000112233440001000302#104 s0
     ∃ t, runMove x0 (.perform .c) s = .next t ∧ t.block.fb ≠ s.block.fb) :=
  ⟨_, rfl, by decide⟩
theorem witness_OnlyPublishPostsAndOnlyTakeClears :
    (let s := pendP 0x000418#24 s0
     ∃ t, runMove x0 (.perform .p) s = .next t ∧ t.block.mbKind ≠ s.block.mbKind ∧
      s.block.mbOcc = false ∧ t.block.mbOcc = true) ∧
    (let s := pendC 0x01#104 (slot .pressed 4 s0)
     ∃ t, runMove x0 (.perform .c) s = .next t ∧ s.block.mbOcc = true ∧ t.block.mbOcc = false) :=
  ⟨⟨_, rfl, by decide, rfl, rfl⟩, ⟨_, rfl, rfl, rfl⟩⟩
theorem witness_OnlyThePlainStoreWritesTheImage :
    (let s := doneC (plainC .notVram) (holding .execute
       { len := 7, reads := [], cpu := 0, ie := false, action := .store 0x180 4 0x12345678 .seq } sAct)
     ∃ t, runMove x0 .consumer s = .next t ∧ t.cons.mem ≠ s.cons.mem) :=
  ⟨_, rfl, by decide⟩
theorem witness_MemoryWritesReadBack :
    Memory.wf [(0x180, 0x78)] = true ∧ ([7, 0] : List Byte)[1]? = some 0 ∧
    (0x17F < 0x180 ∨ 0x180 + ([7, 0] : List Byte).length ≤ 0x17F) ∧
    (0x182 < 0x180 ∨ 0x180 + ([7, 0] : List Byte).length ≤ 0x182) := by decide

/-! ## Witnesses: runs -/

/-- L1.3, with the handshake between the two performs. -/
theorem witness_GetReturnsTheLastColourWritten :
    (let s := pendC 0x00000000FFFFFFFF0001000202#104 s0
     let t := ran x0 [.perform .c] s
     let ms := [.retire .c, .present (.c 0x00000000000000000001000203#104)]
     let u := ran x0 ms t
     Invariant s ∧ performed (.perform .c) s = some (.set 2 1 0xFFFFFFFF) ∧
      writtenPixel s.cfg (.set 2 1 0xFFFFFFFF) = some ((2 : Coord).toNat, (1 : Coord).toNat, 0xFFFFFFFF) ∧
      runMove x0 (.perform .c) s = .next t ∧
      along x0 (fun m w => ∀ j, performed m w = some j →
        ∀ d, writtenPixel w.cfg j ≠ some ((2 : Coord).toNat, (1 : Coord).toNat, d)) ms t ∧
      runMoves x0 ms t = .next u ∧ performed (.perform .c) u = some (.get 2 1)) :=
  ⟨invariant_of_check (by decide), by decide, by decide, rfl,
    ⟨fun _ h => (by cases h), fun _ _ => ⟨fun _ h => (by cases h), fun _ _ => trivial⟩⟩, rfl, by decide⟩
/-- S2. -/
theorem witness_SnapshotShowsExactlyTheWritesBeforeIt :
    (let ms := [.present (.c 0x00000000000000050000000102#104), .perform .c, .present (.p 0x000009#24)]
     let t := ran x0 ms s0
     cfgE.wf = true ∧ Memory.wf bootE.image = true ∧ Memory.within cfgE.memSize bootE.image = true ∧
      runMoves x0 ms (State.resetOf cfgE bootE) = .next t ∧ performed (.perform .p) t = some .snapshot ∧
      performedAll x0 ms (State.resetOf cfgE bootE) = [.set 1 0 5]) :=
  ⟨by decide, by decide, by decide, rfl, by decide, by decide⟩
/-- L1.7. -/
theorem witness_TakeReturnsTheLatestPublished :
    (let s := pendP 0x000418#24 s0
     let t := ran x0 [.perform .p] s
     let ms := [.retire .p, .present (.c 0x01#104)]
     let u := ran x0 ms t
     Invariant s ∧ performed (.perform .p) s = some (.publish (edgeField .pressed) 4) ∧
      runMove x0 (.perform .p) s = .next t ∧
      along x0 (fun m w => ∀ j, performed m w = some j → posts j = false ∧ isTake j = false) ms t ∧
      runMoves x0 ms t = .next u ∧ performed (.perform .c) u = some (.take false)) :=
  ⟨invariant_of_check (by decide), by decide, rfl,
    ⟨fun _ h => (by cases h), fun _ _ => ⟨fun _ h => (by cases h), fun _ _ => trivial⟩⟩, rfl, by decide⟩
theorem witness_TakeTwiceReturnsEventThenNothing :
    (let s := pendC 0x11#104 (slot .pressed 4 s0)
     let t := ran x0 [.perform .c] s
     let ms := [.retire .c, .present (.c 0x01#104)]
     let u := ran x0 ms t
     Invariant s ∧ performed (.perform .c) s = some (.take true) ∧ s.block.mbOcc = true ∧
      runMove x0 (.perform .c) s = .next t ∧
      along x0 (fun m w => ∀ j, performed m w = some j → posts j = false) ms t ∧
      runMoves x0 ms t = .next u ∧ performed (.perform .c) u = some (.take false)) :=
  ⟨invariant_of_check (by decide), by decide, rfl, rfl,
    ⟨fun _ h => (by cases h), fun _ _ => ⟨fun _ h => (by cases h), fun _ _ => trivial⟩⟩, rfl, by decide⟩
theorem witness_PerformsOnDifferentResourcesCommute :
    (let s := pendC 0x11#104 (pendP 0x000009#24 s0)
     Invariant s ∧ performed (.perform .c) s = some (.take true) ∧ performed (.perform .p) s = some .snapshot ∧
      isTake (.take true) = true) ∧
    (let s := pendC 0x02#104 (pendP 0x000418#24 s0)
     Invariant s ∧ performed (.perform .c) s = some (.set 0 0 0) ∧
      performed (.perform .p) s = some (.publish .pressed 4) ∧ isTake (.set 0 0 0) = false) :=
  ⟨⟨invariant_of_check (by decide), by decide, by decide, rfl⟩,
    ⟨invariant_of_check (by decide), by decide, by decide, rfl⟩⟩
theorem witness_FairOrderPerformsEveryRequest :
    (let order (n : Nat) : Move :=
       if n % 4 = 0 then .consumer else if n % 4 = 1 then .producer [] true
       else if n % 4 = 2 then .perform .c else .perform .p
     Fair sAct.cfg order) ∧
    (Invariant (pendP 0x000009#24 sAct) ∧ pendingReq (pendP 0x000009#24 sAct).block .p ≠ none) ∧
    (Invariant (doneC (plainC .noEvent) sAct) ∧ agentRunning (doneC (plainC .noEvent) sAct) .c = true ∧
      answered (doneC (plainC .noEvent) sAct).block .c ≠ none) := by
  refine ⟨?_, ⟨invariant_of_check (by decide), by decide⟩, ⟨invariant_of_check (by decide), by decide, by decide⟩⟩
  intro order port
  have h0 (n : Nat) : order (4 * n) = .consumer := by simp [order]
  have h1 (n : Nat) : order (4 * n + 1) = .producer [] true := by simp [order, show (4 * n + 1) % 4 = 1 by omega]
  have h2 (n : Nat) : order (4 * n + 2) = .perform .c := by simp [order, show (4 * n + 2) % 4 = 2 by omega]
  have h3 (n : Nat) : order (4 * n + 3) = .perform .p := by simp [order, show (4 * n + 3) % 4 = 3 by omega]
  cases port
  · exact ⟨fun n => ⟨4 * n + 2, by omega, h2 n⟩, fun n => ⟨4 * n, by omega, by rw [h0]; rfl⟩⟩
  · exact ⟨fun n => ⟨4 * n + 3, by omega, h3 n⟩, fun n => ⟨4 * n + 1, by omega, by rw [h1]; rfl⟩⟩
/-- The same for free agents, whose retires an order gives. -/
theorem witness_FairOrderPerformsEveryRequest_free :
    (let order (n : Nat) : Move :=
       if n % 4 = 0 then .retire .c else if n % 4 = 1 then .retire .p
       else if n % 4 = 2 then .perform .c else .perform .p
     Fair s0.cfg order) ∧ Invariant (doneP (plainP cfgE .ok) s0) ∧
    agentRunning (doneP (plainP cfgE .ok) s0) .p = true ∧ answered (doneP (plainP cfgE .ok) s0).block .p ≠ none := by
  refine ⟨?_, invariant_of_check (by decide), by decide, by decide⟩
  intro order port
  have h0 (n : Nat) : order (4 * n) = .retire .c := by simp [order]
  have h1 (n : Nat) : order (4 * n + 1) = .retire .p := by simp [order, show (4 * n + 1) % 4 = 1 by omega]
  have h2 (n : Nat) : order (4 * n + 2) = .perform .c := by simp [order, show (4 * n + 2) % 4 = 2 by omega]
  have h3 (n : Nat) : order (4 * n + 3) = .perform .p := by simp [order, show (4 * n + 3) % 4 = 3 by omega]
  cases port
  · exact ⟨fun n => ⟨4 * n + 2, by omega, h2 n⟩, fun n => ⟨4 * n, by omega, by rw [h0]; rfl⟩⟩
  · exact ⟨fun n => ⟨4 * n + 3, by omega, h3 n⟩, fun n => ⟨4 * n + 1, by omega, by rw [h1]; rfl⟩⟩

/-! ## Witnesses: the consumer -/

theorem witness_InputCheckTakesInEveryCycle :
    (sAct.cfg.cClient = .activity ∧ sAct.cons.run = .running ∧ sAct.cons.checkDue = false ∧
      sAct.cons.phase = .inputCheck ∧ sAct.block.cPort = .idle) ∧
    (doneC (plainC .noEvent) sAct).block.cPort = .done (plainC .noEvent) ∧ (plainC .noEvent).st = .noEvent := by decide
theorem witness_EventUpdatesTheKeyboardStatus :
    (let r : CRsp := { plainC .event with rkind := .pressed, rcode := 4 }
     let s := doneC r sAct
     s.cfg.cClient = .activity ∧ s.cons.run = .running ∧ s.cons.checkDue = false ∧ s.cons.phase = .inputCheck ∧
      s.block.cPort = .done r ∧ r.st = .event ∧ r.irq = false) := by decide
/-- A target at MEM_SIZE − 1 and one at MEM_SIZE. -/
theorem witness_InterruptJumpsThroughTheVector : ∀ target ∈ [0x1FF, 0x200],
    (let r : CRsp := { plainC .event with irq := true, rkind := .pressed, rcode := 4 }
     let s := doneC r (vector target sAct)
     s.cfg.cClient = .activity ∧ s.cons.run = .running ∧ s.cons.checkDue = false ∧ s.cons.phase = .inputCheck ∧
      s.block.cPort = .done r ∧ r.st = .event ∧ r.irq = true ∧
      natOfBytes (Memory.readAll s.cons.mem s.cfg.vectorAddr s.cfg.vecBytes) = target ∧
      s.cfg.vecEndian = .little) := by decide
/-- K6, K7, K8, L1.6, and a load at the last byte of the image and past it. -/
theorem witness_FetchFollowsTheIsaAnswer :
    (let s := cpuAt .fetch 0x1FE [2] sAct
     s.cfg.cClient = .activity ∧ s.cons.run = .running ∧ s.cons.checkDue = false ∧ s.cons.phase = .fetch ∧
      x0.step s.cfg s.cons.cpu s.cons.mem s.cons.pc s.cons.ie = .fetchOob ∧ vramHi s.cfg ≤ s.cons.pc) ∧
    (let s := cpuAt .fetch 0 [7] sAct
     x0.step s.cfg s.cons.cpu s.cons.mem s.cons.pc s.cons.ie = .isaFault ∧ inVram s.cfg s.cons.pc = false) ∧
    (let s := cpuAt .fetch 0x11F [7] sAct
     x0.step s.cfg s.cons.cpu s.cons.mem s.cons.pc s.cons.ie = .isaFault ∧ inVram s.cfg s.cons.pc = true) ∧
    (let isa : Isa := { x0 with step := fun _ _ _ _ _ => .fetchOob }
     let s := cpuAt .fetch 0x11F [] sAct
     isa.step s.cfg s.cons.cpu s.cons.mem s.cons.pc s.cons.ie = .fetchOob ∧ s.cfg.wf = true ∧
      s.cons.pc < vramHi s.cfg) ∧
    (∀ a ∈ [0x100, 0x11F, 0x1FF, 0x200],
      let r : IsaRecord := { len := 1, reads := [a], cpu := 0, ie := false, action := .seq }
      let isa : Isa := { x0 with step := fun _ _ _ _ _ => .record r }
      let s := cpuAt .fetch 0xFF [] sAct
      isa.step s.cfg s.cons.cpu s.cons.mem s.cons.pc s.cons.ie = .record r ∧
        inVram s.cfg 0xFF = false ∧ inVram s.cfg a = decide (a < 0x120)) := by decide
theorem witness_ExecuteAppliesEffectsAndIssuesStores :
    (let r : IsaRecord := { len := 1, reads := [], cpu := 0, ie := true, action := .seq }
     let s := holding .execute r sAct
     s.cfg.cClient = .activity ∧ s.cons.run = .running ∧ s.cons.checkDue = false ∧ s.cons.phase = .execute ∧
      s.cons.fetched = some r ∧ ∀ a n v nx, r.action ≠ .store a n v nx) ∧
    (let r : IsaRecord := { len := 7, reads := [], cpu := 0, ie := false, action := .store 0xFFFF 4 1 .seq }
     let s := holding .execute r sAct
     s.cons.fetched = some r ∧ r.action = .store 0xFFFF 4 1 .seq ∧ s.block.cPort = .idle ∧
      (0xFFFF : Addr).toNat < 2 ^ s.cfg.addrW ∧ 2 ^ s.cfg.addrW ≤ (0x10000 : Addr).toNat) :=
  ⟨⟨rfl, rfl, rfl, rfl, rfl, fun _ _ _ _ h => by cases h⟩, ⟨rfl, rfl, rfl, by decide, Nat.le_of_eq rfl⟩⟩
/-- One answer for each clause: the last place where n bytes fit, and the first where they do not. -/
theorem witness_StoreAnswerDecidesTheImageWrite :
    (∀ a ∈ [(0x1FC : Addr), 0x1FD], ∀ st ∈ [Status.ok, .notVram, .fault],
      let r : IsaRecord := { len := 7, reads := [], cpu := 0, ie := false, action := .store a 4 1 .seq }
      let s := doneC (plainC st) (holding .execute r sAct)
      s.cfg.cClient = .activity ∧ s.cons.run = .running ∧ s.cons.checkDue = false ∧ s.cons.phase = .execute ∧
        s.cons.fetched = some r ∧ s.block.cPort = .done (plainC st) ∧ (plainC st).st = st) ∧
    ((0x1FC : Addr).toNat < sAct.cfg.memSize ∧ (0x1FC : Addr).toNat + 4 ≤ sAct.cfg.memSize) ∧
    sAct.cfg.memSize < (0x1FD : Addr).toNat + 4 ∧ sAct.cfg.memSize ≤ (0x200 : Addr).toNat + 0 :=
  ⟨fun _ _ _ _ => ⟨rfl, rfl, rfl, rfl, rfl, rfl, rfl⟩, ⟨by decide, Nat.le_of_eq rfl⟩, Nat.le_of_eq rfl,
    Nat.le_of_eq rfl⟩
/-- The last advance inside the image and the first outside it; the same for a target; a halt. -/
theorem witness_AdvanceMovesOrEnds :
    (∀ action ∈ [IsaAction.seq, .jump 0x1FF, .jump 0x200, .halt, .store 0x100 4 1 (.jump 0x200)],
      ∀ pc ∈ [0x1FE, 0x1FF],
      let r : IsaRecord := { len := 1, reads := [], cpu := 0, ie := false, action := action }
      let s := holding .advance r (cpuAt .advance pc [] sAct)
      s.cfg.cClient = .activity ∧ s.cons.run = .running ∧ s.cons.checkDue = false ∧ s.cons.phase = .advance ∧
        s.cons.fetched = some r) ∧
    0x1FE + 1 < sAct.cfg.memSize ∧ sAct.cfg.memSize ≤ 0x1FF + 1 ∧ 0x1FF < sAct.cfg.memSize ∧
    sAct.cfg.memSize ≤ 0x200 := by decide
theorem witness_ShutdownIsSeenBetweenCycles :
    (let s : State := { sAct with cons := { sAct.cons with checkDue := true }, host := { sAct.host with shutC := true } }
     s.cfg.cClient = .activity ∧ s.cons.run = .running ∧ s.cons.checkDue = true) ∧
    sAct.cons.checkDue = false ∧ (∃ t, runMove x0 .consumer sAct = .next t) ∧
    (Move.shutdown true false ≠ .consumer ∧ ∃ t, runMove x0 (.shutdown true false) sAct = .next t) ∧
    ({ sAct with cons := { sAct.cons with run := .shutdown } } : State).cons.run = .shutdown :=
  ⟨⟨rfl, rfl, rfl⟩, rfl, ⟨_, rfl⟩, ⟨by decide, _, rfl⟩, rfl⟩
/-- A dispatch, an EI in Execute, an EVENT. -/
theorem witness_ConsumerRegistersChangeOnlyInTheirPhases :
    (let s := doneC { plainC .event with irq := true, rkind := .pressed, rcode := 4 } (vector 0x10 sAct)
     ∃ t, runMove x0 .consumer s = .next t ∧ t.cons.pc ≠ s.cons.pc ∧ t.cons.kbd ≠ s.cons.kbd) ∧
    (let s := holding .execute { len := 1, reads := [], cpu := 0, ie := true, action := .seq } sAct
     ∃ t, runMove x0 .consumer s = .next t ∧ t.cons.ie ≠ s.cons.ie) ∧
    (let s := holding .advance { len := 1, reads := [], cpu := 0, ie := true, action := .seq } sAct
     ∃ t, runMove x0 .consumer s = .next t ∧ t.cons.pc ≠ s.cons.pc) :=
  ⟨⟨_, rfl, by decide, by decide⟩, ⟨_, rfl, by decide⟩, ⟨_, rfl, by decide⟩⟩
/-- A snapshot performed after the consumer's end. -/
theorem witness_EndedRunKeepsItsObservation :
    (let s : State := { pendP 0x000009#24 sAct with cons := { sAct.cons with run := .endedHalt } }
     s.cfg.cClient = .activity ∧ Ended s ∧ ∃ t, runMoves x0 [.perform .p, .consumer] s = .next t) :=
  ⟨rfl, ⟨by decide, .inl rfl⟩, _, rfl⟩

/-! ## Witnesses: the producer, isolation, the invariant -/

/-- One state for each phase of the tick. -/
theorem witness_ProducerTickFollowsItsPhases :
    (sAct.cfg.pClient = .activity ∧ sAct.prod.run = .running ∧ sAct.prod.phase = .snapshot ∧
      sAct.block.pPort = .idle) ∧
    ((doneP (plainP cfgE .ok) sAct).block.pPort = .done (plainP cfgE .ok) ∧ (plainP cfgE .ok).st ≠ .fault) ∧
    (prodAt .present none sAct).prod.phase = .present ∧
    (let s := prodAt .input (some [⟨.pressed, 0xFF⟩]) sAct
     s.cfg.pClient = .activity ∧ s.prod.run = .running ∧ s.prod.phase = .input ∧
      s.prod.todo = some [⟨.pressed, 0xFF⟩] ∧ s.block.pPort = .idle ∧ (0xFF : KeyCode).toNat < 2 ^ s.cfg.keyW) ∧
    (let s := prodAt .input (some [⟨.pressed, 0x100⟩]) sAct
     s.prod.todo = some [⟨.pressed, 0x100⟩] ∧ s.block.pPort = .idle ∧ s.cfg.keyW = 8 ∧
      (0x100 : KeyCode).toNat = 2 ^ 8) ∧
    ((pendP 0x000009#24 sAct).block.pPort = .pending 0x000009#24 ∧
      (pendP 0x000418#24 (prodAt .input (some [⟨.pressed, 4⟩]) sAct)).block.pPort = .pending 0x000418#24) ∧
    (prodAt .input none sAct).prod.todo = none ∧ (prodAt .input (some []) sAct).prod.todo = some [] ∧
    (prodAt .sleep none sAct).prod.phase = .sleep := by decide
theorem witness_SnapshotCopyIsImmutable :
    (let s := doneP { st := .ok, snap := [[0, 5, 0, 0], [0, 0, 0, 0]] } sAct
     ∃ t, runMove x0 (.producer [] true) s = .next t ∧ t.prod.lastSnap ≠ s.prod.lastSnap) :=
  ⟨_, rfl, by decide⟩
theorem witness_ConsumerReachesSharedStateOnlyByItsPort :
    (∃ t, runMove x0 .consumer sAct = .next t) ∧
    (let b : Block := { sAct.block with mbOcc := true, fb := [] }
     b.cPort = sAct.block.cPort ∧ b.cFault = sAct.block.cFault ∧ b ≠ sAct.block) :=
  ⟨⟨_, rfl⟩, by decide⟩
theorem witness_ConsumerEndStopsTheConsumerAlone :
    (let s : State := { sAct with cons := { sAct.cons with run := .fatal .isa } }
     s.cons.run ≠ .running ∧ Move.producer [] true ≠ .consumer ∧
      ∃ t, runMove x0 (.producer [] true) s = .next t ∧ t.block.pPort ≠ s.block.pPort) :=
  ⟨by decide, by decide, _, rfl, by decide⟩
theorem witness_ProducerFaultStopsTheProducerAlone :
    (let s := doneP (plainP cfgE .fault) sAct
     s.cfg.pClient = .activity ∧ s.prod.run = .running ∧ s.block.pPort = .done (plainP cfgE .fault) ∧
      (plainP cfgE .fault).st = .fault ∧ s.prod.phase = .snapshot) ∧
    (let s := prodAt .input (some [⟨.pressed, 1⟩]) sAct
     s.prod.phase = .input ∧ s.prod.todo = some [⟨.pressed, 1⟩]) ∧
    (∀ r ∈ [PRun.stopped, .shutdown], ({ sAct with prod := { sAct.prod with run := r } } : State).prod.run ≠ .running) :=
  by decide
/-- The producer's shutdown: the move of Sleep with the signal asserted. -/
theorem witness_ProducerTickFollowsItsPhases_shutdown :
    (let s : State := { prodAt .sleep none sAct with host := { sAct.host with shutP := true } }
     s.cfg.pClient = .activity ∧ s.prod.run = .running ∧
      ∃ t, runMove x0 (.producer [] true) s = .next t ∧ t.prod.run = .shutdown) :=
  ⟨rfl, rfl, _, rfl, rfl⟩
/-- A perform that writes a pixel, and one that faults. -/
theorem witness_StepKeepsTheInvariant : ∀ w ∈ [0x02#104, 0x00000000000000000000000402#104],
    Invariant (lined [.perform .c] (pendC w s0)) ∧ ∃ t, step (lined [.perform .c] (pendC w s0)) = .next t := by
  intro w hw
  simp only [List.mem_cons, List.mem_nil_iff, or_false] at hw
  rcases hw with rfl | rfl <;> exact ⟨invariant_of_check (by decide), _, rfl⟩
theorem witness_ResetMeetsTheInvariant :
    cfgE20.wf = true ∧ Memory.wf [(0, 1), (0x1FF, 2)] = true ∧
    Memory.within cfgE20.memSize [(0, 1), (0x1FF, 2)] = true := by decide
theorem witness_ResetLeavesTheStatedValues : 3 < cfgE.width ∧ 1 < cfgE.height := by decide

end Sys2Proof.Tests
end

section
/-! PROOF. The settled statements on the scope's configuration checks, the memory image and the plain store
(00_scope.md). -/

namespace Sys2Proof

/-! ### The memory image -/

/-- Each byte written reads back at its own address (00_scope.md R11). -/
theorem Memory.read_writeAll_getElem? {m : Memory} (h : Memory.wf m = true) {a j : Nat} {bs : List Byte} {b : Byte}
    (hb : bs[j]? = some b) : Memory.read (Memory.writeAll m a bs) (a + j) = b := by
  induction bs generalizing m a j with
  | nil => cases hb
  | cons b₀ bs ih =>
    rw [Memory.writeAll]
    cases j with
    | zero =>
      obtain rfl : b₀ = b := by simpa using hb
      rw [Memory.read_writeAll_outside _ (by omega), Memory.read_write h, if_pos (Nat.add_zero a)]
    | succ j =>
      rw [Nat.add_comm j 1, ← Nat.add_assoc]
      exact ih (Memory.wf_write h a b₀) (by simpa using hb)

/-- Settles O35: the bytes of a store by `Memory.storeBytes_perm`, the write by induction on its bytes. -/
theorem memoryWritesReadBack : Obligations.MemoryWritesReadBack :=
  ⟨Memory.storeBytes_perm, fun m a bs h =>
    ⟨Memory.wf_writeAll h a bs, fun _ _ => Memory.read_writeAll_getElem? h,
      fun _ => Memory.read_writeAll_outside m⟩⟩

/-! ### The checks of a configuration -/

/-- The nine checks of a well-formed configuration, by name. -/
theorem Config.wf_iff {k : Config} :
    k.wf = true ↔ k.fbSizeOk = true ∧ k.pixelOk = true ∧ k.vramInImage = true ∧ k.addrOk = true ∧
      k.vectorInImage = true ∧ k.vectorNotVram = true ∧ k.keysOk = true ∧ k.pixelBytesOk = true ∧
      k.keyWidthOk = true := by
  simp only [Config.wf, Bool.and_eq_true, and_assoc]

/-- `cfg_fb_size` as the bounds of 00_scope.md R8. -/
theorem Config.fbSizeOk_iff {k : Config} :
    k.fbSizeOk = true ↔ 1 ≤ k.width ∧ k.width ≤ 65536 ∧ 1 ≤ k.height ∧ k.height ≤ 65536 := by
  simp [Config.fbSizeOk, and_assoc]

/-- `cfg_pixel` as the bounds of 00_scope.md R8. -/
theorem Config.pixelOk_iff {k : Config} : k.pixelOk = true ↔ 1 ≤ k.pixelBytes ∧ k.pixelBytes ≤ k.vramStride := by
  simp [Config.pixelOk]

/-- `cfg_addr` as the bounds of 00_scope.md R8. -/
theorem Config.addrOk_iff {k : Config} :
    k.addrOk = true ↔ 1 ≤ k.addrW ∧ k.addrW ≤ 32 ∧ 1 ≤ k.memSize ∧ k.memSize ≤ 2 ^ k.addrW := by
  simp [Config.addrOk, and_assoc]

/-- `cfg_vector_in_image` as the bounds of 00_scope.md R8. -/
theorem Config.vectorInImage_iff {k : Config} :
    k.vectorInImage = true ↔ 1 ≤ k.vecBytes ∧ k.vectorAddr + k.vecBytes ≤ k.memSize := by
  simp [Config.vectorInImage]

/-- Where the vector and the VRAM range hold a byte each, `cfg_vector_not_vram` says that they do not meet. -/
theorem Config.vectorNotVram_iff_not_meetsVram {k : Config} (hv : 1 ≤ k.vecBytes) (hr : 1 ≤ k.vramStride * k.height) :
    k.vectorNotVram = true ↔ ¬ Machine.meetsVram k k.vectorAddr (k.vectorAddr + k.vecBytes) = true := by
  simp only [Config.vectorNotVram, Machine.meetsVram, Bool.or_eq_true, decide_eq_true_eq]
  rw [Machine.vramHi]
  omega

/-- `cfg_vector_not_vram` address by address (00_scope.md R8). -/
theorem Config.vectorNotVram_iff {k : Config} (hv : 1 ≤ k.vecBytes) (hr : 1 ≤ k.vramStride * k.height) :
    k.vectorNotVram = true ↔ ∀ a, k.vectorAddr ≤ a → a < k.vectorAddr + k.vecBytes →
      ¬ (k.vramBase ≤ a ∧ a < k.vramBase + k.vramStride * k.height) := by
  rw [Config.vectorNotVram_iff_not_meetsVram hv hr, Machine.meetsVram_iff]
  simp only [Machine.inVram_iff, not_exists, not_and]

/-- `cfg_keys` as distinctness and bound of the five codes (00_scope.md R8). -/
theorem Config.keysOk_iff {k : Config} :
    k.keysOk = true ↔ k.keys.Pairwise (· ≠ ·) ∧ ∀ c ∈ k.keys, c < 2 ^ k.keyW := by
  simp only [Config.keysOk, Bool.and_eq_true, decide_eq_true_eq, List.all_eq_true]
  exact .rfl

/-- The range of KEY_W (00_scope.md R7). -/
theorem Config.keyWidthOk_iff {k : Config} : k.keyWidthOk = true ↔ 3 ≤ k.keyW ∧ k.keyW ≤ 16 := by
  simp [Config.keyWidthOk]

/-- Settles O6: each check by its own lemma. That the vector and the VRAM range do not meet needs both to hold a byte,
which the checks before it give. -/
theorem wellFormedConfigurationMeansEveryCheck : Obligations.WellFormedConfigurationMeansEveryCheck := by
  intro k
  rw [Config.wf_iff, Config.fbSizeOk_iff, Config.pixelOk_iff, Config.vramInImage, Config.addrOk_iff, Config.vectorInImage_iff,
    Config.pixelBytesOk, Config.keyWidthOk_iff, decide_eq_true_iff, decide_eq_true_iff]
  refine and_congr_right fun ⟨_, _, hheight, _⟩ => and_congr_right fun ⟨hpixel, hstride⟩ =>
    and_congr_right fun _ => and_congr_right fun _ => and_congr_right fun ⟨hvec, _⟩ => ?_
  have hrange : 1 ≤ k.vramStride * k.height := Nat.mul_pos (hpixel.trans hstride) hheight
  exact and_congr (Config.vectorNotVram_iff hvec hrange) (and_congr_left fun _ => Config.keysOk_iff)

end Sys2Proof

namespace Sys2Proof.Machine

/-! ### The step of an ill-formed configuration -/

/-- A state whose configuration fails a check is refused before any move is chosen (60_exceptions.md R207). -/
theorem step_of_illFormed {s : State} (h : s.cfg.wf = false) : step s = .refused .cfg := by
  rw [step, if_neg (Bool.eq_false_iff.mp h)]

/-- Settles O7. -/
theorem illFormedConfigurationIsRefused : Obligations.IllFormedConfigurationIsRefused := fun _ => step_of_illFormed

/-! ### The answer of a store -/

/-- A running consumer with no shutdown check due in Execute takes its Execute step (43_activities.md R176). -/
theorem runMove_consumer_execute {isa : Isa} {s : State} (hc : s.cfg.cClient = .activity) (hr : s.cons.run = .running)
    (hd : s.cons.checkDue = false) (hp : s.cons.phase = .execute) : runMove isa .consumer s = stepExecute isa s := by
  simp [runMove, stepConsumer, hc, hr, hd, hp]

/-- Execute of a store whose answer has come retires it and acts on it (43_activities.md R181). -/
theorem stepExecute_of_answered {isa : Isa} {s : State} {rec : IsaRecord} {a : Addr} {n v : Nat} {nx : IsaNext}
    {r : CRsp} (hf : s.cons.fetched = some rec) (ha : rec.action = .store a n v nx) (hd : s.block.cPort = .done r) :
    stepExecute isa s =
      .next { retireC r s with cons := afterStore isa s.cfg r a n v (retireC r s).cons } := by
  simp [stepExecute, hf, ha, hd]

section
variable {isa : Isa} {k : Config} {r : CRsp} {a : Addr} {n v : Nat} {c : Consumer}

theorem afterStore_ok (h : r.st = .ok) : afterStore isa k r a n v c = { c with phase := .advance } := by
  simp [afterStore, h]

theorem afterStore_fault (h : r.st = .fault) : afterStore isa k r a n v c = c := by
  simp [afterStore, h]

/-- A plain store inside the image writes its bytes (43_activities.md R181). -/
theorem afterStore_inImage (h : r.st = .notVram) (ha : a.toNat < k.memSize) (hn : a.toNat + n ≤ k.memSize) :
    afterStore isa k r a n v c =
      { c with
        mem := Memory.writeAll c.mem a.toNat (Memory.storeBytes (isa.bytePlace n) v n)
        phase := .advance } := by
  simp [afterStore, h, ha, hn]

/-- A plain store that leaves the image is fatal (43_activities.md R181, 20_memory.md R52). -/
theorem afterStore_outOfImage (h : r.st = .notVram) (ho : k.memSize ≤ a.toNat ∨ k.memSize < a.toNat + n) :
    afterStore isa k r a n v c = { c with run := .fatal .memOob } := by
  simp [afterStore, h, ho, consumerFatal]

end

/-- Settles O47: the step is a retire and then `afterStore`, which has one equation for each answer. -/
theorem storeAnswerDecidesTheImageWrite : Obligations.StoreAnswerDecidesTheImageWrite := by
  intro isa s rec a n v nx r hc hrun hdue hphase hfetched haction hdone
  rw [runMove_consumer_execute hc hrun hdue hphase, stepExecute_of_answered hfetched haction hdone]
  refine ⟨fun hst => ?_, fun hst ha hn => ?_, fun hst ho => ?_, fun hst => ?_⟩
  · simp [afterStore_ok hst, hst]
  · simp [afterStore_inImage hst ha hn, hst]
  · simp [afterStore_outOfImage hst ho, hst]
  · simp [afterStore_fault hst, hst, hrun]

end Sys2Proof.Machine
end

section
/-! PROOF. The settled statements on the state (10_state.md): who changes which field, and the invariant. Each goes
through the effects of a move (`runMove_effect`). -/

namespace Sys2Proof.Machine

open Sys2Proof

/-! ### The producer's snapshot copy -/

/-- Settles O53: among the effects of a move only a retire of the producer gives another copy. -/
theorem snapshotCopyIsImmutable : Obligations.SnapshotCopyIsImmutable := by
  intro isa m s t h hne
  cases runMove_effect h with
  | producerRetires es ok rsp q _ _ _ hp _ _ _ _ hsnap =>
    rcases hsnap with hsnap | ⟨hphase, hsnap⟩
    · exact absurd hsnap hne
    · exact ⟨hphase, ⟨es, ok, rfl⟩, rsp, hp, hsnap⟩
  | producerMoves _ _ _ _ _ _ _ _ _ _ hsnap => exact absurd hsnap hne
  | _ => exact absurd rfl hne

/-! ### The image -/

/-- Settles O34: among the effects of a move only a retire of the consumer writes the image, and it writes the bytes of
the fetched store. -/
theorem onlyThePlainStoreWritesTheImage : Obligations.OnlyThePlainStoreWritesTheImage := by
  intro isa m s t h hne
  cases runMove_effect h with
  | consumerRetires rsp c _ _ _ hp _ _ _ _ hmem =>
    rcases hmem with hmem | ⟨r, a, n, v, nx, bs, hphase, hfetched, haction, hst, -, hlen, hmem⟩
    · exact absurd hmem hne
    · refine ⟨rfl, hphase, r, a, n, v, nx, hfetched, haction, ⟨rsp, hp, hst⟩, fun x hx => ?_⟩
      rw [hmem]
      exact Memory.read_writeAll_outside _ (by omega)
  | consumerMoves _ _ _ _ _ hmem => exact absurd hmem hne
  | _ => exact absurd rfl hne

/-! ### The block -/

/-- A move changes nothing of the block but the handshakes of the ports (40_port_protocol.md R101, R103), or performs a
decoded operation, or performs an illegal request (R102). -/
theorem Effect.block_cases {s t : State} {m : Move} (he : Effect s m t) :
    t.block = { s.block with cPort := t.block.cPort, pPort := t.block.pPort } ∨
    (∃ port r i, m = .perform port ∧ pendingReq s.block port = some r ∧ decode r = .ok i ∧ i.wf s.cfg = true ∧
      t.block = bodyOf s.cfg i s.block) ∨
    ∃ port, m = .perform port ∧ t.block = raiseFault s.cfg port .badOp s.block := by
  cases he with
  | performs port r i hr hd hw => exact .inr (.inl ⟨port, r, i, rfl, hr, hd, hw, rfl⟩)
  | faultsBadOp port => exact .inr (.inr ⟨port, rfl, rfl⟩)
  | issues r => cases r <;> exact .inl rfl
  | _ => exact .inl rfl

theorem performed_of_decode {s : State} {port : Port} {r : ReqWord} {i : Instr} (hr : pendingReq s.block port = some r)
    (hd : decode r = .ok i) : performed (.perform port) s = some i := by
  simp [performed, hr, hd]

/-- A pending request that decodes is an operation of its port. -/
theorem port_of_pending {b : Block} {port : Port} {r : ReqWord} {i : Instr} (hr : pendingReq b port = some r)
    (hd : decode r = .ok i) : i.port = port :=
  (decode_port hd).trans (pendingReq_port hr)

/-! ### The mailbox slot -/

/-- The operations that post an event are the PUBLISHes of an event's kind (42_mailbox.md R151). -/
theorem posts_iff {i : Instr} : posts i = true ↔ ∃ e code, i = .publish (edgeField e) code := by
  constructor
  · intro h
    cases i with
    | publish kind code =>
      cases kind with
      | pressed => exact ⟨.pressed, code, rfl⟩
      | released => exact ⟨.released, code, rfl⟩
      | none => cases h
      | reserved => cases h
    | _ => cases h
  · rintro ⟨e, code, rfl⟩
    cases e <;> rfl

theorem port_of_posts {i : Instr} (h : posts i = true) : i.port = .p := by
  obtain ⟨e, code, rfl⟩ := posts_iff.1 h
  rfl

theorem port_of_isTake {i : Instr} (h : isTake i = true) : i.port = .c := by
  cases i with
  | take ie => rfl
  | _ => cases h

/-- No posting PUBLISH clears the flag. -/
theorem bodyOf_mbOcc_of_posts {k : Config} {i : Instr} (h : posts i = true) {b : Block} (ho : b.mbOcc = true) :
    (bodyOf k i b).mbOcc = true := by
  obtain ⟨e, code, rfl⟩ := posts_iff.1 h
  cases hg : b.gMb with
  | none => rw [bodyOf_publish_free hg]
  | some q => cases e <;> simpa [bodyOf, edgeField, publishBody, postEvent, underMb_held hg] using ho

/-- Settles O33: outside a perform the slot is as it was, and the body of an operation writes it only for a posting
PUBLISH, or for a TAKE that clears the flag. -/
theorem onlyPublishPostsAndOnlyTakeClears : Obligations.OnlyPublishPostsAndOnlyTakeClears := by
  intro isa m s t h
  rcases (runMove_effect h).block_cases with hb | ⟨port, r, i, rfl, hr, hd, -, hb⟩ | ⟨port, rfl, hb⟩ <;> rw [hb]
  · simp
  · have hport := port_of_pending hr hd
    have hperf := performed_of_decode hr hd
    cases hp : posts i with
    | true =>
      refine ⟨fun _ => ⟨by rw [← hport, port_of_posts hp], i, hperf, hp⟩, fun ⟨ho, hc⟩ => ?_⟩
      rw [bodyOf_mbOcc_of_posts hp ho] at hc
      cases hc
    | false =>
      obtain ⟨hkind, hcode⟩ := bodyOf_slot (k := s.cfg) hp s.block
      have hocc := bodyOf_mbOcc (k := s.cfg) hp s.block
      refine ⟨fun hch => ?_, fun ⟨ho, hc⟩ => ?_⟩
      · rcases hch with hk | hc | ⟨ho, hc⟩
        · exact absurd hkind hk
        · exact absurd hcode hc
        · simp [hocc, ho] at hc
      · have ht : isTake i = true := by
          simp only [hocc, ho, Bool.true_and, Bool.not_eq_false', Bool.and_eq_true] at hc
          exact hc.1
        exact ⟨by rw [← hport, port_of_isTake ht], i, hperf, ht⟩
  · cases port <;> simp

/-! ### The ports -/

/-- A port's handshake and its fault register are the same in two blocks. -/
def SamePort (b b' : Block) : Port → Prop
  | .c => b'.cPort = b.cPort ∧ b'.cFault = b.cFault
  | .p => b'.pPort = b.pPort ∧ b'.pFault = b.pFault

/-- The views of a port depend on that port alone. -/
theorem SamePort.views {b b' : Block} {port : Port} (h : SamePort b b' port) :
    pendingReq b' port = pendingReq b port ∧ answered b' port = answered b port ∧
      isStopped b' port = isStopped b port ∧ isIdlePort b' port = isIdlePort b port := by
  cases port <;> simp [pendingReq, answered, isStopped, isIdlePort, h.1]

theorem SamePort.faultOf_eq {b b' : Block} {port : Port} (h : SamePort b b' port) : faultOf b' port = faultOf b port := by
  cases port <;> exact h.2

theorem bodyOf_samePort (k : Config) {i : Instr} (b : Block) {port : Port} (h : port ≠ i.port) :
    SamePort b (bodyOf k i b) port := by
  obtain ⟨hc, hp⟩ := bodyOf_otherPort k i b
  cases port <;> cases hi : i.port <;> simp_all [SamePort]

theorem raiseFault_samePort (k : Config) (f : Cause) (b : Block) {q port : Port} (h : q ≠ port) :
    SamePort b (raiseFault k port f b) q := by
  cases q <;> cases port <;> simp_all [SamePort]

theorem setPending_samePort (b : Block) {r : ReqWord} {q : Port} (h : q ≠ r.port) : SamePort b (setPending b r) q := by
  cases q <;> cases r <;> simp_all [SamePort, ReqWord.port]

@[simp] theorem faultOf_setPending (b : Block) (r : ReqWord) (port : Port) :
    faultOf (setPending b r) port = faultOf b port := by
  cases r <;> cases port <;> rfl

@[simp] theorem faultOf_raiseFault (k : Config) (f : Cause) (b : Block) (port : Port) :
    faultOf (raiseFault k port f b) port = f := by
  cases port <;> rfl

@[simp] theorem answered_raiseFault (k : Config) (f : Cause) (b : Block) (port : Port) :
    answered (raiseFault k port f b) port = some .fault := by
  cases port <;> rfl

/-- The views of an `Idle` port. -/
theorem views_of_idle {b : Block} {port : Port} (h : isIdlePort b port = true) :
    pendingReq b port = none ∧ answered b port = none ∧ isStopped b port = false := by
  cases port
  · simp [pendingReq, answered, isStopped, isIdlePort_c.1 h]
  · simp [pendingReq, answered, isStopped, isIdlePort_p.1 h]

/-- The views of a `Pending` port. -/
theorem views_of_pending {b : Block} {port : Port} {r : ReqWord} (h : pendingReq b port = some r) :
    answered b port = none ∧ isStopped b port = false := by
  cases port
  · cases hp : b.cPort <;> simp_all [pendingReq, answered, isStopped]
  · cases hp : b.pPort <;> simp_all [pendingReq, answered, isStopped]

/-- The views of a port that holds a response. -/
theorem views_of_answered {b : Block} {port : Port} {st : Status} (h : answered b port = some st) :
    pendingReq b port = none ∧ isStopped b port = false ∧ isIdlePort b port = false := by
  cases port
  · cases hp : b.cPort <;> simp_all [pendingReq, answered, isStopped, isIdlePort]
  · cases hp : b.pPort <;> simp_all [pendingReq, answered, isStopped, isIdlePort]

/-- The views of a `Stopped` port. -/
theorem views_of_stopped {b : Block} {port : Port} (h : isStopped b port = true) : pendingReq b port = none := by
  cases port
  · simp [pendingReq, isStopped_c.1 h]
  · simp [pendingReq, isStopped_p.1 h]

/-- A port whose fault register is set has no pending request. -/
theorem FaultMatchesPort.pendingReq_eq_none {b : Block} {port : Port} (h : FaultMatchesPort b port)
    (hf : faultOf b port ≠ .none) : pendingReq b port = none := by
  rcases h.1 hf with ha | hs
  · exact (views_of_answered ha).1
  · exact views_of_stopped hs

/-! ### The fault registers -/

/-- A move that is no perform of the port leaves its fault register. -/
theorem Effect.faultOf_of_ne {s t : State} {m : Move} (he : Effect s m t) {port : Port} (hm : m ≠ .perform port) :
    faultOf t.block port = faultOf s.block port := by
  rcases he.block_cases with hb | ⟨q, r, i, rfl, hr, hd, -, hb⟩ | ⟨q, rfl, hb⟩ <;> rw [hb]
  · cases port <;> rfl
  · have hne : port ≠ i.port := fun e => hm (by rw [e, port_of_pending hr hd])
    exact (bodyOf_samePort _ _ hne).faultOf_eq
  · have hne : port ≠ q := fun e => hm (by rw [e])
    exact (raiseFault_samePort _ _ _ hne).faultOf_eq

/-- The perform of a port with nothing pending leaves the state (40_port_protocol.md R102). -/
theorem Effect.eq_of_nothing_pending {s t : State} {port : Port} (he : Effect s (.perform port) t)
    (hn : pendingReq s.block port = none) : t = s := by
  cases he with
  | stays => rfl
  | performs _ r i hr => simp [hn] at hr
  | faultsBadOp _ r e hr => simp [hn] at hr

/-- Settles O31: from the invariant a port with a set register has nothing pending, so its perform does nothing. -/
theorem faultRegistersAreSticky : Obligations.FaultRegistersAreSticky := by
  intro isa m s t port h
  have he := runMove_effect h
  refine ⟨fun hne => by_contra fun hm => hne (he.faultOf_of_ne hm), fun hs hset => ?_⟩
  by_cases hm : m = .perform port
  · subst hm
    rw [he.eq_of_nothing_pending ((hs.faults port).pendingReq_eq_none hset)]
  · exact he.faultOf_of_ne hm

/-! ### The invariant, port by port -/

/-- What the invariant says of one port and its agent. -/
structure PortInvariant (s : State) (port : Port) : Prop where
  faults : FaultMatchesPort s.block port
  pending : PendingAdmitted s.cfg s.block port
  stopped : isStopped s.block port = true → agentRunning s port = false
  waits : clientOf s.cfg port = .activity → agentRunning s port = true → isIdlePort s.block port = false →
    agentWaits s port = true

theorem Invariant.port {s : State} (h : Invariant s) (port : Port) : PortInvariant s port :=
  ⟨h.faults port, h.pending port, h.stopped port, h.waits port⟩

namespace PortInvariant

variable {s t : State} {port : Port}

/-- The rest of the state does not count. -/
theorem congr (h : PortInvariant s port) (hk : t.cfg = s.cfg) (hb : SamePort s.block t.block port)
    (hr : agentRunning t port = agentRunning s port) (hw : agentWaits t port = agentWaits s port) :
    PortInvariant t port := by
  obtain ⟨hp, ha, hs, hi⟩ := hb.views
  exact ⟨by simpa only [FaultMatchesPort, hb.faultOf_eq, ha, hs] using h.faults,
    by simpa only [PendingAdmitted, hk, hp] using h.pending, by simpa only [hs, hr] using h.stopped,
    by simpa only [hk, hr, hi, hw] using h.waits⟩

/-- An `Idle` port with a clear register needs nothing of its agent. -/
theorem of_idle (hi : isIdlePort t.block port = true) (hf : faultOf t.block port = .none) : PortInvariant t port := by
  obtain ⟨hp, ha, hs⟩ := views_of_idle hi
  exact ⟨by simp [FaultMatchesPort, hf, ha, hs], by simp [PendingAdmitted, hp], by simp [hs], by simp [hi]⟩

/-- The register of an `Idle` port is clear. -/
theorem fault_of_idle (h : PortInvariant s port) (hi : isIdlePort s.block port = true) :
    faultOf s.block port = .none := by
  obtain ⟨-, ha, hs⟩ := views_of_idle hi
  simpa [FaultMatchesPort, ha, hs] using h.faults

/-- The register of a `Pending` port is clear. -/
theorem fault_of_pending (h : PortInvariant s port) {r : ReqWord} (hr : pendingReq s.block port = some r) :
    faultOf s.block port = .none := by
  obtain ⟨ha, hs⟩ := views_of_pending hr
  simpa [FaultMatchesPort, ha, hs] using h.faults

/-- An issue on an `Idle` port: the agent, if it is a running activity, waits (40_port_protocol.md R101). -/
theorem issued (h : PortInvariant s port) (hi : isIdlePort s.block port = true) {r : ReqWord}
    (hr : pendingReq t.block port = some r) (ha : Admitted t.cfg r) (hf : faultOf t.block port = faultOf s.block port)
    (hw : clientOf t.cfg port = .activity → agentWaits t port = true) : PortInvariant t port := by
  obtain ⟨hn, hs⟩ := views_of_pending hr
  exact ⟨by simp [FaultMatchesPort, hf, h.fault_of_idle hi, hn, hs], by simp [PendingAdmitted, hr, ha], by simp [hs],
    fun hc _ _ => hw hc⟩

/-- A perform on a `Pending` port: it answers, with the register set exactly on FAULT (40_port_protocol.md R102). -/
theorem answers (h : PortInvariant s port) {r : ReqWord} (hr : pendingReq s.block port = some r) {b : Block}
    {st : Status} (ha : answered b port = some st) (hf : faultOf b port ≠ .none ↔ st = .fault) :
    PortInvariant { s with block := b } port := by
  obtain ⟨hn, hs, -⟩ := views_of_answered ha
  refine ⟨by simp [FaultMatchesPort, hf, ha, hs], by simp [PendingAdmitted, hn], by simp [hs], fun hc hrun _ => ?_⟩
  have := h.waits hc (by cases port <;> exact hrun) (pendingReq_not_idle hr)
  cases port <;> exact this

/-- A retire: the port becomes `Stopped` and its agent ends on FAULT, else the port becomes `Idle`
(40_port_protocol.md R103). -/
theorem retired (h : PortInvariant s port) {st : Status} (ha : answered s.block port = some st)
    (hf : faultOf t.block port = faultOf s.block port)
    (hstop : st = .fault → isStopped t.block port = true ∧ agentRunning t port = false)
    (hidle : st ≠ .fault → isIdlePort t.block port = true) : PortInvariant t port := by
  have hset : faultOf s.block port ≠ .none ↔ st = .fault := by
    simpa [FaultMatchesPort, ha, (views_of_answered ha).2.1] using h.faults
  by_cases hst : st = .fault
  · obtain ⟨hs, hrun⟩ := hstop hst
    exact ⟨iff_of_true (hf ▸ hset.2 hst) (.inr hs), by simp [PendingAdmitted, views_of_stopped hs], fun _ => hrun,
      by simp [hrun]⟩
  · exact of_idle (hidle hst) (hf.trans (by simpa using mt hset.1 hst))

theorem retiredC (h : PortInvariant s .c) {rsp : CRsp} (hp : s.block.cPort = .done rsp)
    (ht : t.block.cPort = if rsp.st = .fault then .stopped else .idle) (hf : t.block.cFault = s.block.cFault)
    (hrun : rsp.st = .fault → t.cons.run ≠ .running) : PortInvariant t .c :=
  h.retired (st := rsp.st) (by simp [answered, hp]) hf (fun hst => by simp [ht, hst, hrun]) fun hst => by simp [ht, hst]

theorem retiredP (h : PortInvariant s .p) {rsp : PRsp} (hp : s.block.pPort = .done rsp)
    (ht : t.block.pPort = if rsp.st = .fault then .stopped else .idle) (hf : t.block.pFault = s.block.pFault)
    (hrun : rsp.st = .fault → t.prod.run ≠ .running) : PortInvariant t .p :=
  h.retired (st := rsp.st) (by simp [answered, hp]) hf (fun hst => by simp [ht, hst, hrun]) fun hst => by simp [ht, hst]

/-- A running activity that does not wait has an `Idle` port (40_port_protocol.md R104). -/
theorem idle_of_not_waits (h : PortInvariant s port) (hc : clientOf s.cfg port = .activity)
    (hrun : agentRunning s port = true) (hw : agentWaits s port = false) : isIdlePort s.block port = true := by
  by_contra hi
  rw [h.waits hc hrun (by simpa using hi)] at hw
  cases hw

end PortInvariant

/-- An operation's perform answers its port, with the register set exactly on FAULT (60_exceptions.md R200). -/
theorem PortInvariant.performs {s : State} {port : Port} (h : PortInvariant s port) {r : ReqWord} {i : Instr}
    (hr : pendingReq s.block port = some r) (hd : decode r = .ok i) (hfb : s.block.gFb = none)
    (hmb : s.block.gMb = none) : PortInvariant { s with block := bodyOf s.cfg i s.block } port := by
  obtain rfl := port_of_pending hr hd
  obtain ⟨st, ha, hst⟩ := bodyOf_answers s.cfg ((h.pending r hr).op hd).1 hfb hmb
  refine h.answers hr ha ?_
  rcases hst with ⟨hst, cause, hcause, hbody⟩ | ⟨hst, hsame⟩
  · exact iff_of_true (by simpa [hbody] using hcause) hst
  · exact iff_of_false (by simp [hsame, h.fault_of_pending hr]) hst

/-- Every effect of a move keeps the invariant of each port. -/
theorem Effect.keeps_port {s t : State} {m : Move} (he : Effect s m t) (h : Invariant s) (q : Port) :
    PortInvariant t q := by
  have hq := h.port q
  cases he with
  | stays => exact hq
  | performs port r i hr hd =>
    by_cases hqp : q = port
    · subst hqp
      exact hq.performs hr hd h.gFb h.gMb
    · exact hq.congr rfl (bodyOf_samePort _ _ (port_of_pending hr hd ▸ hqp)) rfl rfl
  | faultsBadOp port r e hr =>
    by_cases hqp : q = port
    · subst hqp
      exact hq.answers hr (answered_raiseFault _ _ _ _) (by simp)
    · exact hq.congr rfl (raiseFault_samePort _ _ _ hqp) rfl rfl
  | issues r hc hi ha =>
    by_cases hqp : q = r.port
    · subst hqp
      exact hq.issued hi (pendingReq_setPending _ _) ha (by simp) fun hact => by simp [hc] at hact
    · exact hq.congr rfl (setPending_samePort _ hqp) rfl rfl
  | consumerIssues w cpu ie hact hrun hw hi ha =>
    cases q with
    | c => exact hq.issued hi rfl ha rfl fun _ => hw
    | p => exact hq.congr rfl ⟨rfl, rfl⟩ rfl rfl
  | consumerRetires rsp c hact hrun hw hp _ _ hf =>
    cases q with
    | c => exact hq.retiredC hp rfl rfl fun hst => by simp [hf hst]
    | p => exact hq.congr rfl ⟨rfl, rfl⟩ rfl rfl
  | consumerMoves c hact hrun hw =>
    cases q with
    | c =>
      have hi := hq.idle_of_not_waits hact (by simpa using hrun) hw
      exact .of_idle hi (hq.fault_of_idle hi)
    | p => exact hq.congr rfl ⟨rfl, rfl⟩ rfl rfl
  | producerIssues es ok w hact hrun hw hi ha =>
    cases q with
    | c => exact hq.congr rfl ⟨rfl, rfl⟩ rfl rfl
    | p => exact hq.issued hi rfl ha rfl fun _ => hw
  | producerRetires es ok rsp p hact hrun hw hp _ hf =>
    cases q with
    | c => exact hq.congr rfl ⟨rfl, rfl⟩ rfl rfl
    | p => exact hq.retiredP hp rfl rfl fun hst => by simp [hf hst]
  | producerMoves es ok p sink hact hrun hw =>
    cases q with
    | c => exact hq.congr rfl ⟨rfl, rfl⟩ rfl rfl
    | p =>
      have hi := hq.idle_of_not_waits hact (by simpa using hrun) hw
      exact .of_idle hi (hq.fault_of_idle hi)
  | freeRetiresC rsp hc hp =>
    cases q with
    | c => exact hq.retiredC hp rfl rfl fun hst => by simp [hst, crunAfter_fault_ne]
    | p => exact hq.congr rfl ⟨rfl, rfl⟩ rfl rfl
  | freeRetiresP rsp hc hp =>
    cases q with
    | c => exact hq.congr rfl ⟨rfl, rfl⟩ rfl rfl
    | p => exact hq.retiredP hp rfl rfl fun hst => by simp [hst, prunAfter_fault_ne]
  | asserts => exact hq.congr rfl (by cases q <;> exact ⟨rfl, rfl⟩) (by cases q <;> rfl) (by cases q <;> rfl)

/-! ### The invariant, field by field -/

/-- What the invariant says of the frame buffer, the slot and the grants. -/
structure BlockInvariant (k : Config) (b : Block) : Prop where
  fb : Grid.shaped k.width k.height b.fb = true
  kind : b.mbOcc = true → b.mbKind ≠ .none
  code : b.mbCode.toNat < 2 ^ k.keyW
  gFb : b.gFb = none
  gMb : b.gMb = none

theorem Invariant.blockInvariant {s : State} (h : Invariant s) : BlockInvariant s.cfg s.block :=
  ⟨h.fb, h.kind, h.code, h.gFb, h.gMb⟩

/-- The handshakes and the fault registers do not count. -/
theorem BlockInvariant.congr {k : Config} {b : Block} (h : BlockInvariant k b) (c : CPort) (p : PPort) (cf pf : Cause) :
    BlockInvariant k { b with cPort := c, pPort := p, cFault := cf, pFault := pf } :=
  ⟨h.fb, h.kind, h.code, h.gFb, h.gMb⟩

/-- The body of an operation keeps the shape of the grid (10_state.md R24). -/
theorem bodyOf_shaped {k : Config} (i : Instr) {b : Block} (h : Grid.shaped k.width k.height b.fb = true) :
    Grid.shaped k.width k.height (bodyOf k i b).fb = true := by
  rw [bodyOf_fb]
  split
  · exact Grid.shaped_put h _ _ _
  · exact h

/-- The body of an operation within its widths keeps the block's part of the invariant (10_state.md R22, R23). -/
theorem bodyOf_keeps_blockInvariant {k : Config} {i : Instr} {b : Block} (h : BlockInvariant k b) (hw : i.wf k = true) :
    BlockInvariant k (bodyOf k i b) := by
  obtain ⟨hgFb, hgMb⟩ := bodyOf_grants k i b
  cases hp : posts i with
  | true =>
    obtain ⟨e, code, rfl⟩ := posts_iff.1 hp
    rw [bodyOf_publish_free h.gMb]
    exact ⟨h.fb, fun _ => by cases e <;> simp, by simpa [Instr.wf] using hw, h.gFb, h.gMb⟩
  | false =>
    obtain ⟨hkind, hcode⟩ := bodyOf_slot (k := k) hp b
    refine ⟨bodyOf_shaped i h.fb, fun ho => ?_, hcode ▸ h.code, hgFb h.gFb, hgMb h.gMb⟩
    rw [bodyOf_mbOcc hp, Bool.and_eq_true] at ho
    exact hkind ▸ h.kind ho.1

theorem Effect.cfg_eq {s t : State} {m : Move} (he : Effect s m t) : t.cfg = s.cfg := by
  cases he <;> rfl

theorem Effect.keeps_block {s t : State} {m : Move} (he : Effect s m t) (h : BlockInvariant s.cfg s.block) :
    BlockInvariant s.cfg t.block := by
  rcases he.block_cases with hb | ⟨port, r, i, -, -, -, hw, hb⟩ | ⟨port, -, hb⟩ <;> rw [hb]
  · exact h.congr _ _ _ _
  · exact bodyOf_keeps_blockInvariant h hw
  · cases port <;> exact h.congr _ _ _ _

/-- A move keeps the image's canonical form and its size (10_state.md R32). -/
theorem Effect.keeps_mem {s t : State} {m : Move} (he : Effect s m t) (hform : Memory.wf s.cons.mem = true)
    (hsize : Memory.within s.cfg.memSize s.cons.mem = true) :
    Memory.wf t.cons.mem = true ∧ Memory.within s.cfg.memSize t.cons.mem = true := by
  cases he with
  | consumerRetires _ c _ _ _ _ _ _ _ _ hmem =>
    rcases hmem with hmem | ⟨r, a, n, v, nx, bs, -, -, -, -, hle, hlen, hmem⟩
    · exact ⟨hmem ▸ hform, hmem ▸ hsize⟩
    · simp only [hmem]
      exact ⟨Memory.wf_writeAll hform _ _, Memory.within_writeAll hsize (by omega)⟩
  | consumerMoves c _ _ _ _ hmem => exact ⟨hmem ▸ hform, hmem ▸ hsize⟩
  | _ => exact ⟨hform, hsize⟩

/-- A move keeps the pc inside the image (10_state.md R30). -/
theorem Effect.keeps_pc {s t : State} {m : Move} (he : Effect s m t) (h : s.cons.pc < s.cfg.memSize) :
    t.cons.pc < s.cfg.memSize := by
  cases he with
  | consumerRetires _ c _ _ _ _ _ _ _ hpc => exact hpc h
  | consumerMoves c _ _ _ _ _ _ hpc => exact hpc h
  | _ => exact h

/-- A move keeps the widths of the codes still to publish (43_activities.md R173). -/
theorem Effect.keeps_todo {s t : State} {m : Move} (he : Effect s m t) (h : TodoFits s.cfg s.prod) :
    TodoFits s.cfg t.prod := by
  cases he with
  | producerRetires _ _ _ q _ _ _ _ _ _ _ htodo => exact htodo h
  | producerMoves _ _ q _ _ _ _ _ htodo => exact htodo h
  | _ => exact h

/-- Every effect of a move keeps the invariant. -/
theorem Effect.keeps_invariant {s t : State} {m : Move} (he : Effect s m t) (h : Invariant s) : Invariant t := by
  have hk := he.cfg_eq
  obtain ⟨hform, hsize⟩ := he.keeps_mem h.memForm h.memSize
  obtain ⟨hfb, hkind, hcode, hgFb, hgMb⟩ := he.keeps_block h.blockInvariant
  have hport := he.keeps_port h
  exact
    { cfg := hk ▸ h.cfg
      memForm := hform
      memSize := hk ▸ hsize
      fb := hk ▸ hfb
      pc := hk ▸ he.keeps_pc h.pc
      kind := hkind
      code := hk ▸ hcode
      gFb := hgFb
      gMb := hgMb
      faults := fun port => (hport port).faults
      pending := fun port => (hport port).pending
      stopped := fun port => (hport port).stopped
      waits := fun port => (hport port).waits
      todo := hk ▸ he.keeps_todo h.todo }

/-- The host's side does not count. -/
theorem Invariant.withHost {s : State} (h : Invariant s) (host : HostSide) : Invariant { s with host := host } :=
  { h with }

/-- Settles O58: a step is a move after the choice of it, and every effect of a move keeps the invariant. -/
theorem stepKeepsTheInvariant : Obligations.StepKeepsTheInvariant := by
  intro s t h hstep
  cases hs : s.host.sched with
  | nil =>
    rw [step_of_tick h.cfg hs] at hstep
    exact (runMove_effect hstep).keeps_invariant (h.withHost _)
  | cons m ms =>
    rw [step_of_sched h.cfg hs] at hstep
    exact (runMove_effect hstep).keeps_invariant (h.withHost _)

/-! ### The registers of the consumer -/

/-- A move that is no consumer step changes nothing of the consumer but its end and the response it read. -/
theorem Effect.cons_of_not_consumer {s t : State} {m : Move} (he : Effect s m t) (hm : m ≠ .consumer) :
    t.cons = { s.cons with run := t.cons.run, last := t.cons.last } := by
  cases he with
  | consumerIssues => exact absurd rfl hm
  | consumerRetires => exact absurd rfl hm
  | consumerMoves => exact absurd rfl hm
  | _ => rfl

/-- A dispatch leaves the pc or sets it to the vector's value, and changes no other register (43_activities.md R179). -/
theorem dispatch_registers (k : Config) (c : Consumer) :
    ((dispatch k c).pc = c.pc ∨ (dispatch k c).pc = vectorTarget k c.mem) ∧
      (dispatch k c).ie = c.ie ∧ (dispatch k c).cpu = c.cpu ∧ (dispatch k c).kbd = c.kbd := by
  unfold dispatch
  simp only
  split
  · exact ⟨.inr rfl, rfl, rfl, rfl⟩
  · exact ⟨.inl rfl, rfl, rfl, rfl⟩

/-- The answer of a TAKE changes the pc only by a dispatch, and the keyboard status only if it is an EVENT
(43_activities.md R177, R178). -/
theorem afterTake_registers (isa : Isa) (k : Config) (r : CRsp) (c : Consumer) :
    ((afterTake isa k r c).pc = c.pc ∨
      ((afterTake isa k r c).pc = vectorTarget k c.mem ∧ r.st = .event ∧ r.irq = true)) ∧
      (afterTake isa k r c).ie = c.ie ∧ (afterTake isa k r c).cpu = c.cpu ∧
      ((afterTake isa k r c).kbd = c.kbd ∨ r.st = .event) := by
  unfold afterTake
  cases hst : r.st
  case event =>
    obtain ⟨hpc, hie, hcpu, -⟩ := dispatch_registers k { c with kbd := isa.kbdUpdate c.kbd r.rkind r.rcode }
    cases hirq : r.irq
    · simp only [Bool.false_eq_true, if_false]
      split <;> simp
    · simp only [if_true]
      split <;> exact ⟨hpc.imp_right fun h => ⟨h, trivial, trivial⟩, hie, hcpu, .inr trivial⟩
  all_goals exact ⟨.inl rfl, rfl, rfl, .inl rfl⟩

/-- An issue leaves the consumer. -/
theorem issue_cons {r : ReqWord} {s t : State} (h : issue r s = .next t) : t.cons = s.cons := by
  rcases issue_next h with ⟨rfl, -⟩ | ⟨-, rfl, -⟩ <;> rfl

theorem stepInputCheck_registers {isa : Isa} {s t : State} (h : stepInputCheck isa s = .next t) :
    (t.cons.pc = s.cons.pc ∨ (t.cons.pc = vectorTarget s.cfg s.cons.mem ∧
      ∃ r, s.block.cPort = .done r ∧ r.st = .event ∧ r.irq = true)) ∧
    t.cons.ie = s.cons.ie ∧ t.cons.cpu = s.cons.cpu ∧
    (t.cons.kbd = s.cons.kbd ∨ ∃ r, s.block.cPort = .done r ∧ r.st = .event) := by
  unfold stepInputCheck at h
  cases hp : s.block.cPort <;> simp only [hp] at h
  case idle => simp [issue_cons h]
  case done r =>
    cases h
    obtain ⟨hpc, hie, hcpu, hkbd⟩ := afterTake_registers isa s.cfg r (retireC r s).cons
    exact ⟨hpc.imp_right fun ⟨ht, hev⟩ => ⟨ht, r, rfl, hev⟩, hie, hcpu, hkbd.imp_right fun hev => ⟨r, rfl, hev⟩⟩
  all_goals
    cases h
    exact ⟨.inl rfl, rfl, rfl, .inl rfl⟩

/-- Fetch changes none of the four registers (43_activities.md R180). -/
theorem stepFetch_registers {isa : Isa} {s t : State} (h : stepFetch isa s = .next t) :
    t.cons.pc = s.cons.pc ∧ t.cons.ie = s.cons.ie ∧ t.cons.cpu = s.cons.cpu ∧ t.cons.kbd = s.cons.kbd := by
  unfold stepFetch at h
  simp only at h
  split at h
  · split at h <;> cases h
    exact ⟨rfl, rfl, rfl, rfl⟩
  · split at h <;> cases h
    exact ⟨rfl, rfl, rfl, rfl⟩
  · split at h
    · cases h
    · split at h <;> cases h <;> exact ⟨rfl, rfl, rfl, rfl⟩

/-- The answer of a VSTORE leaves the keyboard status (43_activities.md R181). -/
theorem afterStore_kbd (isa : Isa) (k : Config) (r : CRsp) (a : Addr) (n v : Nat) (c : Consumer) :
    (afterStore isa k r a n v c).kbd = c.kbd := by
  unfold afterStore
  cases r.st
  case notVram =>
    simp only
    split <;> rfl
  all_goals rfl

/-- Execute leaves the pc and the keyboard status (43_activities.md R181). -/
theorem stepExecute_registers {isa : Isa} {s t : State} (h : stepExecute isa s = .next t) :
    t.cons.pc = s.cons.pc ∧ t.cons.kbd = s.cons.kbd := by
  unfold stepExecute at h
  split at h
  · cases h
    exact ⟨rfl, rfl⟩
  · rename_i r hr
    split at h
    · rename_i a n v nx ha
      split at h
      · simp [issue_cons h]
      · cases h
        exact ⟨rfl, rfl⟩
      · cases h
        exact ⟨rfl, rfl⟩
      · rename_i rsp hp
        cases h
        obtain ⟨hpc, -⟩ := afterStore_spec isa s.cfg rsp a n v (retireC rsp s).cons
        exact ⟨hpc, afterStore_kbd isa s.cfg rsp a n v (retireC rsp s).cons⟩
    all_goals
      cases h
      exact ⟨rfl, rfl⟩

theorem goNext_registers (k : Config) (len : Nat) (n : IsaNext) (c : Consumer) :
    (goNext k len n c).ie = c.ie ∧ (goNext k len n c).cpu = c.cpu ∧ (goNext k len n c).kbd = c.kbd := by
  cases n <;> simp only [goNext] <;> split <;> exact ⟨rfl, rfl, rfl⟩

/-- Advance leaves `ie`, `cpu` and the keyboard status (43_activities.md R182). -/
theorem advance_registers (k : Config) (r : IsaRecord) (c : Consumer) :
    (advance k r c).ie = c.ie ∧ (advance k r c).cpu = c.cpu ∧ (advance k r c).kbd = c.kbd := by
  unfold advance
  split
  · exact goNext_registers k r.len _ c
  · exact goNext_registers k r.len _ c
  · exact ⟨rfl, rfl, rfl⟩
  · exact goNext_registers k r.len _ c

theorem stepAdvance_registers {s t : State} (h : stepAdvance s = .next t) :
    t.cons.ie = s.cons.ie ∧ t.cons.cpu = s.cons.cpu ∧ t.cons.kbd = s.cons.kbd := by
  unfold stepAdvance at h
  split at h <;> cases h
  · exact ⟨rfl, rfl, rfl⟩
  · exact advance_registers _ _ _

/-- A consumer step is a wait, the shutdown check or the step of its phase (43_activities.md R176). -/
theorem stepConsumer_next {isa : Isa} {s t : State} (h : stepConsumer isa s = .next t) :
    t = s ∨ stepCheck s = .next t ∨ (s.cons.phase = .inputCheck ∧ stepInputCheck isa s = .next t) ∨
      (s.cons.phase = .fetch ∧ stepFetch isa s = .next t) ∨
      (s.cons.phase = .execute ∧ stepExecute isa s = .next t) ∨
      (s.cons.phase = .advance ∧ stepAdvance s = .next t) := by
  unfold stepConsumer at h
  split at h
  · split at h
    · exact .inr (.inl h)
    · cases hp : s.cons.phase <;> simp only [hp] at h <;> simp [h]
  · cases h
    exact .inl rfl

/-- Settles O50: a move that is no consumer step leaves the four registers, and a consumer step changes those of its
phase. -/
theorem consumerRegistersChangeOnlyInTheirPhases : Obligations.ConsumerRegistersChangeOnlyInTheirPhases := by
  intro isa m s t h
  by_cases hm : m = .consumer
  · subst hm
    rcases stepConsumer_next h with rfl | hstep | ⟨hphase, hstep⟩ | ⟨-, hstep⟩ | ⟨hphase, hstep⟩ | ⟨hphase, hstep⟩
    · simp
    · cases hstep
      simp
    · obtain ⟨hpc, hie, hcpu, hkbd⟩ := stepInputCheck_registers hstep
      exact ⟨fun hne => ⟨rfl, .inr ⟨hphase, hpc.resolve_left hne⟩⟩, by simp [hie, hcpu],
        fun hne => ⟨rfl, hphase, hkbd.resolve_left hne⟩⟩
    · obtain ⟨hpc, hie, hcpu, hkbd⟩ := stepFetch_registers hstep
      simp [hpc, hie, hcpu, hkbd]
    · obtain ⟨hpc, hkbd⟩ := stepExecute_registers hstep
      simp [hpc, hkbd, hphase]
    · obtain ⟨hie, hcpu, hkbd⟩ := stepAdvance_registers hstep
      simp [hie, hcpu, hkbd, hphase]
  · rw [(runMove_effect h).cons_of_not_consumer hm]
    simp

end Sys2Proof.Machine
end

section
/-! PROOF. The settled statements on the memory spaces (20_memory.md): the VRAM decode, what each operation leaves
unchanged, the two ports beside each other, Fetch, and the reasons of a refusal. -/

namespace Sys2Proof.Machine

open Sys2Proof

/-! ### The VRAM decode -/

/-- An address that decodes to a pixel is the pixel's own (20_memory.md R55). -/
theorem eq_vaddr_of_vramMap_pixel {k : Config} {a x y : Nat} (h : vramMap k a = .pixel x y) : a = vaddr k x y := by
  obtain ⟨hin, halign, rfl, rfl, -, -⟩ := (vramMap_pixel_iff k a x y).1 h
  have hrow := Nat.div_add_mod' (a - k.vramBase) k.vramStride
  have hcol := Nat.div_mul_cancel (Nat.dvd_of_mod_eq_zero halign)
  have hbase := (inVram_iff.1 hin).1
  rw [vaddr, hcol]
  omega

/-- The stride is positive where an address is in the range. -/
theorem vramStride_pos_of_inVram {k : Config} {a : Nat} (h : inVram k a = true) : 0 < k.vramStride := by
  have hr := inVram_iff.1 h
  refine Nat.pos_of_ne_zero fun h0 => ?_
  rw [h0] at hr
  omega

/-- The column of an address of the range begins inside its row. -/
theorem column_mul_lt_stride {k : Config} {a : Nat} (h : inVram k a = true) :
    (a - k.vramBase) % k.vramStride / k.pixelBytes * k.pixelBytes < k.vramStride :=
  (Nat.div_mul_le_self _ _).trans_lt (Nat.mod_lt _ (vramStride_pos_of_inVram h))

/-- Settles O8: a pixel gives back its address by `eq_vaddr_of_vramMap_pixel`, so two addresses of one pixel are one. -/
theorem vramDecodeIsOneToOne : Obligations.VramDecodeIsOneToOne := by
  intro k a1 a2 x1 y1 x2 y2 _ h1 h2
  have e1 := eq_vaddr_of_vramMap_pixel h1
  have e2 := eq_vaddr_of_vramMap_pixel h2
  obtain ⟨hin, -, hx, -⟩ := (vramMap_pixel_iff k a1 x1 y1).1 h1
  refine ⟨fun hne heq => hne ?_, e1, hx ▸ column_mul_lt_stride hin, e1⟩
  obtain ⟨rfl, rfl⟩ := Prod.mk.inj heq
  rw [e1, e2]

/-- The decode of an address of the range, whose row is on the grid (20_memory.md R54). -/
theorem vramMap_of_inVram {k : Config} {a : Nat} (h : inVram k a = true) :
    vramMap k a =
      if (a - k.vramBase) % k.vramStride % k.pixelBytes = 0 then
        if (a - k.vramBase) % k.vramStride / k.pixelBytes < k.width then
          .pixel ((a - k.vramBase) % k.vramStride / k.pixelBytes) ((a - k.vramBase) / k.vramStride)
        else .outOfFb
      else .misaligned := by
  simp [vramMap, inFb, h, inVram_row h]

theorem vramMap_notVram_iff {k : Config} {a : Nat} : vramMap k a = .notVram ↔ ¬ inVram k a = true := by
  refine ⟨fun hno h => ?_, fun h => by rw [vramMap, if_neg h]⟩
  rw [vramMap_of_inVram h] at hno
  split_ifs at hno

/-- The decode is off the grid only for an address of the range whose column is (20_memory.md R54). -/
theorem column_of_vramMap_outOfFb {k : Config} {a : Nat} (h : vramMap k a = .outOfFb) :
    inVram k a = true ∧ k.width ≤ (a - k.vramBase) % k.vramStride / k.pixelBytes := by
  have hin : inVram k a = true := by
    by_contra hno
    rw [vramMap_notVram_iff.2 hno] at h
    cases h
  rw [vramMap_of_inVram hin] at h
  split_ifs at h with _ hcol
  exact ⟨hin, not_lt.1 hcol⟩

/-- The address of a pixel of the grid whose column begins inside its row decodes to the pixel (20_memory.md R55). -/
theorem vramMap_vaddr {k : Config} {x y : Nat} (hpix : 0 < k.pixelBytes) (hx : x < k.width) (hy : y < k.height)
    (hcol : x * k.pixelBytes < k.vramStride) : vramMap k (vaddr k x y) = .pixel x y := by
  have hoff : vaddr k x y - k.vramBase = y * k.vramStride + x * k.pixelBytes := by
    rw [vaddr]
    omega
  have hmod : (vaddr k x y - k.vramBase) % k.vramStride = x * k.pixelBytes := by
    rw [hoff, Nat.mul_add_mod', Nat.mod_eq_of_lt hcol]
  have hrow : (vaddr k x y - k.vramBase) / k.vramStride = y := by
    rw [hoff, Nat.add_comm, Nat.add_mul_div_right _ _ (by omega), Nat.div_eq_of_lt hcol, Nat.zero_add]
  have hrows : (y + 1) * k.vramStride ≤ k.height * k.vramStride := Nat.mul_le_mul_right _ hy
  have hin : inVram k (vaddr k x y) = true := by
    rw [Nat.add_mul, Nat.mul_comm k.height] at hrows
    rw [inVram_iff, vaddr]
    omega
  exact (vramMap_pixel_iff _ _ _ _).2
    ⟨hin, by rw [hmod, Nat.mul_mod_left], by rw [hmod, Nat.mul_div_cancel _ hpix], hrow.symm, hx, hy⟩

/-- Settles O9. -/
theorem vramRangeLiesInTheImage : Obligations.VramRangeLiesInTheImage := by
  intro k a h
  obtain ⟨-, ⟨hpix, -⟩, himage, -⟩ := Config.wf_bounds h
  refine ⟨fun x y hx hy hcol => vramMap_vaddr hpix hx hy hcol, fun hin => ?_, fun hout => ?_, ?_⟩
  · exact (inVram_iff.1 hin).2.trans_le himage
  · obtain ⟨hin, hoff⟩ := column_of_vramMap_outOfFb hout
    exact (Nat.mul_le_mul_right _ hoff).trans_lt (column_mul_lt_stride hin)
  · rw [vramMap_notVram_iff, inVram_iff]

/-! ### What each operation leaves unchanged -/

/-- Settles O18: an operation gives a state whose block alone is another, and its body leaves the other port. -/
theorem operationsLeaveTheClientsAndTheOtherPort : Obligations.OperationsLeaveTheClientsAndTheOtherPort := by
  intro i s t h
  obtain rfl := exec_next h
  exact ⟨rfl, rfl, rfl, rfl, fun _ => rfl, bodyOf_otherPort s.cfg i s.block⟩

theorem writtenPixel_set_iff {k : Config} {x y : Coord} {c d : Pixel} {x' y' : Nat} :
    writtenPixel k (.set x y c) = some (x', y', d) ↔
      inFb k x.toNat y.toNat = true ∧ x.toNat = x' ∧ y.toNat = y' ∧ c = d := by
  simp [writtenPixel]

/-- A VSTORE writes the pixel its address decodes to (41_framebuffer.md R124). -/
theorem writtenPixel_vstore_iff {k : Config} {a : Addr} {c d : Pixel} {x y : Nat} :
    writtenPixel k (.vstore a c) = some (x, y, d) ↔ vramMap k a.toNat = .pixel x y ∧ c = d := by
  cases h : vramMap k a.toNat <;> simp [writtenPixel, h, and_assoc]

/-- Only SET and VSTORE write a pixel (20_memory.md R68). -/
theorem set_or_vstore_of_writtenPixel {k : Config} {i : Instr} (h : writtenPixel k i ≠ none) :
    (∃ x y c, i = .set x y c) ∨ ∃ a c, i = .vstore a c := by
  cases i with
  | set x y c => exact .inl ⟨x, y, c, rfl⟩
  | vstore a c => exact .inr ⟨a, c, rfl⟩
  | _ => exact absurd rfl h

theorem port_of_writtenPixel {k : Config} {i : Instr} (h : writtenPixel k i ≠ none) : i.port = .c := by
  rcases set_or_vstore_of_writtenPixel h with ⟨x, y, c, rfl⟩ | ⟨a, c, rfl⟩ <;> rfl

/-- The body of an operation that writes no pixel leaves the frame buffer. -/
theorem bodyOf_fb_of_writes_none {k : Config} {i : Instr} (h : writtenPixel k i = none) (b : Block) :
    (bodyOf k i b).fb = b.fb := by
  rw [bodyOf_fb, h]
  cases b.gFb <;> rfl

/-- A body leaves every pixel its operation does not write. -/
theorem bodyOf_pixel_other {k : Config} {i : Instr} {x y : Nat} (h : ∀ d, writtenPixel k i ≠ some (x, y, d))
    (b : Block) :
    Grid.pixel (bodyOf k i b).fb x y = Grid.pixel b.fb x y := by
  rw [bodyOf_fb]
  split
  · rename_i x' y' d _ hw
    refine Grid.pixel_put_other _ _ fun e => h d ?_
    obtain ⟨rfl, rfl⟩ := Prod.mk.inj e
    exact hw
  · rfl

/-- The body of an operation that is no posting PUBLISH and no TAKE leaves the slot (20_memory.md R68). -/
theorem bodyOf_mailbox {k : Config} {i : Instr} (hp : posts i = false) (ht : isTake i = false) (b : Block) :
    (bodyOf k i b).mbKind = b.mbKind ∧ (bodyOf k i b).mbCode = b.mbCode ∧ (bodyOf k i b).mbOcc = b.mbOcc := by
  obtain ⟨hkind, hcode⟩ := bodyOf_slot (k := k) hp b
  exact ⟨hkind, hcode, by simp [bodyOf_mbOcc hp, ht]⟩

/-- Settles O19: SET and VSTORE write the pixel `writtenPixel` gives, and neither posts nor takes. -/
theorem frameBufferWritesChangeOnePixel : Obligations.FrameBufferWritesChangeOnePixel := by
  intro s t c
  refine ⟨fun x y h => ?_, fun a h => ?_⟩ <;> obtain rfl := exec_next h
  · refine ⟨fun x' y' hne => bodyOf_pixel_other (fun d hw => hne ?_) s.block, bodyOf_mailbox rfl rfl s.block⟩
    obtain ⟨-, rfl, rfl, -⟩ := writtenPixel_set_iff.1 hw
    rfl
  · refine ⟨fun x' y' hne => bodyOf_pixel_other (fun d hw => hne (writtenPixel_vstore_iff.1 hw).1) s.block,
      fun hno => bodyOf_fb_of_writes_none ?_ s.block, bodyOf_mailbox rfl rfl s.block⟩
    exact Option.eq_none_iff_forall_not_mem.2 fun ⟨x, y, d⟩ hw => hno x y (writtenPixel_vstore_iff.1 hw).1

theorem isTake_iff {i : Instr} : isTake i = true ↔ ∃ ie, i = .take ie := by
  cases i <;> simp [isTake]

/-- Settles O20: what is no SET and no VSTORE writes no pixel, what is no PUBLISH posts nothing, and every body gives
its grant back. -/
theorem otherOperationsLeaveTheFrameBuffer : Obligations.OtherOperationsLeaveTheFrameBuffer := by
  intro i s t h
  obtain rfl := exec_next h
  have hposts : (∀ kd code, i ≠ .publish kd code) → posts i = false := fun hpub =>
    Bool.eq_false_iff.2 fun hp => by
      obtain ⟨e, code, rfl⟩ := posts_iff.1 hp
      exact hpub _ _ rfl
  refine ⟨fun hset hvstore => bodyOf_fb_of_writes_none (by_contra fun hw => ?_) s.block, fun htake hpub => ?_,
    fun hpub => ?_, bodyOf_grants s.cfg i s.block⟩
  · rcases set_or_vstore_of_writtenPixel hw with ⟨x, y, c, rfl⟩ | ⟨a, c, rfl⟩
    · exact hset x y c rfl
    · exact hvstore a c rfl
  · refine bodyOf_mailbox (hposts hpub) (Bool.eq_false_iff.2 fun ht => ?_) s.block
    obtain ⟨ie, rfl⟩ := isTake_iff.1 ht
    exact htake ie rfl
  · obtain ⟨hkind, hcode⟩ := bodyOf_slot (k := s.cfg) (hposts hpub) s.block
    refine ⟨hkind, hcode, fun ho => ?_⟩
    exact (Bool.and_eq_true_iff.1 ((bodyOf_mbOcc (hposts hpub) s.block).symm.trans ho)).1

/-- Settles O32: outside a perform the frame buffer is as it was, and a perform changes it only by the pixel its
operation writes. -/
theorem onlyPortCWritesTheFrameBuffer : Obligations.OnlyPortCWritesTheFrameBuffer := by
  intro isa m s t h hne
  rcases (runMove_effect h).block_cases with hb | ⟨port, r, i, rfl, hr, hd, -, hb⟩ | ⟨port, rfl, hb⟩
  · exact absurd (by rw [hb]) hne
  · have hw : writtenPixel s.cfg i ≠ none := fun h0 => hne (by rw [hb, bodyOf_fb_of_writes_none h0])
    exact ⟨by rw [← port_of_pending hr hd, port_of_writtenPixel hw], i, performed_of_decode hr hd, hw⟩
  · exact absurd (by rw [hb]; cases port <;> rfl) hne

/-! ### The performs of the two ports -/

theorem performed_perform_iff {s : State} {port : Port} {i : Instr} :
    performed (.perform port) s = some i ↔ ∃ r, pendingReq s.block port = some r ∧ decode r = .ok i := by
  constructor
  · intro h
    simp only [performed] at h
    split at h
    · rename_i r hr
      split at h <;> cases h
      exact ⟨r, hr, ‹_›⟩
    · cases h
  · rintro ⟨r, hr, hd⟩
    exact performed_of_decode hr hd

/-- From the invariant the perform of a pending operation runs its body (40_port_protocol.md R102). -/
theorem runMove_perform (isa : Isa) {s : State} {port : Port} {i : Instr} (ha : PendingAdmitted s.cfg s.block port)
    (h : performed (.perform port) s = some i) :
    runMove isa (.perform port) s = .next { s with block := bodyOf s.cfg i s.block } := by
  obtain ⟨r, hr, hd⟩ := performed_perform_iff.1 h
  have hpend : pendingReq s.block i.port ≠ none := by simp [port_of_pending hr hd, hr]
  simp [runMove, performPort, hr, hd, ((ha r hr).op hd).2, exec_of_pending hpend]

/-- A perform leaves what the other port is about to perform. -/
theorem performed_after_body {s : State} {i : Instr} {port : Port} (hne : port ≠ i.port) :
    performed (.perform port) { s with block := bodyOf s.cfg i s.block } = performed (.perform port) s := by
  simp only [performed, (bodyOf_samePort s.cfg s.block hne).views.1]

/-- The performs of two ports, one after the other, run one body after the other. -/
theorem runMoves_perform_perform (isa : Isa) {s : State} (hs : Invariant s) {port port' : Port} (hne : port' ≠ port)
    {i j : Instr} (hi : performed (.perform port) s = some i) (hj : performed (.perform port') s = some j) :
    runMoves isa [.perform port, .perform port'] s =
      .next { s with block := bodyOf s.cfg j (bodyOf s.cfg i s.block) } := by
  obtain ⟨r, hr, hd⟩ := performed_perform_iff.1 hi
  have hfirst := runMove_perform isa (hs.pending port) hi
  have hkeeps := (runMove_effect hfirst).keeps_invariant hs
  have hsecond := runMove_perform isa (hkeeps.pending port')
    ((performed_after_body (by rwa [port_of_pending hr hd])).trans hj)
  simp [runMoves, hfirst, hsecond]

/-- The body of a TAKE with `g_mb` free reads and writes the slot and port C alone (42_mailbox.md R152). -/
theorem bodyOf_take_free {k : Config} {ie : Bool} {b : Block} (h : b.gMb = none) :
    bodyOf k (.take ie) b =
      { b with
        mbOcc := false
        cPort := .done (if b.mbOcc then eventRsp k ie b.mbKind b.mbCode else plainC .noEvent) } := by
  cases ho : b.mbOcc <;> simp [bodyOf, takeBody, underMb, h, ho, respondC]

/-- The body of a SNAPSHOT with `g_fb` free reads the grid and writes port P alone (41_framebuffer.md R123). -/
theorem bodyOf_snapshot_free {k : Config} {b : Block} (h : b.gFb = none) :
    bodyOf k .snapshot b = { b with pPort := .done { st := .ok, snap := b.fb } } := by
  simp [bodyOf, snapshotBody, underFb, h, respondP]

/-- The body of a PUBLISH that posts nothing faults (42_mailbox.md R151). -/
theorem bodyOf_publish_fault {k : Config} {kind : KindField} {code : KeyCode} (h : posts (.publish kind code) = false)
    (b : Block) : bodyOf k (.publish kind code) b = raiseFault k .p .badKind b := by
  cases kind with
  | none => rfl
  | reserved => rfl
  | _ => cases h

/-- The body of a SET, a GET or a VSTORE with `g_fb` free reads and writes the grid, port C and its fault register
alone (41_framebuffer.md R121, R122, R124). -/
theorem bodyOf_frameBuffer_free (k : Config) {i : Instr} (hc : i.port = .c) (hi : i.isIdle = false)
    (ht : isTake i = false) :
    ∃ (fb : Grid → Grid) (rsp : Grid → CRsp) (cause : Cause → Cause), ∀ b : Block, b.gFb = none →
      bodyOf k i b = { b with fb := fb b.fb, cPort := .done (rsp b.fb), cFault := cause b.cFault } := by
  cases i with
  | set x y c =>
    by_cases hin : inFb k x.toNat y.toNat = true
    · exact ⟨fun g => Grid.put g x.toNat y.toNat c, fun _ => plainC .ok, id, fun b h => by
        simp [bodyOf, setBody, putPixel, underFb, respondC, hin, h]⟩
    · exact ⟨id, fun _ => plainC .fault, fun _ => .fbBounds, fun b _ => by
        simp [bodyOf, setBody, raiseFault, respondC, hin]⟩
  | get x y =>
    by_cases hin : inFb k x.toNat y.toNat = true
    · exact ⟨id, fun g => { plainC .ok with rdata := Grid.pixel g x.toNat y.toNat }, id, fun b _ => by
        simp [bodyOf, getBody, respondC, hin]⟩
    · exact ⟨id, fun _ => plainC .fault, fun _ => .fbBounds, fun b _ => by
        simp [bodyOf, getBody, raiseFault, respondC, hin]⟩
  | vstore a c =>
    cases hv : vramMap k a.toNat with
    | notVram => exact ⟨id, fun _ => plainC .notVram, id, fun b _ => by simp [bodyOf, vstoreBody, respondC, hv]⟩
    | misaligned =>
      exact ⟨id, fun _ => plainC .fault, fun _ => .vramAlign, fun b _ => by
        simp [bodyOf, vstoreBody, raiseFault, respondC, hv]⟩
    | outOfFb =>
      exact ⟨id, fun _ => plainC .fault, fun _ => .vramMap, fun b _ => by
        simp [bodyOf, vstoreBody, raiseFault, respondC, hv]⟩
    | pixel x y =>
      exact ⟨fun g => Grid.put g x y c, fun _ => plainC .ok, id, fun b h => by
        simp [bodyOf, vstoreBody, putPixel, underFb, respondC, hv, h]⟩
  | idle _ => cases hi
  | take _ => cases ht
  | publish _ _ => cases hc
  | snapshot => cases hc

theorem bodyOf_take_snapshot_comm {k : Config} {ie : Bool} {b : Block} (hfb : b.gFb = none) (hmb : b.gMb = none) :
    bodyOf k .snapshot (bodyOf k (.take ie) b) = bodyOf k (.take ie) (bodyOf k .snapshot b) := by
  simp [bodyOf_take_free, bodyOf_snapshot_free, hfb, hmb]

/-- A PUBLISH reaches the mailbox, a SET, a GET or a VSTORE the frame buffer: in both orders their bodies give one block
(20_memory.md R66). -/
theorem bodyOf_frameBuffer_publish_comm {k : Config} {i : Instr} {kind : KindField} {code : KeyCode} {b : Block}
    (hc : i.port = .c) (hi : i.isIdle = false) (ht : isTake i = false) (hfb : b.gFb = none) (hmb : b.gMb = none) :
    bodyOf k (.publish kind code) (bodyOf k i b) = bodyOf k i (bodyOf k (.publish kind code) b) := by
  obtain ⟨fb, rsp, cause, hbody⟩ := bodyOf_frameBuffer_free k hc hi ht
  cases hp : posts (.publish kind code) with
  | true =>
    obtain ⟨e, code', he⟩ := posts_iff.1 hp
    rw [he]
    simp [hbody, bodyOf_publish_free, hfb, hmb]
  | false => simp [hbody, bodyOf_publish_fault hp, raiseFault, respondP, hfb]

/-- Settles O40: each order runs the two bodies one after the other, and the bodies commute. -/
theorem performsOnDifferentResourcesCommute : Obligations.PerformsOnDifferentResourcesCommute := by
  intro isa s i j hs hi hj hcase
  refine ⟨_, runMoves_perform_perform isa hs (by decide) hi hj, ?_⟩
  rw [runMoves_perform_perform isa hs (by decide) hj hi]
  obtain ⟨r, hr, hd⟩ := performed_perform_iff.1 hi
  have hcomm : bodyOf s.cfg j (bodyOf s.cfg i s.block) = bodyOf s.cfg i (bodyOf s.cfg j s.block) := by
    rcases hcase with ⟨ht, rfl⟩ | ⟨ht, kind, code, rfl⟩
    · obtain ⟨ie, rfl⟩ := isTake_iff.1 ht
      exact bodyOf_take_snapshot_comm hs.gFb hs.gMb
    · exact bodyOf_frameBuffer_publish_comm (port_of_pending hr hd) ((hs.pending .c r hr).op hd).1 ht hs.gFb hs.gMb
  rw [hcomm]

/-! ### Fetch -/

/-- The bytes an answer of ISA_STEP stands for: those of the instruction and those its loads read; from pc to the end of
the image for FetchOOB, the byte at pc for IsaFault (43_activities.md R180, log 14). -/
def fetchReads (k : Config) (pc : Nat) : IsaAnswer → Nat → Prop
  | .fetchOob, a => pc ≤ a ∧ a < k.memSize
  | .isaFault, a => a = pc
  | .record r, a => (pc ≤ a ∧ a < pc + r.len) ∨ a ∈ r.reads

/-- What Fetch makes of an answer that meets no VRAM (43_activities.md R180). -/
def afterFetch (k : Config) (c : Consumer) : IsaAnswer → Consumer
  | .fetchOob => { c with run := .fatal .fetchOob }
  | .isaFault => { c with run := .fatal .isa }
  | .record r =>
    if r.reads.any fun a => decide (k.memSize ≤ a) then { c with run := .fatal .memOob }
    else { c with fetched := some r, phase := .execute }

section
variable {isa : Isa} {s : State} {ans : IsaAnswer}
  (hans : isa.step s.cfg s.cons.cpu s.cons.mem s.cons.pc s.cons.ie = ans)
include hans

/-- Fetch is refused where a byte its answer stands for is in the VRAM range (20_memory.md R57). -/
theorem stepFetch_of_meetsVram (h : ∃ a, inVram s.cfg a = true ∧ fetchReads s.cfg s.cons.pc ans a) :
    stepFetch isa s = .refused .vramRead := by
  obtain ⟨a, hin, ha⟩ := h
  cases ans with
  | fetchOob =>
    have hmeets := meetsVram_iff.2 ⟨a, ha.1, ha.2, hin⟩
    simp [stepFetch, hans, hmeets]
  | isaFault =>
    obtain rfl : a = s.cons.pc := ha
    simp [stepFetch, hans, hin]
  | record r =>
    have hmeets : (meetsVram s.cfg s.cons.pc (s.cons.pc + r.len) || r.reads.any (inVram s.cfg)) = true := by
      rw [Bool.or_eq_true, meetsVram_iff, List.any_eq_true]
      exact ha.imp (fun ⟨hlo, hhi⟩ => ⟨a, hlo, hhi, hin⟩) fun hr => ⟨a, hr, hin⟩
    simp only [stepFetch, hans, hmeets, if_true]

/-- Fetch follows its answer where none of the bytes it stands for is in the VRAM range (43_activities.md R180). -/
theorem stepFetch_of_clear (h : ∀ a, fetchReads s.cfg s.cons.pc ans a → inVram s.cfg a = false) :
    stepFetch isa s = .next { s with cons := afterFetch s.cfg s.cons ans } := by
  cases ans with
  | fetchOob =>
    have hclear : ¬ meetsVram s.cfg s.cons.pc s.cfg.memSize = true := by
      rw [meetsVram_iff]
      rintro ⟨a, hlo, hhi, hin⟩
      simp [h a ⟨hlo, hhi⟩] at hin
    simp [stepFetch, hans, hclear, afterFetch, consumerFatal]
  | isaFault => simp [stepFetch, hans, h _ rfl, afterFetch, consumerFatal]
  | record r =>
    have hclear : ¬ (meetsVram s.cfg s.cons.pc (s.cons.pc + r.len) || r.reads.any (inVram s.cfg)) = true := by
      rw [Bool.or_eq_true, meetsVram_iff, List.any_eq_true]
      rintro (⟨a, hlo, hhi, hin⟩ | ⟨a, hr, hin⟩)
      · simp [h a (.inl ⟨hlo, hhi⟩)] at hin
      · simp [h a (.inr hr)] at hin
    simp only [stepFetch, hans, afterFetch, consumerFatal]
    rw [if_neg hclear]
    split <;> rfl

end

/-- A running consumer with no shutdown check due in Fetch takes its Fetch step (43_activities.md R176). -/
theorem runMove_consumer_fetch {isa : Isa} {s : State} (hc : s.cfg.cClient = .activity) (hr : s.cons.run = .running)
    (hd : s.cons.checkDue = false) (hp : s.cons.phase = .fetch) : runMove isa .consumer s = stepFetch isa s := by
  simp [runMove, stepConsumer, hc, hr, hd, hp]

/-- In a well-formed configuration the last byte of the VRAM range is in the image. -/
theorem exists_inVram_of_lt_vramHi {k : Config} (h : k.wf = true) {pc : Nat} (hpc : pc < vramHi k) :
    ∃ a, inVram k a = true ∧ pc ≤ a ∧ a < k.memSize := by
  obtain ⟨⟨-, -, hheight, -⟩, ⟨hpix, hstride⟩, himage, -⟩ := Config.wf_bounds h
  have hrange : 0 < k.vramStride * k.height := Nat.mul_pos (hpix.trans hstride) hheight
  rw [vramHi] at hpc
  exact ⟨k.vramBase + k.vramStride * k.height - 1, inVram_iff.2 (by omega), by omega, by omega⟩

/-- Settles O45: each clause says whether a byte the answer stands for is in the VRAM range. -/
theorem fetchFollowsTheIsaAnswer : Obligations.FetchFollowsTheIsaAnswer := by
  intro isa s hc hrun hdue hphase k ans
  rw [runMove_consumer_fetch hc hrun hdue hphase]
  refine ⟨fun hans hpc => ?_, fun hans hwf hpc => ?_, fun hans hout => ?_, fun hans hin => ?_, fun r hans =>
    ⟨fun hmeets => stepFetch_of_meetsVram hans hmeets, fun hclear => ?_⟩⟩
  · refine stepFetch_of_clear hans fun a ha => Bool.eq_false_iff.2 fun hin => ?_
    have := (inVram_iff.1 hin).2
    exact absurd (hpc.trans ha.1) (not_le.2 this)
  · obtain ⟨a, hin, ha⟩ := exists_inVram_of_lt_vramHi hwf hpc
    exact stepFetch_of_meetsVram hans ⟨a, hin, ha⟩
  · exact stepFetch_of_clear hans fun a ha => by rwa [show a = s.cons.pc from ha]
  · exact stepFetch_of_meetsVram hans ⟨_, hin, rfl⟩
  · rw [stepFetch_of_clear hans hclear]
    refine ⟨fun ⟨a, ha, hout⟩ => ?_, fun hall => ?_⟩
    · rw [afterFetch, if_pos (List.any_eq_true.2 ⟨a, ha, decide_eq_true hout⟩)]
    · rw [afterFetch, if_neg]
      rw [List.any_eq_true]
      rintro ⟨a, ha, hout⟩
      exact absurd (hall a ha) (not_lt.2 (of_decide_eq_true hout))

/-! ### The reasons of a refusal -/

/-- Every operation's word decodes to it (30_encoding.md R92). -/
theorem decode_encode (i : Instr) : decode (encode i) = .ok i := by
  cases i with
  | idle port => cases port <;> decide
  | take ie =>
    obtain ⟨hop, hie, -⟩ := packC_fields 0#32 0#32 0#16 0#16 ie 1#4
    cases ie <;> simp [encode, decode, decodeC, hop, hie]
  | set x y data =>
    obtain ⟨hop, -, hx, hy, hdata, -⟩ := packC_fields 0#32 data y x false 2#4
    simp [encode, decode, decodeC, hop, hx, hy, hdata]
  | get x y =>
    obtain ⟨hop, -, hx, hy, -⟩ := packC_fields 0#32 0#32 y x false 3#4
    simp [encode, decode, decodeC, hop, hx, hy]
  | vstore addr data =>
    obtain ⟨hop, -, -, -, hdata, haddr⟩ := packC_fields addr data 0#16 0#16 false 4#4
    simp [encode, decode, decodeC, hop, hdata, haddr]
  | publish kind code =>
    obtain ⟨hop, hkind, hcode⟩ := packP_fields code kind.bits 8#4
    simp [encode, decode, decodeP, hop, hkind, hcode, kindOfBits_bits]
  | snapshot => decide

/-- An activity's issue is refused only for an operation with a field too wide (30_encoding.md R87). -/
theorem issue_encode_refused {i : Instr} {s : State} {why : Refusal} (h : issue (encode i) s = .refused why) :
    why = .fieldWidth ∧ i.wf s.cfg = false := by
  obtain ⟨hwhy, -, -, hw⟩ := issue_refused h
  exact ⟨hwhy, by simpa [widthOk, decode_encode] using hw⟩

/-- A perform of a request an issue admits is not refused (40_port_protocol.md R110). -/
theorem performPort_ne_refused {s : State} {port : Port} (ha : PendingAdmitted s.cfg s.block port) {why : Refusal} :
    performPort port s ≠ .refused why := by
  intro h
  unfold performPort at h
  split at h
  · cases h
  · rename_i r hr
    split at h
    · rename_i i hd
      rw [if_pos ((ha r hr).op hd).2] at h
      exact exec_ne_refused h
    · exact performOn_ne_refused h

/-- A request presented is refused only at its issue (40_port_protocol.md R110). -/
theorem presentReq_refused {r : ReqWord} {s : State} {why : Refusal} (h : presentReq r s = .refused why) :
    why = .fieldWidth ∧ widthOk s.cfg r = false := by
  unfold presentReq at h
  split at h
  · cases h
  · split at h
    · obtain ⟨hwhy, -, -, hw⟩ := issue_refused h
      exact ⟨hwhy, hw⟩
    · cases h

theorem retireFree_ne_refused {port : Port} {s : State} {why : Refusal} : retireFree port s ≠ .refused why := by
  unfold retireFree
  split
  · cases port
    · cases s.block.cPort <;> simp
    · cases s.block.pPort <;> simp
  · simp

theorem stepInputCheck_ne_refused {isa : Isa} {s : State} {why : Refusal} : stepInputCheck isa s ≠ .refused why := by
  unfold stepInputCheck
  cases s.block.cPort
  case idle =>
    intro h
    cases (issue_encode_refused h).2
  all_goals simp

/-- Fetch is refused only for a byte in the VRAM range that its answer stands for (20_memory.md R57). -/
theorem stepFetch_refused {isa : Isa} {s : State} {why : Refusal} (h : stepFetch isa s = .refused why) :
    why = .vramRead ∧ ∃ a, inVram s.cfg a = true ∧
      fetchReads s.cfg s.cons.pc (isa.step s.cfg s.cons.cpu s.cons.mem s.cons.pc s.cons.ie) a := by
  by_cases hmeets : ∃ a, inVram s.cfg a = true ∧
      fetchReads s.cfg s.cons.pc (isa.step s.cfg s.cons.cpu s.cons.mem s.cons.pc s.cons.ie) a
  · rw [stepFetch_of_meetsVram rfl hmeets] at h
    cases h
    exact ⟨rfl, hmeets⟩
  · rw [stepFetch_of_clear rfl fun a ha => Bool.eq_false_iff.2 fun hin => hmeets ⟨a, hin, ha⟩] at h
    cases h

/-- Execute is refused only at the issue of a store whose address is too wide (30_encoding.md R87). -/
theorem stepExecute_refused {isa : Isa} {s : State} {why : Refusal} (h : stepExecute isa s = .refused why) :
    why = .fieldWidth ∧ ∃ r a n v nx, s.cons.fetched = some r ∧ r.action = .store a n v nx ∧
      2 ^ s.cfg.addrW ≤ a.toNat := by
  unfold stepExecute at h
  split at h
  · cases h
  · rename_i r hf
    split at h
    · rename_i a n v nx haction
      split at h
      · obtain ⟨hwhy, hw⟩ := issue_encode_refused h
        exact ⟨hwhy, r, a, n, v, nx, hf, haction, by simpa [Instr.wf] using hw⟩
      all_goals cases h
    all_goals cases h

theorem stepAdvance_ne_refused {s : State} {why : Refusal} : stepAdvance s ≠ .refused why := by
  unfold stepAdvance
  cases s.cons.fetched <;> simp

/-- The consumer is refused only in Fetch and Execute. -/
theorem stepConsumer_refused {isa : Isa} {s : State} {why : Refusal} (h : stepConsumer isa s = .refused why) :
    (s.cons.phase = .fetch ∧ stepFetch isa s = .refused why) ∨ stepExecute isa s = .refused why := by
  unfold stepConsumer at h
  split at h
  · split at h
    · cases h
    · cases hp : s.cons.phase <;> simp only [hp] at h
      · exact absurd h stepInputCheck_ne_refused
      · exact .inl ⟨rfl, h⟩
      · exact .inr h
      · exact absurd h stepAdvance_ne_refused
  · cases h

theorem stepSnapshot_ne_refused {s : State} {why : Refusal} : stepSnapshot s ≠ .refused why := by
  intro h
  unfold stepSnapshot at h
  split at h
  · cases (issue_encode_refused h).2
  · cases h
  · cases h
  · simp only at h
    split at h <;> cases h

/-- Input publishes codes of KEY_W bits, which an issue admits (43_activities.md R173). -/
theorem stepInput_ne_refused {es : List Event} {s : State} (ht : TodoFits s.cfg s.prod) {why : Refusal} :
    stepInput es s ≠ .refused why := by
  intro h
  unfold stepInput at h
  split at h
  · cases h
  · cases h
  · rename_i e rest hto
    split at h
    · have hfits := ht _ hto e List.mem_cons_self
      simpa [Instr.wf, hfits] using (issue_encode_refused h).2
    · cases h
    · cases h
    · simp only at h
      split at h <;> cases h

theorem stepSleep_ne_refused {s : State} {why : Refusal} : stepSleep s ≠ .refused why := by
  unfold stepSleep
  split <;> simp

theorem stepProducer_ne_refused {es : List Event} {ok : Bool} {s : State} (ht : TodoFits s.cfg s.prod) {why : Refusal} :
    stepProducer es ok s ≠ .refused why := by
  unfold stepProducer
  split
  · split
    · exact stepSnapshot_ne_refused
    · simp [stepPresent]
    · exact stepInput_ne_refused ht
    · exact stepSleep_ne_refused
  · simp

/-- Settles O25: only the consumer, in Fetch or in Execute, and an agent that presents a request are refused. -/
theorem refusalsHaveTheirReasons : Obligations.RefusalsHaveTheirReasons := by
  intro isa m s why hs h
  cases m with
  | perform port => exact absurd h (performPort_ne_refused (hs.pending port))
  | consumer =>
    rcases stepConsumer_refused h with ⟨hphase, hfetch⟩ | hexec
    · obtain ⟨hwhy, a, hin, ha⟩ := stepFetch_refused hfetch
      refine .inl ⟨hwhy, rfl, hphase, a, hin, ?_⟩
      cases hans : isa.step s.cfg s.cons.cpu s.cons.mem s.cons.pc s.cons.ie <;> rw [hans] at ha <;> exact ha
    · obtain ⟨hwhy, r, a, n, v, nx, hf, haction, hwide⟩ := stepExecute_refused hexec
      exact .inr ⟨hwhy, .inr ⟨r, a, n, v, nx, rfl, hf, haction, hwide⟩⟩
  | producer es ok => exact absurd h (stepProducer_ne_refused hs.todo)
  | present r =>
    obtain ⟨hwhy, hwide⟩ := presentReq_refused h
    refine .inr ⟨hwhy, .inl ⟨r, rfl, ?_⟩⟩
    cases hd : decode r <;> simpa [widthOk, hd] using hwide
  | retire port => exact absurd h retireFree_ne_refused
  | shutdown => cases h

/-! ### The producer beside the consumer -/

/-- An outcome with `f` applied to its next state; a stop stays as it is. -/
def mapNext (f : State → State) : Host.Outcome State Fault Refusal → Host.Outcome State Fault Refusal
  | .next t => .next (f t)
  | .fault e => .fault e
  | .refused why => .refused why

/-- The state with another consumer. -/
def withCons (c : Consumer) (s : State) : State := { s with cons := c }

theorem issue_withCons (c : Consumer) (r : ReqWord) (s : State) :
    issue r (withCons c s) = mapNext (withCons c) (issue r s) := by
  have hleft : issue r (withCons c s) =
      if isIdlePort s.block r.port = true ∧ r.op ≠ 0 then
        if widthOk s.cfg r then .next (withCons c { s with block := setPending s.block r }) else .refused .fieldWidth
      else .next (withCons c s) := rfl
  rw [hleft, issue]
  split_ifs <;> rfl

theorem stepSnapshot_withCons (c : Consumer) (s : State) :
    stepSnapshot (withCons c s) = mapNext (withCons c) (stepSnapshot s) := by
  cases hp : s.block.pPort with
  | idle => simpa [stepSnapshot, withCons, hp] using issue_withCons c (encode .snapshot) s
  | pending w => simp [stepSnapshot, withCons, hp, mapNext]
  | stopped => simp [stepSnapshot, withCons, hp, mapNext]
  | done r =>
    simp only [stepSnapshot, withCons, hp]
    split_ifs <;> rfl

theorem stepInput_withCons (c : Consumer) (es : List Event) (s : State) :
    stepInput es (withCons c s) = mapNext (withCons c) (stepInput es s) := by
  rcases ht : s.prod.todo with _ | _ | ⟨e, rest⟩
  · simp [stepInput, withCons, ht, mapNext]
  · simp [stepInput, withCons, ht, mapNext]
  · cases hp : s.block.pPort with
    | idle => simpa [stepInput, withCons, ht, hp] using issue_withCons c (encode (.publish (edgeField e.edge) e.code)) s
    | pending w => simp [stepInput, withCons, ht, hp, mapNext]
    | stopped => simp [stepInput, withCons, ht, hp, mapNext]
    | done r =>
      simp only [stepInput, withCons, ht, hp]
      split_ifs <;> rfl

theorem stepSleep_withCons (c : Consumer) (s : State) :
    stepSleep (withCons c s) = mapNext (withCons c) (stepSleep s) := by
  cases hs : s.host.shutP <;> simp [stepSleep, withCons, hs, mapNext]

/-- The producer's step does not see the consumer (43_activities.md R171). -/
theorem stepProducer_withCons (c : Consumer) (es : List Event) (ok : Bool) (s : State) :
    stepProducer es ok (withCons c s) = mapNext (withCons c) (stepProducer es ok s) := by
  by_cases hrun : s.cfg.pClient = .activity ∧ s.prod.run = .running
  · cases hp : s.prod.phase with
    | snapshot => simpa [stepProducer, withCons, hrun, hp] using stepSnapshot_withCons c s
    | present => simp [stepProducer, stepPresent, withCons, hrun, hp, mapNext]
    | input => simpa [stepProducer, withCons, hrun, hp] using stepInput_withCons c es s
    | sleep => simpa [stepProducer, withCons, hrun, hp] using stepSleep_withCons c s
  · simp [stepProducer, withCons, hrun, mapNext]

/-- Settles O54: in each phase the producer reads the configuration, its own state, port P and the host's signal. -/
theorem producerIgnoresTheConsumer : Obligations.ProducerIgnoresTheConsumer := by
  intro isa s c es ok
  have h := stepProducer_withCons c es ok s
  cases hs : stepProducer es ok s <;> rw [hs] at h <;> simpa [runMove, hs, mapNext, withCons] using h

end Sys2Proof.Machine
end

section
/-! PROOF. The settled statements on the encoding (30_encoding.md): decoding beside `encode`, what the decoder refuses,
the packed response words, the field widths at an issue, and the two activities at their ports. -/

namespace Sys2Proof.Machine

open Sys2Proof

/-! ### Request words -/

/-- Settles O1: the fields of each operation's word read back. -/
theorem decodeInvertsEncode : Obligations.DecodeInvertsEncode := decode_encode

/-- The ops a port admits (30_encoding.md R85). -/
def admittedOps : Port → List (BitVec 4)
  | .c => [0, 1, 2, 3, 4]
  | .p => [0, 8, 9]

/-- The decoder gives an op its port admits a meaning, and names every other one with its port (30_encoding.md R91). -/
theorem decode_verdict (r : ReqWord) :
    (r.op ∈ admittedOps r.port ∧ ∃ i, decode r = .ok i) ∨
      (r.op ∉ admittedOps r.port ∧ decode r = .error (.badOp r.port r.op)) := by
  cases r with
  | c w =>
    simp only [decode, decodeC]
    split_ifs with h0 h1 h2 h3 h4
    case neg =>
      exact .inr ⟨by simpa [admittedOps, ReqWord.op, ReqWord.port] using ⟨h0, h1, h2, h3, h4⟩, rfl⟩
    all_goals exact .inl ⟨by simp [admittedOps, ReqWord.op, ReqWord.port, *], _, rfl⟩
  | p w =>
    simp only [decode, decodeP]
    split_ifs with h0 h8 h9
    case neg => exact .inr ⟨by simpa [admittedOps, ReqWord.op, ReqWord.port] using ⟨h0, h8, h9⟩, rfl⟩
    all_goals exact .inl ⟨by simp [admittedOps, ReqWord.op, ReqWord.port, *], _, rfl⟩

theorem decode_isOk_iff {r : ReqWord} : (∃ i, decode r = .ok i) ↔ r.op ∈ admittedOps r.port := by
  rcases decode_verdict r with ⟨hop, hok⟩ | ⟨hop, herror⟩
  · exact iff_of_true hok hop
  · exact iff_of_false (by simp [herror]) hop

theorem error_of_decode {r : ReqWord} {e : DecodeError} (h : decode r = .error e) : e = .badOp r.port r.op := by
  rcases decode_verdict r with ⟨-, i, hok⟩ | ⟨-, herror⟩
  · cases hok.symm.trans h
  · cases herror.symm.trans h
    rfl

/-- Settles O2: both ports by `decode_verdict`, with the admitted ops read as numbers. -/
theorem decoderRefusesExactlyUnadmittedOps : Obligations.DecoderRefusesExactlyUnadmittedOps := by
  have hc : ∀ op : BitVec 4, op ∈ admittedOps .c ↔ op.toNat ∈ [0, 1, 2, 3, 4] := by decide
  have hp : ∀ op : BitVec 4, op ∈ admittedOps .p ↔ op.toNat ∈ [0, 8, 9] := by decide
  exact ⟨fun w => decode_isOk_iff.trans (hc _), fun w => decode_isOk_iff.trans (hp _),
    fun w e => error_of_decode, fun w e => error_of_decode⟩

/-- Settles O3: the branch the op chooses reads no field but those of its format. -/
theorem unreadRequestFieldsAreIgnored : Obligations.UnreadRequestFieldsAreIgnored := by
  refine ⟨fun w w' hop hie hxy hdata haddr i => ?_, fun w w' hop hkc i => ?_⟩
  · suffices h : decodeC w = decodeC w' by rw [decode, decode, h]
    simp only [decodeC, ← hop]
    split_ifs with h0 h1 h2 h3 h4
    · rfl
    · rw [hie h1]
    · obtain ⟨hx, hy⟩ := hxy (.inl h2)
      rw [hx, hy, hdata (.inl h2)]
    · obtain ⟨hx, hy⟩ := hxy (.inr h3)
      rw [hx, hy]
    · rw [hdata (.inr h4), haddr h4]
    · rfl
  · suffices h : decodeP w = decodeP w' by rw [decode, decode, h]
    simp only [decodeP, ← hop]
    split_ifs with h0 h8 h9
    · rfl
    · obtain ⟨hkind, hcode⟩ := hkc h8
      rw [hkind, hcode]
    · rfl
    · rfl

theorem decode_of_encode_eq {i : Instr} {r : ReqWord} (h : encode i = r) : decode r = .ok i := h ▸ decode_encode i

/-- Settles O4: each word is the one `encode` gives. -/
theorem writtenOutWordsDecode : Obligations.WrittenOutWordsDecode :=
  ⟨decode_of_encode_eq (by decide), decode_of_encode_eq (by decide), decode_of_encode_eq (by decide),
    decode_of_encode_eq (by decide), decode_of_encode_eq (by decide)⟩

/-! ### Response words -/

/-- A word put together of two fields determines both. -/
theorem bitVec_append_inj {m n : Nat} {a a' : BitVec m} {b b' : BitVec n} (h : a ++ b = a' ++ b') :
    a = a' ∧ b = b' := by
  have hhigh := congrArg (BitVec.extractLsb' n m) h
  have hlow := congrArg (BitVec.extractLsb' 0 n) h
  rw [BitVec.extractLsb'_append_eq_left, BitVec.extractLsb'_append_eq_left] at hhigh
  rw [BitVec.extractLsb'_append_eq_right, BitVec.extractLsb'_append_eq_right] at hlow
  exact ⟨hhigh, hlow⟩

theorem causeBits_injective : Function.Injective causeBits := by
  intro f f'
  cases f <;> cases f' <;> decide

theorem statusBits_injective : Function.Injective statusBits := by
  intro st st'
  cases st <;> cases st' <;> decide

theorem kindBits_injective : Function.Injective kindBits := by
  intro k k'
  cases k <;> cases k' <;> decide

/-- The fields of a C response word are taken off one by one, the lowest first (30_encoding.md R92). -/
theorem cRspWord_inj {r r' : CRsp} {f f' : Cause} (h : cRspWord r f = cRspWord r' f') : r = r' ∧ f = f' := by
  obtain ⟨h, hst⟩ := bitVec_append_inj h
  obtain ⟨h, hirq⟩ := bitVec_append_inj h
  obtain ⟨h, hkind⟩ := bitVec_append_inj h
  obtain ⟨h, -⟩ := bitVec_append_inj h
  obtain ⟨h, hcode⟩ := bitVec_append_inj h
  obtain ⟨hcause, hdata⟩ := bitVec_append_inj h
  cases r; cases r'
  cases statusBits_injective hst
  cases BitVec.ofBool_eq_iff_eq.1 hirq
  cases kindBits_injective hkind
  cases hcode
  cases hdata
  exact ⟨rfl, causeBits_injective hcause⟩

theorem pRspWord_inj {r r' : PRsp} {f f' : Cause} (h : pRspWord r f = pRspWord r' f') (hsnap : r.snap = r'.snap) :
    r = r' ∧ f = f' := by
  obtain ⟨hcause, hst⟩ := bitVec_append_inj h
  cases r; cases r'
  cases statusBits_injective hst
  cases hsnap
  exact ⟨rfl, causeBits_injective hcause⟩

/-- Settles O5: the packed fields have fixed widths, and each code stands for one value. -/
theorem responseWordsLoseNothing : Obligations.ResponseWordsLoseNothing :=
  ⟨fun _ _ _ _ => cRspWord_inj, fun _ _ _ _ => pRspWord_inj⟩

/-! ### The field widths at an issue -/

/-- The width check of an operation's own word is that of the operation (30_encoding.md R87). -/
@[simp] theorem widthOk_encode (k : Config) (i : Instr) : widthOk k (encode i) = i.wf k := by
  simp [widthOk, decode_encode]

@[simp] theorem port_encode (i : Instr) : (encode i).port = i.port := (decode_port (decode_encode i)).symm

section
variable {i : Instr} {s : State} (hidle : isIdlePort s.block i.port = true) (hi : i.isIdle = false)
include hidle hi

/-- An `Idle` port captures the word of an operation within its widths (40_port_protocol.md R101). -/
theorem issue_encode_of_wf (hw : i.wf s.cfg = true) :
    issue (encode i) s = .next { s with block := setPending s.block (encode i) } :=
  issue_of_admitted (by rwa [port_encode]) ⟨encode_op_ne hi, by rwa [widthOk_encode]⟩

/-- An operation with a field too wide is refused at its issue (40_port_protocol.md R110). -/
theorem issue_encode_of_overWide (hw : i.wf s.cfg = false) : issue (encode i) s = .refused .fieldWidth :=
  issue_of_overWide (by rwa [port_encode]) (encode_op_ne hi) (by rwa [widthOk_encode])

end

/-- A free agent's issue of a request with a field too wide is refused (40_port_protocol.md R110). -/
theorem runMove_present_of_overWide (isa : Isa) {r : ReqWord} {s : State} (hc : clientOf s.cfg r.port = .free)
    (hi : isIdlePort s.block r.port = true) (hidle : decode r ≠ .ok (.idle r.port)) (hw : widthOk s.cfg r = false) :
    runMove isa (.present r) s = .refused .fieldWidth := by
  have hop : r.op ≠ 0 := mt decode_of_op_zero hidle
  simp only [runMove, presentReq, hop, hc, if_false, if_true]
  exact issue_of_overWide hi hop hw

/-- Settles O26: an operation is checked at the bounded field it reads, an illegal request at that of its bundle. -/
theorem overWideOperandIsRefusedAtIssue : Obligations.OverWideOperandIsRefusedAtIssue := by
  intro isa s r hc hi
  refine ⟨fun a c hd hwide => ?_, fun kind code hd hwide => ?_, fun w e hr hd hwide => ?_, fun w e hr hd hwide => ?_⟩
  all_goals refine runMove_present_of_overWide isa hc hi (by simp [hd]) ?_
  · simpa [widthOk, hd, Instr.wf] using hwide
  · simpa [widthOk, hd, Instr.wf] using hwide
  · subst hr
    simpa [widthOk, hd, rawWidthOk] using hwide
  · subst hr
    simpa [widthOk, hd, rawWidthOk] using hwide

/-! ### Execute -/

/-- Execute of an action that is no store applies `cpu'` and `ie'` and goes to Advance (43_activities.md R181). -/
theorem stepExecute_of_noStore {isa : Isa} {s : State} {rec : IsaRecord} (hf : s.cons.fetched = some rec)
    (ha : ∀ a n v nx, rec.action ≠ .store a n v nx) :
    stepExecute isa s = .next { s with cons := { s.cons with cpu := rec.cpu, ie := rec.ie, phase := .advance } } := by
  cases haction : rec.action with
  | store a n v nx => exact absurd haction (ha a n v nx)
  | _ => simp [stepExecute, hf, haction]

/-- Execute of a store on an `Idle` port applies `cpu'` and `ie'` and issues its VSTORE (43_activities.md R181). -/
theorem stepExecute_of_store {isa : Isa} {s : State} {rec : IsaRecord} {a : Addr} {n v : Nat} {nx : IsaNext}
    (hf : s.cons.fetched = some rec) (ha : rec.action = .store a n v nx) (hp : s.block.cPort = .idle) :
    stepExecute isa s =
      issue (encode (.vstore a (isa.toColor v))) { s with cons := { s.cons with cpu := rec.cpu, ie := rec.ie } } := by
  simp [stepExecute, hf, ha, hp]

/-- Settles O46: the issue of a store's VSTORE sees the width of its address alone. -/
theorem executeAppliesEffectsAndIssuesStores : Obligations.ExecuteAppliesEffectsAndIssuesStores := by
  intro isa s rec hc hrun hdue hphase hf
  rw [runMove_consumer_execute hc hrun hdue hphase]
  refine ⟨stepExecute_of_noStore hf, fun a n v nx ha hp hfits => ?_, fun a n v nx ha hp hwide => ?_⟩
  · refine ⟨_, decode_encode (.vstore a (isa.toColor v)), ?_⟩
    rw [stepExecute_of_store hf ha hp]
    exact issue_encode_of_wf (isIdlePort_c.2 hp) rfl (decide_eq_true hfits)
  · rw [stepExecute_of_store hf ha hp]
    exact issue_encode_of_overWide (isIdlePort_c.2 hp) rfl (decide_eq_false (not_lt.2 hwide))

/-! ### The producer's tick -/

section
variable {isa : Isa} {s : State} {es : List Event} {ok : Bool} (hc : s.cfg.pClient = .activity)
  (hrun : s.prod.run = .running)
include hc hrun

/-- A running producer takes the step of its phase (43_activities.md R171). -/
theorem runMove_producer_snapshot (hp : s.prod.phase = .snapshot) :
    runMove isa (.producer es ok) s = stepSnapshot s := by
  simp [runMove, stepProducer, hc, hrun, hp]

theorem runMove_producer_present (hp : s.prod.phase = .present) :
    runMove isa (.producer es ok) s = stepPresent ok s := by
  simp [runMove, stepProducer, hc, hrun, hp]

theorem runMove_producer_input (hp : s.prod.phase = .input) :
    runMove isa (.producer es ok) s = stepInput es s := by
  simp [runMove, stepProducer, hc, hrun, hp]

theorem runMove_producer_sleep (hp : s.prod.phase = .sleep) :
    runMove isa (.producer es ok) s = stepSleep s := by
  simp [runMove, stepProducer, hc, hrun, hp]

end

/-- A port issues nothing while its request is pending (40_port_protocol.md R104). -/
theorem stepSnapshot_of_pending {s : State} {w : BitVec 24} (hp : s.block.pPort = .pending w) :
    stepSnapshot s = .next s := by
  simp [stepSnapshot, hp]

/-- Snapshot on an `Idle` port issues the SNAPSHOT (43_activities.md R172). -/
theorem stepSnapshot_of_idle {s : State} (hp : s.block.pPort = .idle) :
    stepSnapshot s = .next { s with block := setPending s.block (encode .snapshot) } := by
  rw [stepSnapshot, hp]
  exact issue_encode_of_wf (isIdlePort_p.2 hp) rfl rfl

/-- The retire of a SNAPSHOT keeps its grid (43_activities.md R172). -/
theorem stepSnapshot_of_answered {s : State} {r : PRsp} (hp : s.block.pPort = .done r) (hst : r.st ≠ .fault) :
    stepSnapshot s = .next { s with
      block := { s.block with pPort := .idle }
      prod := { s.prod with last := some r, lastSnap := some r.snap, phase := .present } } := by
  simp [stepSnapshot, hp, hst, prunAfter_of_ne]

theorem stepInput_of_unasked {s : State} {es : List Event} (ht : s.prod.todo = none) :
    stepInput es s = .next { s with prod := { s.prod with todo := some (drawnEvents s.cfg es) } } := by
  simp [stepInput, ht]

/-- Input with no transition left ends (43_activities.md R173). -/
theorem stepInput_of_published {s : State} {es : List Event} (ht : s.prod.todo = some []) :
    stepInput es s = .next { s with prod := { s.prod with todo := none, phase := .sleep } } := by
  simp [stepInput, ht]

section
variable {s : State} {es rest : List Event} {e : Event} (ht : s.prod.todo = some (e :: rest))
include ht

/-- Input on an `Idle` port issues the PUBLISH of the next transition (43_activities.md R173). -/
theorem stepInput_of_idle (hp : s.block.pPort = .idle) :
    stepInput es s = issue (encode (.publish (edgeField e.edge) e.code)) s := by
  simp [stepInput, ht, hp]

theorem stepInput_of_pending {w : BitVec 24} (hp : s.block.pPort = .pending w) : stepInput es s = .next s := by
  simp [stepInput, ht, hp]

/-- The retire of a PUBLISH goes on to the next transition (43_activities.md R173). -/
theorem stepInput_of_answered {r : PRsp} (hp : s.block.pPort = .done r) (hst : r.st ≠ .fault) :
    stepInput es s = .next { s with
      block := { s.block with pPort := .idle }
      prod := { s.prod with last := some r, todo := some rest } } := by
  simp [stepInput, ht, hp, hst, prunAfter_of_ne]

end

/-- A running producer is shut down only by its own step in Sleep, which sees the signal (43_activities.md R174). -/
theorem Effect.sleep_of_shutdown {s t : State} {m : Move} (he : Effect s m t) (hrun : s.prod.run = .running)
    (hend : t.prod.run = .shutdown) :
    (∃ es ok, m = .producer es ok) ∧ s.prod.phase = .sleep ∧ s.host.shutP = true := by
  have hns : s.prod.run ≠ .shutdown := by simp [hrun]
  cases he with
  | producerMoves es ok q sink _ _ _ hsleep => exact ⟨⟨es, ok, rfl⟩, hsleep hend⟩
  | producerRetires es ok rsp q _ _ _ _ _ _ hq => exact absurd hend hq
  | freeRetiresP rsp => exact absurd hend (prunAfter_ne_shutdown hns _)
  | _ => exact absurd hend hns

/-- Settles O52: each clause is one phase's step in one state of port P; that no other move ends the producer by a
shutdown needs the producer to be running, and is read off the effects of a move. -/
theorem producerTickFollowsItsPhases : Obligations.ProducerTickFollowsItsPhases := by
  intro isa s es ok hc hrun goes
  have hsnapshot := runMove_producer_snapshot (isa := isa) (es := es) (ok := ok) hc hrun
  have hinput := runMove_producer_input (isa := isa) (es := es) (ok := ok) hc hrun
  refine ⟨fun hph hp => ?_, fun r hph hp hst => ?_, fun hph => ?_, fun hph w hp => ?_, fun hph ht hfits => ?_,
    fun hph ht => ?_, fun e rest hph ht hp hfits => ?_, fun e rest hph ht hp hwide => ?_,
    fun e rest w hph ht hp => ?_, fun e rest r hph ht hp hst => ?_, fun hph ht => ?_, fun hph => ?_,
    fun m t h hend => ?_⟩
  · exact ⟨_, decode_encode .snapshot, (hsnapshot hph).trans (stepSnapshot_of_idle hp)⟩
  · exact (hsnapshot hph).trans (stepSnapshot_of_answered hp hst)
  · exact runMove_producer_present hc hrun hph
  · exact (hsnapshot hph).trans (stepSnapshot_of_pending hp)
  · rw [← drawnEvents_of_fits hfits]
    exact (hinput hph).trans (stepInput_of_unasked ht)
  · exact (hinput hph).trans (stepInput_of_unasked ht)
  · refine ⟨_, decode_encode (.publish (edgeField e.edge) e.code), ?_⟩
    exact ((hinput hph).trans (stepInput_of_idle ht hp)).trans
      (issue_encode_of_wf (isIdlePort_p.2 hp) rfl (decide_eq_true hfits))
  · exact ((hinput hph).trans (stepInput_of_idle ht hp)).trans
      (issue_encode_of_overWide (isIdlePort_p.2 hp) rfl (decide_eq_false (not_lt.2 hwide)))
  · exact (hinput hph).trans (stepInput_of_pending ht hp)
  · exact (hinput hph).trans (stepInput_of_answered ht hp hst)
  · exact (hinput hph).trans (stepInput_of_published ht)
  · refine (runMove_producer_sleep hc hrun hph).trans ?_
    rw [stepSleep]
    split <;> rfl
  · exact (runMove_effect h).sleep_of_shutdown hrun hend

/-! ### The consumer beside the producer -/

/-- The state with another producer, and with another block but for port C and its fault register. -/
def withShared (b : Block) (p : Producer) (s : State) : State :=
  { s with block := { b with cPort := s.block.cPort, cFault := s.block.cFault }, prod := p }

section
variable (isa : Isa) (b : Block) (p : Producer) (s : State)

/-- The issue of a request on port C sees that port alone (40_port_protocol.md R101). -/
theorem issue_withShared {r : ReqWord} (hr : r.port = .c) :
    issue r (withShared b p s) = mapNext (withShared b p) (issue r s) := by
  cases r with
  | p w => cases hr
  | c w =>
    have hleft : issue (.c w) (withShared b p s) =
        if isIdlePort s.block (ReqWord.c w).port = true ∧ (ReqWord.c w).op ≠ 0 then
          if widthOk s.cfg (.c w) then .next (withShared b p { s with block := setPending s.block (.c w) })
          else .refused .fieldWidth
        else .next (withShared b p s) := rfl
    rw [hleft, issue]
    split_ifs <;> rfl

theorem stepInputCheck_withShared :
    stepInputCheck isa (withShared b p s) = mapNext (withShared b p) (stepInputCheck isa s) := by
  cases hp : s.block.cPort with
  | idle => simpa [stepInputCheck, withShared, hp] using issue_withShared b p s (r := encode (.take s.cons.ie)) rfl
  | _ => simp [stepInputCheck, withShared, hp, mapNext]

theorem stepFetch_withShared : stepFetch isa (withShared b p s) = mapNext (withShared b p) (stepFetch isa s) := by
  by_cases hmeets : ∃ a, inVram s.cfg a = true ∧
      fetchReads s.cfg s.cons.pc (isa.step s.cfg s.cons.cpu s.cons.mem s.cons.pc s.cons.ie) a
  · rw [stepFetch_of_meetsVram rfl hmeets, stepFetch_of_meetsVram (s := withShared b p s) rfl hmeets]
    rfl
  · have hclear := fun a ha => Bool.eq_false_iff.2 fun hin => hmeets ⟨a, hin, ha⟩
    rw [stepFetch_of_clear rfl hclear, stepFetch_of_clear (s := withShared b p s) rfl hclear]
    rfl

theorem stepExecute_withShared :
    stepExecute isa (withShared b p s) = mapNext (withShared b p) (stepExecute isa s) := by
  cases hf : s.cons.fetched with
  | none => simp [stepExecute, withShared, hf, mapNext]
  | some rec =>
    cases ha : rec.action with
    | store a n v nx =>
      cases hp : s.block.cPort with
      | idle =>
        rw [stepExecute_of_store hf ha hp, stepExecute_of_store (s := withShared b p s) hf ha hp]
        exact issue_withShared b p { s with cons := { s.cons with cpu := rec.cpu, ie := rec.ie } } rfl
      | done r =>
        rw [stepExecute_of_answered hf ha hp, stepExecute_of_answered (s := withShared b p s) hf ha hp]
        rfl
      | _ => simp [stepExecute, withShared, hf, ha, hp, mapNext]
    | _ => simp [stepExecute, withShared, hf, ha, mapNext]

theorem stepAdvance_withShared : stepAdvance (withShared b p s) = mapNext (withShared b p) (stepAdvance s) := by
  cases hf : s.cons.fetched <;> simp [stepAdvance, withShared, hf, mapNext]

/-- The consumer's step sees nothing of the block but port C and its fault register (43_activities.md R170). -/
theorem stepConsumer_withShared :
    stepConsumer isa (withShared b p s) = mapNext (withShared b p) (stepConsumer isa s) := by
  by_cases hrun : s.cfg.cClient = .activity ∧ s.cons.run = .running
  · cases hdue : s.cons.checkDue
    · cases hp : s.cons.phase with
      | inputCheck => simpa [stepConsumer, withShared, hrun, hdue, hp] using stepInputCheck_withShared isa b p s
      | fetch => simpa [stepConsumer, withShared, hrun, hdue, hp] using stepFetch_withShared isa b p s
      | execute => simpa [stepConsumer, withShared, hrun, hdue, hp] using stepExecute_withShared isa b p s
      | advance => simpa [stepConsumer, withShared, hrun, hdue, hp] using stepAdvance_withShared b p s
    · simp [stepConsumer, stepCheck, withShared, hrun, hdue, mapNext]
  · simp [stepConsumer, withShared, hrun, mapNext]

end

/-- A consumer step changes the consumer and port C alone (43_activities.md R170). -/
theorem Effect.frame_of_consumer {s t : State} (he : Effect s .consumer t) :
    t.cfg = s.cfg ∧ t.prod = s.prod ∧ t.host = s.host ∧ t.block = { s.block with cPort := t.block.cPort } := by
  cases he <;> exact ⟨rfl, rfl, rfl, rfl⟩

/-- Settles O55: the writes by the effects of a consumer step, the reads by `stepConsumer_withShared`. -/
theorem consumerReachesSharedStateOnlyByItsPort : Obligations.ConsumerReachesSharedStateOnlyByItsPort := by
  intro isa s t h
  obtain ⟨hcfg, hprod, hhost, hblock⟩ := (runMove_effect h).frame_of_consumer
  refine ⟨hcfg, hprod, hhost, hblock, fun b p hport hfault => ?_⟩
  have hstart : withShared b p s = { s with block := b, prod := p } := by
    rw [withShared, ← hport, ← hfault]
  have hend : withShared b p t = { t with block := { b with cPort := t.block.cPort }, prod := p } := by
    rw [withShared, congrArg Block.cFault hblock, hfault]
  rw [← hstart, ← hend]
  have hstep := stepConsumer_withShared isa b p s
  rwa [show stepConsumer isa s = .next t from h] at hstep

end Sys2Proof.Machine
end

section
/-! PROOF. The settled statements on the port protocol (40_port_protocol.md): what a move can do to a port, what a step
runs, and progress along a fair order. -/

namespace Sys2Proof.Machine

open Sys2Proof

/-! ### What a move does to a port -/

/-- A move of port C's agent retires the response `r`: the agent reads it, and a FAULT ends the agent
(40_port_protocol.md R103). -/
structure RetiresC (s : State) (m : Move) (t : State) (r : CRsp) : Prop where
  held : s.block.cPort = .done r
  byAgent : isAgentMove s.cfg .c m = true
  becomes : t.block.cPort = if r.st = .fault then .stopped else .idle
  read : t.cons.last = some r
  ends : r.st = .fault → s.cons.run = .running → t.cons.run = .fatal (.block s.block.cFault)

/-- A move of port P's agent retires the response `r`, as `RetiresC`. -/
structure RetiresP (s : State) (m : Move) (t : State) (r : PRsp) : Prop where
  held : s.block.pPort = .done r
  byAgent : isAgentMove s.cfg .p m = true
  becomes : t.block.pPort = if r.st = .fault then .stopped else .idle
  read : t.prod.last = some r
  ends : r.st = .fault → s.prod.run = .running → t.prod.run = .stopped

/-- A move retires the response a port holds. -/
def Retires (s : State) (m : Move) (t : State) : Port → Prop
  | .c => ∃ r, RetiresC s m t r
  | .p => ∃ r, RetiresP s m t r

theorem Retires.answered {s t : State} {m : Move} {port : Port} (h : Retires s m t port) :
    answered s.block port ≠ none := by
  cases port <;> obtain ⟨r, hr⟩ := h <;> simp [Machine.answered, hr.held]

theorem Retires.byAgent {s t : State} {m : Move} {port : Port} (h : Retires s m t port) :
    isAgentMove s.cfg port m = true := by
  cases port <;> obtain ⟨r, hr⟩ := h <;> exact hr.byAgent

/-- A move leaves a port, or performs it, or finds it `Idle` (an issue), or retires its response
(40_port_protocol.md R104). -/
theorem Effect.port_cases {s t : State} {m : Move} (he : Effect s m t) (q : Port) :
    SamePort s.block t.block q ∨ (m = .perform q ∧ pendingReq s.block q ≠ none) ∨ isIdlePort s.block q = true ∨
      Retires s m t q := by
  cases he with
  | performs port r i hr hd =>
    by_cases hq : q = port
    · exact .inr (.inl ⟨by rw [hq], by simp [hq, hr]⟩)
    · exact .inl (bodyOf_samePort _ _ (port_of_pending hr hd ▸ hq))
  | faultsBadOp port r e hr =>
    by_cases hq : q = port
    · exact .inr (.inl ⟨by rw [hq], by simp [hq, hr]⟩)
    · exact .inl (raiseFault_samePort _ _ _ hq)
  | issues r hc hi =>
    by_cases hq : q = r.port
    · exact .inr (.inr (.inl (hq ▸ hi)))
    · exact .inl (setPending_samePort _ hq)
  | consumerIssues w cpu ie _ _ _ hi =>
    cases q with
    | c => exact .inr (.inr (.inl hi))
    | p => exact .inl ⟨rfl, rfl⟩
  | consumerRetires rsp c hact _ _ hp hlast _ hf =>
    cases q with
    | c => exact .inr (.inr (.inr ⟨rsp, hp, by simp [isAgentMove, hact], rfl, hlast, fun hst _ => hf hst⟩))
    | p => exact .inl ⟨rfl, rfl⟩
  | producerIssues es ok w _ _ _ hi =>
    cases q with
    | c => exact .inl ⟨rfl, rfl⟩
    | p => exact .inr (.inr (.inl hi))
  | producerRetires es ok rsp p hact _ _ hp hlast hf =>
    cases q with
    | c => exact .inl ⟨rfl, rfl⟩
    | p => exact .inr (.inr (.inr ⟨rsp, hp, by simp [isAgentMove, hact], rfl, hlast, fun hst _ => hf hst⟩))
  | freeRetiresC rsp hc hp =>
    cases q with
    | c => exact .inr (.inr (.inr ⟨rsp, hp, by simp [isAgentMove, hc], rfl, rfl, fun hst hrun => by simp [hst, hrun]⟩))
    | p => exact .inl ⟨rfl, rfl⟩
  | freeRetiresP rsp hc hp =>
    cases q with
    | c => exact .inl ⟨rfl, rfl⟩
    | p => exact .inr (.inr (.inr ⟨rsp, hp, by simp [isAgentMove, hc], rfl, rfl, fun hst hrun => by simp [hst, hrun]⟩))
  | _ => exact .inl (by cases q <;> exact ⟨rfl, rfl⟩)

/-- A move that is no perform of a `Pending` port leaves it (40_port_protocol.md R104). -/
theorem Effect.samePort_of_pending {s t : State} {m : Move} (he : Effect s m t) {port : Port} {r : ReqWord}
    (hr : pendingReq s.block port = some r) (hm : m ≠ .perform port) : SamePort s.block t.block port := by
  rcases he.port_cases port with hsame | ⟨hperf, -⟩ | hi | hret
  · exact hsame
  · exact absurd hperf hm
  · simp [(views_of_idle hi).1] at hr
  · exact absurd (views_of_pending hr).1 hret.answered

/-- Every move but a retire leaves a port that holds a response (40_port_protocol.md R103). -/
theorem Effect.samePort_or_retires {s t : State} {m : Move} (he : Effect s m t) {port : Port} {st : Status}
    (ha : answered s.block port = some st) : SamePort s.block t.block port ∨ Retires s m t port := by
  obtain ⟨hpend, -, hidle⟩ := views_of_answered ha
  rcases he.port_cases port with hsame | ⟨-, hperf⟩ | hi | hret
  · exact .inl hsame
  · exact absurd hpend hperf
  · simp [hidle] at hi
  · exact .inr hret

/-- Every move leaves a `Stopped` port and its fault register (40_port_protocol.md R109). -/
theorem Effect.samePort_of_stopped {s t : State} {m : Move} (he : Effect s m t) {port : Port}
    (hs : isStopped s.block port = true) : SamePort s.block t.block port := by
  rcases he.port_cases port with hsame | ⟨-, hperf⟩ | hi | hret
  · exact hsame
  · exact absurd (views_of_stopped hs) hperf
  · obtain ⟨-, -, hno⟩ := views_of_idle hi
    simp [hno] at hs
  · obtain ⟨st, ha⟩ := Option.ne_none_iff_exists'.1 hret.answered
    obtain ⟨-, hno, -⟩ := views_of_answered ha
    simp [hno] at hs

/-- Settles O28. -/
theorem pendingRequestIsStable : Obligations.PendingRequestIsStable := by
  intro isa m s t port r hr hm h
  exact ((runMove_effect h).samePort_of_pending hr hm).views.1.trans hr

/-- Settles O30. -/
theorem stoppedPortStaysStopped : Obligations.StoppedPortStaysStopped := by
  intro isa m s t port hs h
  have hsame := (runMove_effect h).samePort_of_stopped hs
  obtain ⟨-, -, hstopped, -⟩ := hsame.views
  exact ⟨hstopped.trans hs, hsame.faultOf_eq⟩

/-! ### The moves of an agent -/

theorem isAgentMove_c_iff {k : Config} {m : Move} :
    isAgentMove k .c m = true ↔
      (k.cClient = .activity ∧ m = .consumer) ∨ (k.cClient = .free ∧ m = .retire .c) := by
  simp only [isAgentMove]
  split <;> simp_all

theorem isAgentMove_p_iff {k : Config} {m : Move} :
    isAgentMove k .p m = true ↔
      (k.pClient = .activity ∧ ∃ es ok, m = .producer es ok) ∨ (k.pClient = .free ∧ m = .retire .p) := by
  simp only [isAgentMove]
  split <;> simp_all

/-- A free agent retires the response on port C (40_port_protocol.md R103). -/
theorem retireFree_c_of_answered {s : State} {r : CRsp} (hc : s.cfg.cClient = .free) (hp : s.block.cPort = .done r) :
    retireFree .c s = .next (retireC r s) := by
  simp [retireFree, hc, hp]

theorem retireFree_p_of_answered {s : State} {r : PRsp} (hc : s.cfg.pClient = .free) (hp : s.block.pPort = .done r) :
    retireFree .p s = .next (retireP r s) := by
  simp [retireFree, hc, hp]

/-- Settles O29: a response leaves its port only by `Retires`, and a free agent's retire is `retireC` or `retireP`. -/
theorem retireStopsThePortOnFault : Obligations.RetireStopsThePortOnFault := by
  intro isa m s t h
  have he := runMove_effect h
  refine ⟨fun r hp hne => ?_, fun r hp hne => ?_, fun r hc hp => retireFree_c_of_answered hc hp,
    fun r hc hp => retireFree_p_of_answered hc hp⟩
  · rcases he.samePort_or_retires (port := .c) (st := r.st) (by simp [answered, hp]) with hsame | ⟨r', hret⟩
    · exact absurd (hsame.1.trans hp) hne
    · cases hp.symm.trans hret.held
      exact ⟨hret.becomes, hret.read, (isAgentMove_c_iff.1 hret.byAgent).imp And.right And.right, hret.ends⟩
  · rcases he.samePort_or_retires (port := .p) (st := r.st) (by simp [answered, hp]) with hsame | ⟨r', hret⟩
    · exact absurd (hsame.1.trans hp) hne
    · cases hp.symm.trans hret.held
      exact ⟨hret.becomes, hret.read, (isAgentMove_p_iff.1 hret.byAgent).imp And.right And.right, hret.ends⟩

/-! ### No move faults -/

/-- The block performs a port only while a request is pending there (40_port_protocol.md R102). -/
theorem performPort_ne_fault {port : Port} {s : State} {f : Fault} : performPort port s ≠ .fault f := by
  unfold performPort
  split
  · simp
  · rename_i r hr
    split
    · rename_i i hd
      have hpend : pendingReq s.block i.port ≠ none := by simp [port_of_pending hr hd, hr]
      split <;> simp [exec_of_pending hpend]
    · simp [performOn_of_pending, hr]

theorem presentReq_ne_fault {r : ReqWord} {s : State} {f : Fault} : presentReq r s ≠ .fault f := by
  unfold presentReq
  split
  · simp [exec_idle (i := .idle r.port) rfl]
  · split
    · exact issue_ne_fault
    · simp

theorem retireFree_ne_fault {port : Port} {s : State} {f : Fault} : retireFree port s ≠ .fault f := by
  unfold retireFree
  split
  · cases port
    · cases s.block.cPort <;> simp
    · cases s.block.pPort <;> simp
  · simp

theorem stepInputCheck_ne_fault {isa : Isa} {s : State} {f : Fault} : stepInputCheck isa s ≠ .fault f := by
  unfold stepInputCheck
  cases s.block.cPort
  case idle => exact issue_ne_fault
  all_goals simp

theorem stepFetch_ne_fault {isa : Isa} {s : State} {f : Fault} : stepFetch isa s ≠ .fault f := by
  by_cases hmeets : ∃ a, inVram s.cfg a = true ∧
      fetchReads s.cfg s.cons.pc (isa.step s.cfg s.cons.cpu s.cons.mem s.cons.pc s.cons.ie) a
  · simp [stepFetch_of_meetsVram rfl hmeets]
  · simp [stepFetch_of_clear rfl fun a ha => Bool.eq_false_iff.2 fun hin => hmeets ⟨a, hin, ha⟩]

theorem stepExecute_ne_fault {isa : Isa} {s : State} {f : Fault} : stepExecute isa s ≠ .fault f := by
  unfold stepExecute
  split
  · simp
  · split
    · cases s.block.cPort
      case idle => exact issue_ne_fault
      all_goals simp
    all_goals simp

theorem stepAdvance_ne_fault {s : State} {f : Fault} : stepAdvance s ≠ .fault f := by
  unfold stepAdvance
  cases s.cons.fetched <;> simp

theorem stepConsumer_ne_fault {isa : Isa} {s : State} {f : Fault} : stepConsumer isa s ≠ .fault f := by
  unfold stepConsumer
  split
  · split
    · simp [stepCheck]
    · split
      · exact stepInputCheck_ne_fault
      · exact stepFetch_ne_fault
      · exact stepExecute_ne_fault
      · exact stepAdvance_ne_fault
  · simp

theorem stepSnapshot_ne_fault {s : State} {f : Fault} : stepSnapshot s ≠ .fault f := by
  unfold stepSnapshot
  cases s.block.pPort
  case idle => exact issue_ne_fault
  case done r =>
    simp only
    split <;> simp
  all_goals simp

theorem stepInput_ne_fault {es : List Event} {s : State} {f : Fault} : stepInput es s ≠ .fault f := by
  unfold stepInput
  split
  · simp
  · simp
  · cases s.block.pPort
    case idle => exact issue_ne_fault
    case done r =>
      simp only
      split <;> simp
    all_goals simp

theorem stepSleep_ne_fault {s : State} {f : Fault} : stepSleep s ≠ .fault f := by
  unfold stepSleep
  split <;> simp

theorem stepProducer_ne_fault {es : List Event} {ok : Bool} {s : State} {f : Fault} :
    stepProducer es ok s ≠ .fault f := by
  unfold stepProducer
  split
  · split
    · exact stepSnapshot_ne_fault
    · simp [stepPresent]
    · exact stepInput_ne_fault
    · exact stepSleep_ne_fault
  · simp

/-- No move answers a model fault. -/
theorem runMove_ne_fault {isa : Isa} {m : Move} {s : State} {f : Fault} : runMove isa m s ≠ .fault f := by
  cases m with
  | perform port => exact performPort_ne_fault
  | consumer => exact stepConsumer_ne_fault
  | producer es ok => exact stepProducer_ne_fault
  | present r => exact presentReq_ne_fault
  | retire port => exact retireFree_ne_fault
  | shutdown c p => simp [runMove]

/-- Settles O24: a step is a refusal or a move. -/
theorem noStepFaults : Obligations.NoStepFaults := by
  intro s f
  unfold step
  split
  · exact runMove_ne_fault
  · simp

/-! ### What a step runs -/

theorem runMove_present_idle (isa : Isa) {r : ReqWord} (h : r.op = 0) (s : State) :
    runMove isa (.present r) s = .next s := by
  simp [runMove, presentReq, h, exec_idle (i := .idle r.port) rfl]

/-- Settles O10. -/
theorem idleChangesNothing : Obligations.IdleChangesNothing :=
  fun isa s => ⟨fun _ => rfl, fun _ h => runMove_present_idle isa h s⟩

/-- The perform of a pending operation within its widths runs it (40_port_protocol.md R102). -/
theorem runMove_perform_of_wf (isa : Isa) {s : State} {port : Port} {r : ReqWord} {i : Instr}
    (hr : pendingReq s.block port = some r) (hd : decode r = .ok i) (hw : i.wf s.cfg = true) :
    runMove isa (.perform port) s = exec i s := by
  simp [runMove, performPort, hr, hd, hw]

/-- Settles O22: a step runs the next move, the perform of a pending operation runs the operation, and a request
presented that decodes to IDLE leaves the state, as `exec` does. -/
theorem stepRunsTheDecodedInstruction : Obligations.StepRunsTheDecodedInstruction := by
  refine ⟨fun s port ms r i hk hs hr hd hw => ?_, fun s ms r i hk hs hd hi => ?_,
    fun isa s port r i hr hd hw => runMove_perform_of_wf isa hr hd hw, fun s m ms hk hs => step_of_sched hk hs,
    fun s hk hs => step_of_tick hk hs⟩
  · rw [step_of_sched hk hs]
    exact runMove_perform_of_wf _ hr hd hw
  · rw [step_of_sched hk hs, exec_idle hi, runMove_present_idle _ ((decode_isIdle_iff hd).1 hi)]

/-- A free agent's issue captures a request it admits (40_port_protocol.md R101). -/
theorem runMove_present_of_admitted (isa : Isa) {r : ReqWord} {s : State} (hc : clientOf s.cfg r.port = .free)
    (hi : isIdlePort s.block r.port = true) (ha : Admitted s.cfg r) :
    runMove isa (.present r) s = .next { s with block := setPending s.block r } := by
  simp only [runMove, presentReq, ha.1, hc, if_false, if_true]
  exact issue_of_admitted hi ha

/-- Settles O27: an operation within its widths and an illegal request within its bundle's are ones an issue admits. -/
theorem issueCapturesTheRequest : Obligations.IssueCapturesTheRequest := by
  intro isa s r hc hi hop hlegal hbadC hbadP
  have hw : widthOk s.cfg r = true := by
    cases hd : decode r with
    | ok i => simpa [widthOk, hd] using hlegal i hd
    | error e =>
      cases r with
      | c w => simpa [widthOk, hd, rawWidthOk] using hbadC w e rfl hd
      | p w => simpa [widthOk, hd, rawWidthOk] using hbadP w e rfl hd
  refine ⟨_, runMove_present_of_admitted isa hc hi ⟨hop, hw⟩, pendingReq_setPending _ _, ?_⟩
  cases r <;> simp [setPending, ReqWord.port]

/-! ### Progress along a fair order -/

/-- From the invariant the perform of a `Pending` port answers it (40_port_protocol.md R102, R106). -/
theorem answered_of_perform {isa : Isa} {s t : State} (hs : Invariant s) {port : Port} {r : ReqWord}
    (hr : pendingReq s.block port = some r) (h : runMove isa (.perform port) s = .next t) :
    answered t.block port ≠ none := by
  cases hd : decode r with
  | ok i =>
    rw [runMove_perform isa (hs.pending port) (performed_of_decode hr hd)] at h
    cases h
    obtain ⟨st, ha, -⟩ := bodyOf_answers s.cfg ((hs.pending port r hr).op hd).1 hs.gFb hs.gMb
    rw [port_of_pending hr hd] at ha
    simp [ha]
  | error e =>
    have hbad : runMove isa (.perform port) s =
        .next { s with block := raiseFault s.cfg port .badOp s.block } := by
      simp [runMove, performPort, hr, hd, performOn_of_pending]
    cases hbad.symm.trans h
    simp

theorem consumerWaits_iff {c : Consumer} :
    consumerWaits c = true ↔ c.checkDue = false ∧
      (c.phase = .inputCheck ∨
        c.phase = .execute ∧ ∃ rec a n v nx, c.fetched = some rec ∧ rec.action = .store a n v nx) := by
  have hstore (rec : IsaRecord) : isStore rec.action = true ↔ ∃ a n v nx, rec.action = .store a n v nx := by
    cases rec.action <;> simp [isStore]
  cases hp : c.phase <;> simp [consumerWaits, hp, Option.any_eq_true, hstore]

theorem producerWaits_iff {p : Producer} :
    producerWaits p = true ↔ p.phase = .snapshot ∨ p.phase = .input ∧ ∃ e rest, p.todo = some (e :: rest) := by
  cases hp : p.phase
  case input => rcases ht : p.todo with _ | _ | ⟨e, rest⟩ <;> simp [producerWaits, hp, ht]
  all_goals simp [producerWaits, hp]

theorem answered_c_ne_none {b : Block} : answered b .c ≠ none ↔ ∃ r, b.cPort = .done r := by
  cases h : b.cPort <;> simp [answered, h]

theorem answered_p_ne_none {b : Block} : answered b .p ≠ none ↔ ∃ r, b.pPort = .done r := by
  cases h : b.pPort <;> simp [answered, h]

theorem answered_retireC (r : CRsp) (s : State) : answered (retireC r s).block .c = none := by
  by_cases hst : r.st = .fault <;> simp [answered, hst]

theorem answered_retireP (r : PRsp) (s : State) : answered (retireP r s).block .p = none := by
  by_cases hst : r.st = .fault <;> simp [answered, hst]

/-- A running consumer with no shutdown check due in InputCheck takes its InputCheck step (43_activities.md R176). -/
theorem runMove_consumer_inputCheck {isa : Isa} {s : State} (hc : s.cfg.cClient = .activity)
    (hrun : s.cons.run = .running) (hdue : s.cons.checkDue = false) (hphase : s.cons.phase = .inputCheck) :
    runMove isa .consumer s = stepInputCheck isa s := by
  simp [runMove, stepConsumer, hc, hrun, hdue, hphase]

/-- InputCheck retires the answer of its TAKE and acts on it (43_activities.md R177). -/
theorem stepInputCheck_of_answered {isa : Isa} {s : State} {r : CRsp} (hp : s.block.cPort = .done r) :
    stepInputCheck isa s = .next { retireC r s with cons := afterTake isa s.cfg r (retireC r s).cons } := by
  simp [stepInputCheck, hp]

/-- A running consumer that waits retires the response when it has come (43_activities.md R177, R181). -/
theorem runMove_consumer_of_answered (isa : Isa) {s : State} {r : CRsp} (hc : s.cfg.cClient = .activity)
    (hrun : s.cons.run = .running) (hw : consumerWaits s.cons = true) (hp : s.block.cPort = .done r) :
    ∃ c, runMove isa .consumer s = .next { retireC r s with cons := c } := by
  obtain ⟨hdue, hphase | ⟨hphase, rec, a, n, v, nx, hf, ha⟩⟩ := consumerWaits_iff.1 hw
  · exact ⟨_, (runMove_consumer_inputCheck hc hrun hdue hphase).trans (stepInputCheck_of_answered hp)⟩
  · exact ⟨_, (runMove_consumer_execute hc hrun hdue hphase).trans (stepExecute_of_answered hf ha hp)⟩

/-- A running producer that waits retires the response when it has come (43_activities.md R172, R173). -/
theorem runMove_producer_of_answered (isa : Isa) (es : List Event) (ok : Bool) {s : State} {r : PRsp}
    (hc : s.cfg.pClient = .activity) (hrun : s.prod.run = .running) (hw : producerWaits s.prod = true)
    (hp : s.block.pPort = .done r) :
    ∃ p, runMove isa (.producer es ok) s = .next { retireP r s with prod := p } := by
  rcases producerWaits_iff.1 hw with hphase | ⟨hphase, e, rest, ht⟩
  · rw [runMove_producer_snapshot hc hrun hphase, stepSnapshot, hp]
    simp only
    split <;> exact ⟨_, rfl⟩
  · rw [runMove_producer_input hc hrun hphase, stepInput, ht, hp]
    simp only
    split <;> exact ⟨_, rfl⟩

/-- From the invariant a step of a running agent retires the response on its port (40_port_protocol.md R103). -/
theorem not_answered_of_agentMove {isa : Isa} {m : Move} {s t : State} (hs : Invariant s) {port : Port}
    (hrun : agentRunning s port = true) (ha : answered s.block port ≠ none) (hm : isAgentMove s.cfg port m = true)
    (h : runMove isa m s = .next t) : answered t.block port = none := by
  obtain ⟨st, hst⟩ := Option.ne_none_iff_exists'.1 ha
  obtain ⟨-, -, hidle⟩ := views_of_answered hst
  have hwaits := fun hc => hs.waits port hc hrun hidle
  cases port with
  | c =>
    obtain ⟨r, hp⟩ := answered_c_ne_none.1 ha
    rcases isAgentMove_c_iff.1 hm with ⟨hc, rfl⟩ | ⟨hc, rfl⟩
    · obtain ⟨c, hstep⟩ := runMove_consumer_of_answered isa hc (agentRunning_c.1 hrun) (hwaits hc) hp
      cases hstep.symm.trans h
      exact answered_retireC r s
    · cases (retireFree_c_of_answered hc hp).symm.trans h
      exact answered_retireC r s
  | p =>
    obtain ⟨r, hp⟩ := answered_p_ne_none.1 ha
    rcases isAgentMove_p_iff.1 hm with ⟨hc, es, ok, rfl⟩ | ⟨hc, rfl⟩
    · obtain ⟨p, hstep⟩ := runMove_producer_of_answered isa es ok hc (agentRunning_p.1 hrun) (hwaits hc) hp
      cases hstep.symm.trans h
      exact answered_retireP r s
    · cases (retireFree_p_of_answered hc hp).symm.trans h
      exact answered_retireP r s

/-- Only its own steps end an agent (43_activities.md R170). -/
theorem Effect.agentRunning_eq {s t : State} {m : Move} (he : Effect s m t) {port : Port}
    (hm : isAgentMove s.cfg port m = false) : agentRunning t port = agentRunning s port := by
  cases port with
  | c =>
    cases he with
    | consumerRetires _ _ hact => simp [isAgentMove, hact] at hm
    | consumerMoves _ hact => simp [isAgentMove, hact] at hm
    | freeRetiresC _ hc => simp [isAgentMove, hc] at hm
    | _ => rfl
  | p =>
    cases he with
    | producerRetires _ _ _ _ hact => simp [isAgentMove, hact] at hm
    | producerMoves _ _ _ _ hact => simp [isAgentMove, hact] at hm
    | freeRetiresP _ hc => simp [isAgentMove, hc] at hm
    | _ => rfl

/-- Progress: where every move keeps `P` until `Q`, and a move that fires ends `P` in `Q`, an order in which a move
fires reaches `Q`, unless the run is refused first. -/
theorem exists_reached_or_refused {isa : Isa} {P Q : State → Prop} {fires : Move → Prop}
    (hstep : ∀ m s t, P s → runMove isa m s = .next t → Q t ∨ (P t ∧ ¬ fires m)) {n : Nat} {order : Nat → Move}
    (hn : fires (order n)) {s : State} (hs : P s) :
    ∃ n, (∃ t, runMoves isa ((List.range n).map order) s = .next t ∧ Q t) ∨
      (∃ why, runMoves isa ((List.range n).map order) s = .refused why) := by
  cases h : runMove isa (order 0) s with
  | next t =>
    rcases hstep _ _ _ hs h with hq | ⟨hp, hno⟩
    · exact ⟨1, .inl ⟨t, by simp [runMoves, h], hq⟩⟩
    · cases n with
      | zero => exact absurd hn hno
      | succ n =>
        obtain ⟨k, hk⟩ := exists_reached_or_refused hstep (order := order ∘ Nat.succ) hn hp
        exact ⟨k + 1, by simpa [List.range_succ_eq_map, runMoves, h] using hk⟩
  | fault f => exact absurd h runMove_ne_fault
  | refused why => exact ⟨1, .inr ⟨why, by simp [runMoves, h]⟩⟩

/-- Settles O41: a pending request stays until its perform, and a response until a step of its running agent; fairness
brings both. -/
theorem fairOrderPerformsEveryRequest : Obligations.FairOrderPerformsEveryRequest := by
  intro isa s port order hs hfair
  obtain ⟨hperforms, hagents⟩ := hfair port
  refine ⟨fun hpend => ?_, fun hrun ha => ?_⟩
  · obtain ⟨n, -, hn⟩ := hperforms 0
    refine exists_reached_or_refused (P := fun s => Invariant s ∧ pendingReq s.block port ≠ none)
      (fires := (· = .perform port)) (fun m s t ⟨hs, hpend⟩ h => ?_) hn ⟨hs, hpend⟩
    obtain ⟨r, hr⟩ := Option.ne_none_iff_exists'.1 hpend
    by_cases hm : m = .perform port
    · subst hm
      exact .inl (answered_of_perform hs hr h)
    · have he := runMove_effect h
      exact .inr ⟨⟨he.keeps_invariant hs, by simp [(he.samePort_of_pending hr hm).views.1, hr]⟩, hm⟩
  · obtain ⟨n, -, hn⟩ := hagents 0
    refine exists_reached_or_refused
      (P := fun t => Invariant t ∧ t.cfg = s.cfg ∧ agentRunning t port = true ∧ answered t.block port ≠ none)
      (fires := fun m => isAgentMove s.cfg port m = true) (fun m u t ⟨hu, hk, hrun, ha⟩ h => ?_) hn ⟨hs, rfl, hrun, ha⟩
    have he := runMove_effect h
    by_cases hm : isAgentMove u.cfg port m = true
    · exact .inl (not_answered_of_agentMove hu hrun ha hm h)
    · obtain ⟨st, hst⟩ := Option.ne_none_iff_exists'.1 ha
      have hsame := (he.samePort_or_retires hst).resolve_right fun hret => hm hret.byAgent
      obtain ⟨-, hanswered, -⟩ := hsame.views
      exact .inr ⟨⟨he.keeps_invariant hu, he.cfg_eq.trans hk,
        (he.agentRunning_eq (by simpa using hm)).trans hrun, by rwa [hanswered]⟩, hk ▸ hm⟩

end Sys2Proof.Machine
end

section
/-! PROOF. The settled statements on the frame buffer (41_framebuffer.md): what SET, GET and SNAPSHOT do, and the frame
buffer along a run as the writes the run performs. -/

namespace Sys2Proof.Machine

open Sys2Proof

/-! ### SET, GET and SNAPSHOT -/

theorem inFb_iff {k : Config} {x y : Nat} : inFb k x y = true ↔ x < k.width ∧ y < k.height := by
  simp [inFb]

/-- Coordinates are out of bounds when one of them is (41_framebuffer.md R120). -/
theorem inFb_eq_false_iff {k : Config} {x y : Nat} : inFb k x y = false ↔ k.width ≤ x ∨ k.height ≤ y := by
  rw [← Bool.not_eq_true, inFb_iff, not_and_or, not_lt, not_lt]

section
variable {k : Config} {x y : Coord} {b : Block}

/-- SET in bounds with `g_fb` free writes its pixel and answers OK (41_framebuffer.md R121). -/
theorem bodyOf_set_inFb (c : Pixel) (hin : inFb k x.toNat y.toNat = true) (hg : b.gFb = none) :
    bodyOf k (.set x y c) b = { b with fb := Grid.put b.fb x.toNat y.toNat c, cPort := .done (plainC .ok) } := by
  simp [bodyOf, setBody, hin, putPixel, underFb_free hg, respondC, hg]

/-- SET out of bounds faults (41_framebuffer.md R121). -/
theorem bodyOf_set_outOfFb (c : Pixel) (hout : inFb k x.toNat y.toNat = false) :
    bodyOf k (.set x y c) b = raiseFault k .c .fbBounds b := by
  simp [bodyOf, setBody, hout]

/-- GET in bounds answers its pixel (41_framebuffer.md R122). -/
theorem bodyOf_get_inFb (hin : inFb k x.toNat y.toNat = true) :
    bodyOf k (.get x y) b = respondC b { plainC .ok with rdata := Grid.pixel b.fb x.toNat y.toNat } := by
  simp [bodyOf, getBody, hin]

/-- GET out of bounds faults (41_framebuffer.md R122). -/
theorem bodyOf_get_outOfFb (hout : inFb k x.toNat y.toNat = false) :
    bodyOf k (.get x y) b = raiseFault k .c .fbBounds b := by
  simp [bodyOf, getBody, hout]

end

/-- Settles O12: a pending SET runs its body, in bounds the write and out of bounds the fault. -/
theorem setWritesOnePixelOrFaults : Obligations.SetWritesOnePixelOrFaults := by
  intro x y c s hpend
  rw [exec_of_pending hpend]
  refine ⟨fun hx hy hg => ?_, fun hout => ?_⟩
  · rw [bodyOf_set_inFb c (inFb_iff.2 ⟨hx, hy⟩) hg]
  · rw [bodyOf_set_outOfFb c (inFb_eq_false_iff.2 hout)]
    rfl

/-- Settles O13: a pending GET runs its body, in bounds the read and out of bounds the fault; neither asks for `g_fb`. -/
theorem getReadsOnePixelOrFaults : Obligations.GetReadsOnePixelOrFaults := by
  intro x y s hpend
  rw [exec_of_pending hpend]
  refine ⟨fun hx hy => ?_, fun hout => ?_⟩
  · rw [bodyOf_get_inFb (inFb_iff.2 ⟨hx, hy⟩)]
    rfl
  · rw [bodyOf_get_outOfFb (inFb_eq_false_iff.2 hout)]
    rfl

/-- Settles O15: a pending SNAPSHOT runs its body. -/
theorem snapshotCopiesTheWholeGrid : Obligations.SnapshotCopiesTheWholeGrid := by
  intro s hpend hg
  rw [exec_of_pending hpend, bodyOf_snapshot_free hg]

/-! ### Writes applied to a grid -/

/-- Only a pixel of the grid is written (41_framebuffer.md R121, R124). -/
theorem inFb_of_writtenPixel {k : Config} {i : Instr} {x y : Nat} {c : Pixel}
    (h : writtenPixel k i = some (x, y, c)) : inFb k x y = true := by
  have hw : writtenPixel k i ≠ none := by simp [h]
  rcases set_or_vstore_of_writtenPixel hw with ⟨x', y', c', rfl⟩ | ⟨a, c', rfl⟩
  · obtain ⟨hin, rfl, rfl, -⟩ := writtenPixel_set_iff.1 h
    exact hin
  · exact vramMap_pixel_inFb (writtenPixel_vstore_iff.1 h).1

theorem applyWrites_of_writes {k : Config} {i : Instr} {x y : Nat} {c : Pixel} (h : writtenPixel k i = some (x, y, c))
    (is : List Instr) (g : Grid) : applyWrites k (i :: is) g = applyWrites k is (Grid.put g x y c) := by
  simp [applyWrites, h]

theorem applyWrites_of_writes_none {k : Config} {i : Instr} (h : writtenPixel k i = none) (is : List Instr) (g : Grid) :
    applyWrites k (i :: is) g = applyWrites k is g := by
  simp [applyWrites, h]

theorem applyWrites_append (k : Config) (is js : List Instr) (g : Grid) :
    applyWrites k (is ++ js) g = applyWrites k js (applyWrites k is g) := by
  induction is generalizing g with
  | nil => rfl
  | cons i is ih =>
    rw [List.cons_append]
    cases h : writtenPixel k i with
    | none => rw [applyWrites_of_writes_none h, applyWrites_of_writes_none h, ih]
    | some p => rw [applyWrites_of_writes h, applyWrites_of_writes h, ih]

/-- A pixel none of the operations writes keeps its colour. -/
theorem pixel_applyWrites_other {k : Config} {is : List Instr} {x y : Nat}
    (h : ∀ i ∈ is, ∀ c, writtenPixel k i ≠ some (x, y, c)) (g : Grid) :
    Grid.pixel (applyWrites k is g) x y = Grid.pixel g x y := by
  induction is generalizing g with
  | nil => rfl
  | cons i is ih =>
    obtain ⟨hi, his⟩ := List.forall_mem_cons.1 h
    cases hw : writtenPixel k i with
    | none => rw [applyWrites_of_writes_none hw, ih his]
    | some p =>
      rw [applyWrites_of_writes hw, ih his, Grid.pixel_put_other]
      rintro ⟨⟩
      exact hi _ hw

/-- With `g_fb` free the body of an operation applies its write, if it has one. -/
theorem bodyOf_fb_free (k : Config) (i : Instr) {b : Block} (hg : b.gFb = none) :
    (bodyOf k i b).fb = applyWrites k [i] b.fb := by
  rw [bodyOf_fb, hg]
  cases h : writtenPixel k i with
  | none => rw [applyWrites_of_writes_none h]; rfl
  | some p => rw [applyWrites_of_writes h]; rfl

/-! ### Runs -/

theorem runMoves_cons_next_iff {isa : Isa} {m : Move} {ms : List Move} {s u : State} :
    runMoves isa (m :: ms) s = .next u ↔ ∃ t, runMove isa m s = .next t ∧ runMoves isa ms t = .next u := by
  cases h : runMove isa m s <;> simp [runMoves, h]

theorem performedAll_cons_of_next {isa : Isa} {m : Move} {s t : State} (h : runMove isa m s = .next t)
    (ms : List Move) : performedAll isa (m :: ms) s = (performed m s).toList ++ performedAll isa ms t := by
  simp [performedAll, h]

/-- What every effect of a move keeps, a run keeps. -/
theorem runMoves_keeps {isa : Isa} {P : State → Prop} (hkeeps : ∀ {s m t}, Effect s m t → P s → P t) {ms : List Move}
    {s t : State} (h : runMoves isa ms s = .next t) (hs : P s) : P t := by
  induction ms generalizing s with
  | nil => cases h; exact hs
  | cons m ms ih =>
    obtain ⟨w, hm, hms⟩ := runMoves_cons_next_iff.1 h
    exact ih hms (hkeeps (runMove_effect hm) hs)

theorem runMoves_keeps_invariant {isa : Isa} {ms : List Move} {s t : State} (h : runMoves isa ms s = .next t)
    (hs : Invariant s) : Invariant t :=
  runMoves_keeps Effect.keeps_invariant h hs

theorem cfg_of_runMoves {isa : Isa} {ms : List Move} {s t : State} (h : runMoves isa ms s = .next t) :
    t.cfg = s.cfg :=
  runMoves_keeps (P := fun w => w.cfg = s.cfg) (fun he hw => he.cfg_eq.trans hw) h rfl

/-- What holds of each operation along a run holds of the operations the run performs. -/
theorem forall_performedAll_of_along {isa : Isa} (Q : Config → Instr → Prop) {ms : List Move} {s t : State}
    (h : runMoves isa ms s = .next t)
    (ha : along isa (fun m w => ∀ i, performed m w = some i → Q w.cfg i) ms s) :
    ∀ i ∈ performedAll isa ms s, Q s.cfg i := by
  induction ms generalizing s with
  | nil => simp [performedAll]
  | cons m ms ih =>
    obtain ⟨w, hm, hms⟩ := runMoves_cons_next_iff.1 h
    obtain ⟨hhead, htail⟩ := ha
    intro i hi
    rw [performedAll_cons_of_next hm, List.mem_append, Option.mem_toList] at hi
    rcases hi with hi | hi
    · exact hhead i hi
    · exact (runMove_effect hm).cfg_eq ▸ ih hms (htail w hm) i hi

/-- Only a perform performs an operation (40_port_protocol.md R102). -/
theorem eq_perform_of_performed {m : Move} {s : State} {i : Instr} (h : performed m s = some i) :
    ∃ port, m = .perform port := by
  cases m with
  | perform port => exact ⟨port, rfl⟩
  | _ => cases h

/-- From the invariant a move applies to the frame buffer the write of the operation it performs, and nothing else. -/
theorem fb_of_runMove {isa : Isa} {m : Move} {s t : State} (hs : Invariant s) (h : runMove isa m s = .next t) :
    t.block.fb = applyWrites s.cfg (performed m s).toList s.block.fb := by
  cases hp : performed m s with
  | some i =>
    obtain ⟨port, rfl⟩ := eq_perform_of_performed hp
    cases (runMove_perform isa (hs.pending port) hp).symm.trans h
    exact bodyOf_fb_free s.cfg i hs.gFb
  | none =>
    rcases (runMove_effect h).block_cases with hb | ⟨port, r, i, rfl, hr, hd, -⟩ | ⟨port, -, hb⟩
    · rw [hb]; rfl
    · cases hp.symm.trans (performed_of_decode hr hd)
    · rw [hb]; cases port <;> rfl

/-- From the invariant the frame buffer after a run is the one before it with the writes the run performs applied in
order (20_memory.md R65). -/
theorem fb_of_runMoves {isa : Isa} {ms : List Move} {s t : State} (hs : Invariant s)
    (h : runMoves isa ms s = .next t) :
    t.block.fb = applyWrites s.cfg (performedAll isa ms s) s.block.fb := by
  induction ms generalizing s with
  | nil => cases h; rfl
  | cons m ms ih =>
    obtain ⟨w, hm, hms⟩ := runMoves_cons_next_iff.1 h
    have he := runMove_effect hm
    calc t.block.fb
      _ = applyWrites w.cfg (performedAll isa ms w) w.block.fb := ih (he.keeps_invariant hs) hms
      _ = applyWrites s.cfg (performedAll isa ms w) (applyWrites s.cfg (performed m s).toList s.block.fb) := by
        rw [he.cfg_eq, fb_of_runMove hs hm]
      _ = applyWrites s.cfg (performedAll isa (m :: ms) s) s.block.fb := by
        rw [performedAll_cons_of_next hm, applyWrites_append]

/-! ### GET after a write -/

/-- Settles O36: the write's colour is in the frame buffer, the operations in between leave its pixel, and GET answers
what it reads. -/
theorem getReturnsTheLastColourWritten : Obligations.GetReturnsTheLastColourWritten := by
  intro isa s t u i ms x y c hs hperf hw hwrite ha hms hget
  have ht := (runMove_effect hwrite).keeps_invariant hs
  have hin := inFb_of_writtenPixel hw
  obtain ⟨hx, hy⟩ := inFb_iff.1 hin
  have hwritten : Grid.pixel t.block.fb x.toNat y.toNat = c := by
    rw [fb_of_runMove hs hwrite, hperf, Option.toList_some, applyWrites_of_writes hw]
    exact Grid.pixel_put_same hs.fb hx hy c
  have hkept : Grid.pixel u.block.fb x.toNat y.toNat = c := by
    have hother := forall_performedAll_of_along (fun k j => ∀ d, writtenPixel k j ≠ some (x.toNat, y.toNat, d)) hms ha
    rw [fb_of_runMoves ht hms, pixel_applyWrites_other hother, hwritten]
  have hk : u.cfg = s.cfg := (cfg_of_runMoves hms).trans (runMove_effect hwrite).cfg_eq
  refine ⟨_, runMove_perform isa ((runMoves_keeps_invariant hms ht).pending .c) hget, ?_⟩
  rw [hk, bodyOf_get_inFb hin, hkept]
  rfl

/-! ### SNAPSHOT from reset -/

/-- Reset of a well-formed configuration with an image that fits meets the invariant (70_reset_and_hazards.md R231). -/
theorem invariant_resetOf {k : Config} {b : Boot} (hk : k.wf = true) (hform : Memory.wf b.image = true)
    (hsize : Memory.within k.memSize b.image = true) : Invariant (State.resetOf k b) := by
  obtain ⟨-, -, -, ⟨-, -, hmem, -⟩, -⟩ := Config.wf_bounds hk
  have hport (port : Port) : PortInvariant (State.resetOf k b) port := by
    cases port <;> exact .of_idle rfl rfl
  exact
    { cfg := hk
      memForm := hform
      memSize := hsize
      fb := gridOf_shaped k.width k.height b.fbInit
      pc := hmem
      kind := nofun
      code := cutCode_lt k b.mbCode
      gFb := rfl
      gMb := rfl
      faults := fun port => (hport port).faults
      pending := fun port => (hport port).pending
      stopped := fun port => (hport port).stopped
      waits := fun port => (hport port).waits
      todo := nofun }

/-- Settles O37: SNAPSHOT answers the frame buffer, which is FB_INIT with the writes of the run applied in order. -/
theorem snapshotShowsExactlyTheWritesBeforeIt : Obligations.SnapshotShowsExactlyTheWritesBeforeIt := by
  intro isa k b ms t hk hform hsize hms hsnap
  have hreset := invariant_resetOf hk hform hsize
  have ht := runMoves_keeps_invariant hms hreset
  have hfb : t.block.fb =
      applyWrites k (performedAll isa ms (State.resetOf k b)) (gridOf k.width k.height b.fbInit) :=
    fb_of_runMoves hreset hms
  refine ⟨_, runMove_perform isa (ht.pending .p) hsnap, ?_⟩
  rw [bodyOf_snapshot_free ht.gFb, ← hfb]

end Sys2Proof.Machine
end

section
/-! PROOF. The settled statements on the mailbox (42_mailbox.md): what TAKE does, and the slot along a run that posts no
event. Who writes the slot is said once, by `onlyPublishPostsAndOnlyTakeClears`. -/

namespace Sys2Proof.Machine

open Sys2Proof

/-! ### TAKE -/

section
variable {k : Config} {ie : Bool} {b : Block}

/-- TAKE on an occupied slot clears the flag and answers the event (42_mailbox.md R152). -/
theorem bodyOf_take_occupied (ho : b.mbOcc = true) (hg : b.gMb = none) :
    bodyOf k (.take ie) b = { b with mbOcc := false, cPort := .done (eventRsp k ie b.mbKind b.mbCode) } := by
  rw [bodyOf_take_free hg, if_pos ho]

/-- TAKE on an empty slot answers NO_EVENT and leaves the slot (42_mailbox.md R152). -/
theorem bodyOf_take_empty (ho : b.mbOcc = false) (hg : b.gMb = none) :
    bodyOf k (.take ie) b = { b with cPort := .done (plainC .noEvent) } := by
  simp [bodyOf_take_free hg, ho]

end

/-- Settles O11: a pending TAKE runs its body, which answers by the flag. -/
theorem takeChecksClearsAndReturns : Obligations.TakeChecksClearsAndReturns := by
  intro ie s hpend hg
  rw [exec_of_pending hpend]
  cases ho : s.block.mbOcc with
  | true =>
    rw [bodyOf_take_occupied ho hg]
    rfl
  | false =>
    rw [bodyOf_take_empty ho hg]
    rfl

/-! ### The slot along a run -/

/-- What the moves that meet `Q` keep, a run whose moves all meet `Q` keeps. -/
theorem runMoves_keeps_of_along {isa : Isa} {P : State → Prop} {Q : Move → State → Prop}
    (hkeeps : ∀ {m s t}, Q m s → runMove isa m s = .next t → P s → P t) {ms : List Move} {s t : State}
    (ha : along isa Q ms s) (h : runMoves isa ms s = .next t) (hs : P s) : P t := by
  induction ms generalizing s with
  | nil => cases h; exact hs
  | cons m ms ih =>
    obtain ⟨w, hm, hms⟩ := runMoves_cons_next_iff.1 h
    obtain ⟨hhead, htail⟩ := ha
    exact ih (htail w hm) hms (hkeeps hhead hm hs)

section
variable {isa : Isa} {s t : State}

/-- A move that posts nothing keeps an empty slot empty (20_memory.md R68). -/
theorem mbOcc_false_of_runMove {m : Move} (hno : ∀ i, performed m s = some i → posts i = false)
    (h : runMove isa m s = .next t) (ho : s.block.mbOcc = false) : t.block.mbOcc = false := by
  obtain ⟨hpost, -⟩ := onlyPublishPostsAndOnlyTakeClears isa m s t h
  by_contra ht
  obtain ⟨-, i, hi, hp⟩ := hpost (.inr (.inr ⟨ho, by simpa using ht⟩))
  simp [hno i hi] at hp

/-- A move that posts nothing and takes nothing leaves the slot (20_memory.md R68). -/
theorem slot_of_runMove {m : Move} (hno : ∀ i, performed m s = some i → posts i = false ∧ isTake i = false)
    (h : runMove isa m s = .next t) :
    t.block.mbKind = s.block.mbKind ∧ t.block.mbCode = s.block.mbCode ∧ t.block.mbOcc = s.block.mbOcc := by
  obtain ⟨hpost, hclear⟩ := onlyPublishPostsAndOnlyTakeClears isa m s t h
  have hposts : ¬ ∃ i, performed m s = some i ∧ posts i = true := fun ⟨i, hi, hp⟩ => by simp [(hno i hi).1] at hp
  have htakes : ¬ ∃ i, performed m s = some i ∧ isTake i = true := fun ⟨i, hi, ht⟩ => by simp [(hno i hi).2] at ht
  refine ⟨by_contra fun hk => hposts (hpost (.inl hk)).2, by_contra fun hc => hposts (hpost (.inr (.inl hc))).2, ?_⟩
  cases ho : s.block.mbOcc with
  | true => exact by_contra fun ht => htakes (hclear ⟨ho, by simpa using ht⟩).2
  | false => exact mbOcc_false_of_runMove (fun i hi => (hno i hi).1) h ho

variable {ms : List Move}

/-- A run that posts nothing keeps an empty slot empty (20_memory.md R68). -/
theorem mbOcc_false_of_runMoves (ha : along isa (fun m w => ∀ i, performed m w = some i → posts i = false) ms s)
    (h : runMoves isa ms s = .next t) (ho : s.block.mbOcc = false) : t.block.mbOcc = false :=
  runMoves_keeps_of_along (P := fun w => w.block.mbOcc = false) mbOcc_false_of_runMove ha h ho

/-- A run that posts nothing and takes nothing leaves the slot (20_memory.md R68). -/
theorem slot_of_runMoves
    (ha : along isa (fun m w => ∀ i, performed m w = some i → posts i = false ∧ isTake i = false) ms s)
    (h : runMoves isa ms s = .next t) :
    t.block.mbKind = s.block.mbKind ∧ t.block.mbCode = s.block.mbCode ∧ t.block.mbOcc = s.block.mbOcc := by
  refine runMoves_keeps_of_along
    (P := fun w => w.block.mbKind = s.block.mbKind ∧ w.block.mbCode = s.block.mbCode ∧ w.block.mbOcc = s.block.mbOcc)
    (fun hno hm hw => ?_) ha h ⟨rfl, rfl, rfl⟩
  obtain ⟨hkind, hcode, hocc⟩ := hw
  obtain ⟨hkind', hcode', hocc'⟩ := slot_of_runMove hno hm
  exact ⟨hkind'.trans hkind, hcode'.trans hcode, hocc'.trans hocc⟩

end

/-- Settles O38: the PUBLISH fills the slot with its event, the run leaves the slot, and TAKE answers what it holds. -/
theorem takeReturnsTheLatestPublished : Obligations.TakeReturnsTheLatestPublished := by
  intro isa s t u e code ie ms hs hperf hpublish ha hms htake
  have hu := runMoves_keeps_invariant hms ((runMove_effect hpublish).keeps_invariant hs)
  obtain ⟨hkind, hcode, hocc⟩ := slot_of_runMoves ha hms
  cases (runMove_perform isa (hs.pending .p) hperf).symm.trans hpublish
  simp only [bodyOf_publish_free hs.gMb] at hkind hcode hocc
  have hanswer := runMove_perform isa (hu.pending .c) htake
  rw [bodyOf_take_occupied hocc hu.gMb] at hanswer
  exact ⟨_, _, hanswer, rfl, rfl, hkind.trans (by cases e <;> rfl), hcode, rfl⟩

/-- Settles O39: the first TAKE answers the event and empties the slot, the run keeps it empty, and the second TAKE
answers NO_EVENT. -/
theorem takeTwiceReturnsEventThenNothing : Obligations.TakeTwiceReturnsEventThenNothing := by
  intro isa s ie ie' hs hperf hocc
  have hfirst := runMove_perform isa (hs.pending .c) hperf
  have ht := (runMove_effect hfirst).keeps_invariant hs
  rw [bodyOf_take_occupied hocc hs.gMb] at hfirst ht
  refine ⟨_, hfirst, rfl, fun ms u ha hms htake => ?_⟩
  have hu := runMoves_keeps_invariant hms ht
  have hempty := mbOcc_false_of_runMoves ha hms rfl
  have hsecond := runMove_perform isa (hu.pending .c) htake
  rw [bodyOf_take_empty hempty hu.gMb] at hsecond
  exact ⟨_, hsecond, rfl⟩

end Sys2Proof.Machine
end

section
/-! PROOF. The settled statements on the activities (43_activities.md): the host's shutdown signals, InputCheck and the
interrupt, Advance, the shutdown check, the end of a run, and the FAULT that stops the producer. -/

namespace Sys2Proof.Machine

open Sys2Proof

/-! ### The host's shutdown signals -/

/-- A move leaves both shutdown signals, or is the host's and asserts the ones it names (43_activities.md R186). -/
theorem Effect.shutdown_cases {s t : State} {m : Move} (he : Effect s m t) :
    (t.host.shutC = s.host.shutC ∧ t.host.shutP = s.host.shutP) ∨
      ∃ c p, m = .shutdown c p ∧ t = assertShutdown c p s := by
  cases he with
  | asserts c p => exact .inr ⟨c, p, rfl, rfl⟩
  | _ => exact .inl ⟨rfl, rfl⟩

/-- Settles O17: among the effects of a move only the host's asserts a signal, and it withdraws none. -/
theorem shutdownMoveAssertsTheSignal : Obligations.ShutdownMoveAssertsTheSignal := by
  intro isa s
  refine ⟨fun _ _ => rfl, fun m t h => ?_⟩
  rcases (runMove_effect h).shutdown_cases with ⟨hC, hP⟩ | ⟨c, p, hm, ht⟩
  · simp [hC, hP]
  · refine ⟨fun hC => ?_, fun hP => ?_, fun _ => ⟨c, p, hm⟩⟩
    · simp [ht, assertShutdown, hC]
    · simp [ht, assertShutdown, hP]

/-! ### InputCheck and the interrupt -/

section
variable {k : Config} {c : Consumer}

/-- A dispatch to a target inside the image changes the pc alone (43_activities.md R179). -/
theorem dispatch_inImage (h : vectorTarget k c.mem < k.memSize) :
    dispatch k c = { c with pc := vectorTarget k c.mem } := by
  simp [dispatch, h]

/-- A dispatch to a target outside the image ends the run (43_activities.md R179). -/
theorem dispatch_outOfImage (h : k.memSize ≤ vectorTarget k c.mem) :
    dispatch k c = { c with run := .fatal .jumpOob } := by
  simp [dispatch, h]

variable {isa : Isa} {r : CRsp}

/-- NO_EVENT leads to Fetch (43_activities.md R177). -/
theorem afterTake_noEvent (h : r.st = .noEvent) : afterTake isa k r c = { c with phase := .fetch } := by
  simp [afterTake, h]

/-- The keyboard status after an EVENT, whatever follows it (43_activities.md R178). -/
theorem afterTake_kbd_of_event (h : r.st = .event) :
    (afterTake isa k r c).kbd = isa.kbdUpdate c.kbd r.rkind r.rcode := by
  obtain ⟨-, -, -, hkbd⟩ := dispatch_registers k { c with kbd := isa.kbdUpdate c.kbd r.rkind r.rcode }
  cases hirq : r.irq <;> simp [afterTake, h, hirq, apply_ite Consumer.kbd, hkbd]

variable (h : r.st = .event)
include h

/-- An EVENT with no interrupt request updates the keyboard status and leads to Fetch (43_activities.md R178). -/
theorem afterTake_event_noIrq (hrun : c.run = .running) (hirq : r.irq = false) :
    afterTake isa k r c = { c with kbd := isa.kbdUpdate c.kbd r.rkind r.rcode, phase := .fetch } := by
  simp [afterTake, h, hirq, hrun]

/-- An EVENT with an interrupt request jumps to a target inside the image, and leads to Fetch there
(43_activities.md R179). -/
theorem afterTake_event_irq_inImage (hrun : c.run = .running) (hirq : r.irq = true)
    (ht : vectorTarget k c.mem < k.memSize) :
    afterTake isa k r c =
      { c with kbd := isa.kbdUpdate c.kbd r.rkind r.rcode, pc := vectorTarget k c.mem, phase := .fetch } := by
  simp [afterTake, h, hirq, hrun, dispatch_inImage, ht]

/-- An EVENT with an interrupt request whose target is outside the image ends the run (43_activities.md R179). -/
theorem afterTake_event_irq_outOfImage (hirq : r.irq = true) (ht : k.memSize ≤ vectorTarget k c.mem) :
    afterTake isa k r c =
      { c with kbd := isa.kbdUpdate c.kbd r.rkind r.rcode, run := .fatal .jumpOob } := by
  simp [afterTake, h, hirq, dispatch_outOfImage, ht]

end

/-- InputCheck frees port C of an answer that is no FAULT, reads it and acts on it (43_activities.md R177). -/
theorem stepInputCheck_of_ne_fault {isa : Isa} {s : State} {r : CRsp} (hp : s.block.cPort = .done r)
    (hst : r.st ≠ .fault) :
    stepInputCheck isa s = .next { s with
      block := { s.block with cPort := .idle }
      cons := afterTake isa s.cfg r { s.cons with last := some r } } := by
  simp [stepInputCheck_of_answered hp, hst, crunAfter_of_ne]

/-- InputCheck on an `Idle` port issues the TAKE (43_activities.md R177). -/
theorem stepInputCheck_of_idle {isa : Isa} {s : State} (hp : s.block.cPort = .idle) :
    stepInputCheck isa s = .next { s with block := setPending s.block (encode (.take s.cons.ie)) } := by
  rw [stepInputCheck, hp]
  exact issue_encode_of_wf (isIdlePort_c.2 hp) rfl rfl

/-- Settles O42: the word of the TAKE decodes back to it, and NO_EVENT has one equation of `afterTake`. -/
theorem inputCheckTakesInEveryCycle : Obligations.InputCheckTakesInEveryCycle := by
  intro isa s hc hrun hdue hphase
  rw [runMove_consumer_inputCheck hc hrun hdue hphase]
  refine ⟨fun hp => ⟨_, decode_encode (.take s.cons.ie), stepInputCheck_of_idle hp⟩, fun r hp hst => ?_⟩
  rw [stepInputCheck_of_ne_fault hp (by simp [hst]), afterTake_noEvent hst]

/-- Settles O43: a dispatch leaves the keyboard status the EVENT has given. -/
theorem eventUpdatesTheKeyboardStatus : Obligations.EventUpdatesTheKeyboardStatus := by
  intro isa s r hc hrun hdue hphase hp hst
  rw [runMove_consumer_inputCheck hc hrun hdue hphase, stepInputCheck_of_ne_fault hp (by simp [hst])]
  refine ⟨_, rfl, afterTake_kbd_of_event hst, fun hirq => ?_⟩
  rw [afterTake_event_noIrq (c := { s.cons with last := some r }) hst hrun hirq]

/-- Settles O44: the target of the statement is `vectorTarget`, and `dispatch` has one equation for each side of
MEM_SIZE. -/
theorem interruptJumpsThroughTheVector : Obligations.InterruptJumpsThroughTheVector := by
  intro isa s r hc hrun hdue hphase hp hst hirq bytes target kbd
  have htarget : target = vectorTarget s.cfg s.cons.mem := by
    cases he : s.cfg.vecEndian <;> simp [target, bytes, vectorTarget, natOfBytesIn, he]
  rw [runMove_consumer_inputCheck hc hrun hdue hphase, stepInputCheck_of_ne_fault hp (by simp [hst]), htarget]
  refine ⟨fun hin => ?_, fun hout => ?_⟩
  · rw [afterTake_event_irq_inImage (c := { s.cons with last := some r }) hst hrun hirq hin]
  · rw [afterTake_event_irq_outOfImage (c := { s.cons with last := some r }) hst hirq hout]

/-! ### Advance -/

section
variable {k : Config} {len t : Nat} {c : Consumer}

/-- A sequential advance to MEM_SIZE or beyond ends the run (43_activities.md R182). -/
theorem goNext_seq_atEnd (h : k.memSize ≤ c.pc + len) : goNext k len .seq c = { c with run := .endedEnd } := by
  simp [goNext, h]

theorem goNext_seq_inImage (h : c.pc + len < k.memSize) : goNext k len .seq c = { c with pc := c.pc + len } := by
  simp [goNext, h]

/-- A jump to MEM_SIZE or beyond is fatal (43_activities.md R182). -/
theorem goNext_jump_outOfImage (h : k.memSize ≤ t) :
    goNext k len (.jump t) c = { c with run := .fatal .jumpOob } := by
  simp [goNext, h, consumerFatal]

theorem goNext_jump_inImage (h : t < k.memSize) : goNext k len (.jump t) c = { c with pc := t } := by
  simp [goNext, h]

variable {rec : IsaRecord}

/-- A store whose next is sequential advances like an instruction that is no store (43_activities.md R182). -/
theorem advance_of_seq (h : rec.action = .seq ∨ ∃ a n v, rec.action = .store a n v .seq) :
    advance k rec c = goNext k rec.len .seq c := by
  rcases h with h | ⟨a, n, v, h⟩ <;> simp [advance, h]

/-- A store whose next is a jump advances like a jump (43_activities.md R182). -/
theorem advance_of_jump (h : rec.action = .jump t ∨ ∃ a n v, rec.action = .store a n v (.jump t)) :
    advance k rec c = goNext k rec.len (.jump t) c := by
  rcases h with h | ⟨a, n, v, h⟩ <;> simp [advance, h]

theorem advance_of_halt (h : rec.action = .halt) : advance k rec c = { c with run := .endedHalt } := by
  simp [advance, h]

end

/-- A running consumer with no shutdown check due in Advance takes its Advance step (43_activities.md R176). -/
theorem runMove_consumer_advance {isa : Isa} {s : State} (hc : s.cfg.cClient = .activity)
    (hrun : s.cons.run = .running) (hdue : s.cons.checkDue = false) (hphase : s.cons.phase = .advance) :
    runMove isa .consumer s = stepAdvance s := by
  simp [runMove, stepConsumer, hc, hrun, hdue, hphase]

/-- Advance goes back to InputCheck with the shutdown check due (43_activities.md R182, R183). -/
theorem stepAdvance_of_fetched {s : State} {rec : IsaRecord} (hf : s.cons.fetched = some rec) :
    stepAdvance s = .next { s with cons :=
      { advance s.cfg rec s.cons with phase := .inputCheck, fetched := none, checkDue := true } } := by
  simp [stepAdvance, hf]

/-- Settles O48: the action gives the way on, and each way has one equation for each side of MEM_SIZE. -/
theorem advanceMovesOrEnds : Obligations.AdvanceMovesOrEnds := by
  intro isa s rec hc hrun hdue hphase hf home goes isSeq isJump
  have hstep := (runMove_consumer_advance (isa := isa) hc hrun hdue hphase).trans (stepAdvance_of_fetched hf)
  refine ⟨fun ha hend => ?_, fun ha hin => ?_, fun t ha hout => ?_, fun t ha hin => ?_, fun ha => ?_⟩ <;>
    refine hstep.trans ?_
  · rw [advance_of_seq ha, goNext_seq_atEnd hend]
  · rw [advance_of_seq ha, goNext_seq_inImage hin]
  · rw [advance_of_jump ha, goNext_jump_outOfImage hout]
  · rw [advance_of_jump ha, goNext_jump_inImage hin]
  · rw [advance_of_halt ha]

/-! ### The shutdown check -/

/-- A running consumer with the shutdown check due takes it (43_activities.md R183). -/
theorem runMove_consumer_check {isa : Isa} {s : State} (hc : s.cfg.cClient = .activity)
    (hrun : s.cons.run = .running) (hdue : s.cons.checkDue = true) : runMove isa .consumer s = stepCheck s := by
  simp [runMove, stepConsumer, hc, hrun, hdue]

/-- An ended consumer takes no step (43_activities.md R183, R184). -/
theorem runMove_consumer_of_ended (isa : Isa) {s : State} (h : s.cons.run ≠ .running) :
    runMove isa .consumer s = .next s := by
  simp [runMove, stepConsumer, h]

/-- A running consumer with no shutdown check due is not shut down by its step (43_activities.md R183). -/
theorem Effect.run_ne_shutdown {s t : State} (he : Effect s .consumer t) (hrun : s.cons.run = .running)
    (hdue : s.cons.checkDue = false) : t.cons.run ≠ .shutdown := by
  have hns : s.cons.run ≠ .shutdown := by simp [hrun]
  cases he with
  | consumerRetires _ _ _ _ _ _ _ hend => exact hend
  | consumerMoves _ _ _ _ _ _ hend => exact hend hdue
  | _ => exact hns

/-- Settles O49: the check is the step that is due, and no other agent ends the consumer's activity. -/
theorem shutdownIsSeenBetweenCycles : Obligations.ShutdownIsSeenBetweenCycles := by
  intro isa s hc hrun
  refine ⟨fun hdue => ?_, fun hdue t h => (runMove_effect h).run_ne_shutdown hrun hdue, fun m t hm h => ?_,
    fun u hu => runMove_consumer_of_ended isa (by simp [hu])⟩
  · rw [runMove_consumer_check hc hrun hdue, stepCheck, hrun]
  · have hagent : isAgentMove s.cfg .c m = false :=
      Bool.eq_false_iff.2 fun ha => by simp [isAgentMove_c_iff, hc, hm] at ha
    rw [← agentRunning_c, (runMove_effect h).agentRunning_eq hagent, agentRunning_c, hrun]

/-! ### The end of a run -/

/-- After the end of a run a move leaves the consumer, port C and its fault register, and the frame buffer: port C has
nothing pending, and nothing issues there (43_activities.md R187). -/
theorem Effect.frame_of_ended {s t : State} {m : Move} (he : Effect s m t) (hc : s.cfg.cClient = .activity)
    (hend : Ended s) : t.cons = s.cons ∧ SamePort s.block t.block .c ∧ t.block.fb = s.block.fb := by
  obtain ⟨hrun, hport⟩ := hend
  have hpending {port : Port} {r : ReqWord} (hr : pendingReq s.block port = some r) : Port.c ≠ port := by
    rintro rfl
    rcases hport with hp | hp <;> simp [pendingReq, hp] at hr
  cases he with
  | performs port r i hr hd =>
    have hne : Port.c ≠ i.port := port_of_pending hr hd ▸ hpending hr
    have hw : writtenPixel s.cfg i = none := by_contra fun hw => hne (port_of_writtenPixel hw).symm
    exact ⟨rfl, bodyOf_samePort _ _ hne, bodyOf_fb_of_writes_none hw _⟩
  | faultsBadOp port r e hr =>
    exact ⟨rfl, raiseFault_samePort _ _ _ (hpending hr), by cases port <;> rfl⟩
  | issues r hfree =>
    have hne : Port.c ≠ r.port := fun h => by simp [← h, hc] at hfree
    exact ⟨rfl, setPending_samePort _ hne, by cases r <;> rfl⟩
  | consumerIssues _ _ _ _ hr => exact absurd hr hrun
  | consumerRetires _ _ _ hr => exact absurd hr hrun
  | consumerMoves _ _ hr => exact absurd hr hrun
  | freeRetiresC _ hfree => simp [hc] at hfree
  | _ => exact ⟨rfl, ⟨rfl, rfl⟩, rfl⟩

/-- Settles O51: each move of the run keeps its start's observation and its end. -/
theorem endedRunKeepsItsObservation : Obligations.EndedRunKeepsItsObservation := by
  intro isa s t ms hc hend h
  obtain ⟨-, hended, hobs⟩ : t.cfg.cClient = .activity ∧ Ended t ∧ observed t = observed s := by
    refine runMoves_keeps (P := fun w => w.cfg.cClient = .activity ∧ Ended w ∧ observed w = observed s)
      (fun he ⟨hcw, hendw, hobs⟩ => ?_) h ⟨hc, hend, rfl⟩
    obtain ⟨hcons, ⟨hport, hfault⟩, hfb⟩ := he.frame_of_ended hcw hendw
    exact ⟨by rwa [he.cfg_eq], by rwa [Ended, hcons, hport], by rwa [observed, hcons, hfb, hfault]⟩
  exact ⟨hended, hobs⟩

/-! ### The end of the producer -/

/-- The retire of a FAULT stops port P and a running producer (43_activities.md R175). -/
theorem retireP_of_fault {r : PRsp} {s : State} (h : r.st = .fault) (hrun : s.prod.run = .running) :
    retireP r s = { s with
      block := { s.block with pPort := .stopped }
      prod := { s.prod with last := some r, run := .stopped } } := by
  simp [retireP, h, hrun]

/-- A running producer that waits retires a FAULT and does no more (43_activities.md R175). -/
theorem runMove_producer_of_fault (isa : Isa) (es : List Event) (ok : Bool) {s : State} {r : PRsp}
    (hc : s.cfg.pClient = .activity) (hrun : s.prod.run = .running) (hw : producerWaits s.prod = true)
    (hp : s.block.pPort = .done r) (hst : r.st = .fault) :
    runMove isa (.producer es ok) s = .next (retireP r s) := by
  rcases producerWaits_iff.1 hw with hphase | ⟨hphase, e, rest, ht⟩
  · rw [runMove_producer_snapshot hc hrun hphase]
    simp [stepSnapshot, hp, hst]
  · rw [runMove_producer_input hc hrun hphase]
    simp [stepInput, ht, hp, hst]

/-- A producer that is not running takes no step (43_activities.md R174, R175). -/
theorem runMove_producer_of_ended (isa : Isa) (es : List Event) (ok : Bool) {s : State} (h : s.prod.run ≠ .running) :
    runMove isa (.producer es ok) s = .next s := by
  simp [runMove, stepProducer, h]

/-- Settles O57: a producer that waits does nothing with a FAULT but retire it. -/
theorem producerFaultStopsTheProducerAlone : Obligations.ProducerFaultStopsTheProducerAlone := by
  intro isa s es ok r hc hrun hp hst hphase
  refine ⟨?_, fun u => runMove_producer_of_ended isa es ok⟩
  rw [runMove_producer_of_fault isa es ok hc hrun (producerWaits_iff.2 hphase) hp hst, retireP_of_fault hst hrun]

end Sys2Proof.Machine
end

section
/-! PROOF. The settled statements on the exceptions (60_exceptions.md): the operations that fault, what a FAULT leaves
unchanged, the unadmitted ops, and the agents beside a consumer that has ended. -/

namespace Sys2Proof.Machine

open Sys2Proof

/-! ### VSTORE and PUBLISH -/

section
variable {k : Config} {a : Addr} {c : Pixel} {b : Block}

/-- VSTORE outside the VRAM range answers NOT_VRAM, with no grant (41_framebuffer.md R124). -/
theorem bodyOf_vstore_notVram (h : vramMap k a.toNat = .notVram) :
    bodyOf k (.vstore a c) b = respondC b (plainC .notVram) := by
  simp [bodyOf, vstoreBody, h]

/-- VSTORE off a pixel boundary faults (60_exceptions.md R203). -/
theorem bodyOf_vstore_misaligned (h : vramMap k a.toNat = .misaligned) :
    bodyOf k (.vstore a c) b = raiseFault k .c .vramAlign b := by
  simp [bodyOf, vstoreBody, h]

/-- VSTORE past the last column faults (60_exceptions.md R202). -/
theorem bodyOf_vstore_outOfFb (h : vramMap k a.toNat = .outOfFb) :
    bodyOf k (.vstore a c) b = raiseFault k .c .vramMap b := by
  simp [bodyOf, vstoreBody, h]

theorem bodyOf_vstore_pixel {x y : Nat} (h : vramMap k a.toNat = .pixel x y) :
    bodyOf k (.vstore a c) b = putPixel x y c b := by
  simp [bodyOf, vstoreBody, h]

/-- A pixel written with `g_fb` free, and the answer OK (41_framebuffer.md R124). -/
theorem putPixel_free {x y : Nat} (h : b.gFb = none) :
    putPixel x y c b = { b with fb := Grid.put b.fb x y c, cPort := .done (plainC .ok) } := by
  simp [putPixel, underFb_free h, respondC, h]

end

/-- Settles O14: a pending VSTORE runs its body, which follows the decode of its address. -/
theorem vstoreFollowsTheVramDecode : Obligations.VstoreFollowsTheVramDecode := by
  intro a c s hpend k off inRange r
  rw [exec_of_pending hpend]
  have hin (h : inRange) : inVram k a.toNat = true := inVram_iff.2 h
  refine ⟨fun hout => ?_, fun h hmis => ?_, fun h hal hcol => ?_, fun h hal hcol hg => ?_⟩
  · rw [bodyOf_vstore_notVram (vramMap_notVram_iff.2 (mt inVram_iff.1 hout))]
    rfl
  · rw [bodyOf_vstore_misaligned (by rw [vramMap_of_inVram (hin h), if_neg hmis])]
    rfl
  · rw [bodyOf_vstore_outOfFb (by rw [vramMap_of_inVram (hin h), if_pos hal, if_neg (not_lt.2 hcol)])]
    rfl
  · rw [bodyOf_vstore_pixel (by rw [vramMap_of_inVram (hin h), if_pos hal, if_pos hcol]), putPixel_free hg]

/-- Settles O16: a pending PUBLISH runs its body, which posts an edge and faults for any other kind. -/
theorem publishOverwritesTheSlotOrFaults : Obligations.PublishOverwritesTheSlotOrFaults := by
  intro code s hpend
  refine ⟨fun hg => ?_, fun kind hkind => ?_⟩
  · have hpost (e : Edge) := exec_of_pending (i := .publish (edgeField e) code) hpend
    simp only [bodyOf_publish_free hg] at hpost
    exact ⟨hpost .pressed, hpost .released⟩
  · have hno : posts (.publish kind code) = false := by rcases hkind with rfl | rfl <;> rfl
    rw [exec_of_pending hpend, bodyOf_publish_fault hno]
    rfl

/-! ### The answer FAULT -/

/-- A port after a body under `g_fb` is as the body leaves it, or as it was while the body waits (40_port_protocol.md
R106). -/
theorem answered_underFb (port q : Port) (body : Block → Block) (b : Block) :
    answered (underFb port body b) q = answered b q ∨
      answered (underFb port body b) q = answered (body { b with gFb := some port }) q := by
  cases hg : b.gFb with
  | some _ => exact .inl (by rw [underFb_held hg])
  | none => exact .inr (by rw [underFb_free hg]; cases q <;> rfl)

/-- A port after a body under `g_mb`, as `answered_underFb` (40_port_protocol.md R106). -/
theorem answered_underMb (port q : Port) (body : Block → Block) (b : Block) :
    answered (underMb port body b) q = answered b q ∨
      answered (underMb port body b) q = answered (body { b with gMb := some port }) q := by
  cases hg : b.gMb with
  | some _ => exact .inl (by rw [underMb_held hg])
  | none => exact .inr (by rw [underMb_free hg]; cases q <;> rfl)

section
variable {b : Block}

theorem putPixel_answers_no_fault (x y : Nat) (c : Pixel) (h : answered b .c = none) :
    answered (putPixel x y c b) .c ≠ some .fault := by
  rcases answered_underFb .c .c _ b with ha | ha <;> rw [putPixel, ha]
  · simp [h]
  · simp [answered, plainC]

theorem snapshotBody_answers_no_fault (h : answered b .p = none) : answered (snapshotBody b) .p ≠ some .fault := by
  rcases answered_underFb .p .p _ b with ha | ha <;> rw [snapshotBody, ha]
  · simp [h]
  · simp [answered]

theorem takeBody_answers_no_fault (k : Config) (ie : Bool) (h : answered b .c = none) :
    answered (takeBody k ie b) .c ≠ some .fault := by
  rcases answered_underMb .c .c _ b with ha | ha <;> rw [takeBody, ha]
  · simp [h]
  · cases b.mbOcc <;> simp [answered, plainC, eventRsp]

theorem postEvent_answers_no_fault (k : Config) (kind : EventKind) (code : KeyCode) (h : answered b .p = none) :
    answered (postEvent k kind code b) .p ≠ some .fault := by
  rcases answered_underMb .p .p _ b with ha | ha <;> rw [postEvent, ha]
  · simp [h]
  · simp [answered, plainP]

/-- A body that answers FAULT takes the one fault action and no other, whoever holds the grants (60_exceptions.md
R200). -/
theorem bodyOf_eq_raiseFault {k : Config} {i : Instr} (h : answered b i.port = none)
    (hf : answered (bodyOf k i b) i.port = some .fault) :
    ∃ cause, cause ≠ .none ∧ bodyOf k i b = raiseFault k i.port cause b := by
  cases i with
  | idle port => exact absurd (h.symm.trans hf) (by simp)
  | take ie => exact absurd hf (takeBody_answers_no_fault k ie h)
  | set x y c =>
    cases hin : inFb k x.toNat y.toNat with
    | true =>
      have hbody : bodyOf k (.set x y c) b = putPixel x.toNat y.toNat c b := by simp [bodyOf, setBody, hin]
      exact absurd (hbody ▸ hf) (putPixel_answers_no_fault _ _ c h)
    | false => exact ⟨.fbBounds, by decide, bodyOf_set_outOfFb c hin⟩
  | get x y =>
    cases hin : inFb k x.toNat y.toNat with
    | true => simp [bodyOf_get_inFb hin, Instr.port, answered, plainC] at hf
    | false => exact ⟨.fbBounds, by decide, bodyOf_get_outOfFb hin⟩
  | vstore a c =>
    cases hv : vramMap k a.toNat with
    | notVram => simp [bodyOf_vstore_notVram hv, Instr.port, answered, plainC] at hf
    | misaligned => exact ⟨.vramAlign, by decide, bodyOf_vstore_misaligned hv⟩
    | outOfFb => exact ⟨.vramMap, by decide, bodyOf_vstore_outOfFb hv⟩
    | pixel x y => exact absurd (bodyOf_vstore_pixel hv ▸ hf) (putPixel_answers_no_fault x y c h)
  | publish kind code =>
    cases kind with
    | pressed => exact absurd hf (postEvent_answers_no_fault k .pressed code h)
    | released => exact absurd hf (postEvent_answers_no_fault k .released code h)
    | none => exact ⟨.badKind, by decide, bodyOf_publish_fault rfl b⟩
    | reserved => exact ⟨.badKind, by decide, bodyOf_publish_fault rfl b⟩
  | snapshot => exact absurd hf (snapshotBody_answers_no_fault h)

end

/-- Settles O21: an operation runs with its request pending, so a FAULT on its port is its own, by the one fault
action. -/
theorem faultingOperationWritesOnlyItsRegister : Obligations.FaultingOperationWritesOnlyItsRegister := by
  intro i s t h hi hf
  rw [exec_eq_performOn hi] at h
  obtain ⟨hpend, rfl⟩ := performOn_next_iff.1 h
  obtain ⟨r, hr⟩ := Option.ne_none_iff_exists'.1 hpend
  obtain ⟨cause, hcause, hbody⟩ := bodyOf_eq_raiseFault (views_of_pending hr).1 hf
  rw [hbody]
  constructor <;> intro hport <;> rw [hport] <;> exact ⟨hcause, rfl⟩

/-! ### Unadmitted ops -/

/-- The perform of a request with an unadmitted op takes the fault action with BAD_OP, whatever its fields hold
(60_exceptions.md R204). -/
theorem runMove_perform_of_unadmitted (isa : Isa) {s : State} {port : Port} {r : ReqWord}
    (hr : pendingReq s.block port = some r) (hop : r.op ∉ admittedOps r.port) :
    runMove isa (.perform port) s = .next { s with block := raiseFault s.cfg port .badOp s.block } := by
  obtain ⟨hadm, -⟩ | ⟨-, hd⟩ := decode_verdict r
  · exact absurd hadm hop
  · have hpend : pendingReq s.block port ≠ none := by simp [hr]
    simp [runMove, performPort, hr, hd, performOn_of_pending hpend]

/-- Settles O23: the step runs the perform lined up, and the ops listed are the unadmitted ones of their port. -/
theorem unadmittedOpFaultsBadOp : Obligations.UnadmittedOpFaultsBadOp := by
  have hc : ∀ op : BitVec 4, op.toNat ∈ [0x5, 0x6, 0x7, 0x8, 0x9, 0xA, 0xB, 0xC, 0xD, 0xE, 0xF] →
      op ∉ admittedOps .c := by decide
  have hp : ∀ op : BitVec 4, op.toNat ∈ [0x1, 0x2, 0x3, 0x4, 0x5, 0x6, 0x7, 0xA, 0xB, 0xC, 0xD, 0xE, 0xF] →
      op ∉ admittedOps .p := by decide
  refine ⟨fun s ms w hk hs hw hop => ?_, fun s ms w hk hs hw hop => ?_⟩ <;> rw [step_of_sched hk hs]
  · exact runMove_perform_of_unadmitted _ (r := .c w) (by simp [pendingReq, hw]) (hc _ hop)
  · exact runMove_perform_of_unadmitted _ (r := .p w) (by simp [pendingReq, hw]) (hp _ hop)

/-! ### A consumer that has ended -/

/-- No move but the consumer's own changes the end of a consumer that has ended: the retire of a free agent keeps it
(43_activities.md R184). -/
theorem Effect.run_of_ended {s t : State} {m : Move} (he : Effect s m t) (hm : m ≠ .consumer)
    (hend : s.cons.run ≠ .running) : t.cons.run = s.cons.run := by
  cases he with
  | consumerIssues => exact absurd rfl hm
  | consumerRetires => exact absurd rfl hm
  | consumerMoves => exact absurd rfl hm
  | freeRetiresC rsp => exact crunAfter_ended hend _ _
  | _ => rfl

theorem performOn_withCons (c : Consumer) (port : Port) (body : Block → Block) (s : State) :
    performOn port body (withCons c s) = mapNext (withCons c) (performOn port body s) := by
  cases hr : pendingReq s.block port <;> simp [performOn, withCons, hr, mapNext]

theorem exec_withCons (c : Consumer) (i : Instr) (s : State) :
    exec i (withCons c s) = mapNext (withCons c) (exec i s) := by
  cases hi : i.isIdle with
  | true => rw [exec_idle hi, exec_idle hi, mapNext]
  | false =>
    rw [exec_eq_performOn hi, exec_eq_performOn hi]
    exact performOn_withCons c i.port (bodyOf s.cfg i) s

/-- The perform of a port does not see the consumer (40_port_protocol.md R102). -/
theorem performPort_withCons (c : Consumer) (port : Port) (s : State) :
    performPort port (withCons c s) = mapNext (withCons c) (performPort port s) := by
  cases hr : pendingReq s.block port with
  | none => simp [performPort, withCons, hr, mapNext]
  | some r =>
    cases hd : decode r with
    | error e =>
      simpa [performPort, withCons, hr, hd] using performOn_withCons c port (raiseFault s.cfg port .badOp) s
    | ok i =>
      cases hw : i.wf s.cfg with
      | true => simpa [performPort, withCons, hr, hd, hw] using exec_withCons c i s
      | false => simp [performPort, withCons, hr, hd, hw, mapNext]

/-- Settles O56: an ended consumer has no step of its own, and the block's perform and the producer's step do not see
which consumer stands beside them. -/
theorem consumerEndStopsTheConsumerAlone : Obligations.ConsumerEndStopsTheConsumerAlone := by
  intro isa s hend
  refine ⟨runMove_consumer_of_ended isa hend, fun m t hm h => (runMove_effect h).run_of_ended hm hend,
    fun m c hm => ?_⟩
  rcases hm with rfl | ⟨es, ok, rfl⟩
  · exact performPort_withCons s.cons .p (withCons c s)
  · exact stepProducer_withCons s.cons es ok (withCons c s)

end Sys2Proof.Machine
end

section
/-! PROOF. The settled statements on reset (70_reset_and_hazards.md R231): the reset state meets the invariant, and every
field of the spec is at its stated value. That any well-formed reset meets the invariant is `invariant_resetOf`. -/

namespace Sys2Proof.Machine

open Sys2Proof

/-- Configuration E passes every check of 00_scope.md R8. -/
theorem specE_wf : Config.specE.wf = true := by decide

/-- Settles O59: Configuration E is well-formed and the image of `State.reset` lists nothing, so `State.reset` is one of
the resets of `invariant_resetOf`. -/
theorem resetMeetsTheInvariant : Obligations.ResetMeetsTheInvariant :=
  ⟨invariant_resetOf (b := Config.boot) specE_wf rfl rfl, fun _ _ => invariant_resetOf⟩

/-- Settles O60: the draw of `mb_code` is cut to KEY_W bits, the grid is FB_INIT pixel by pixel, and every other field is
given its value outright. -/
theorem resetLeavesTheStatedValues : Obligations.ResetLeavesTheStatedValues := by
  intro k b s
  have hcode : s.block.mbCode.toNat < 2 ^ k.keyW := cutCode_lt k b.mbCode
  have hshape : Grid.shaped k.width k.height s.block.fb = true := gridOf_shaped k.width k.height b.fbInit
  have hpixel : ∀ x y, x < k.width → y < k.height → Grid.pixel s.block.fb x y = b.fbInit x y :=
    fun _ _ => gridOf_pixel b.fbInit
  have hmem : ∀ a, Memory.read s.cons.mem a = Memory.read b.image a := fun _ => rfl
  exact ⟨rfl, hcode, rfl, hshape, hpixel, rfl, rfl, rfl, rfl, rfl, rfl, rfl, rfl, rfl, hmem, rfl, rfl, rfl, rfl, rfl,
    rfl⟩

end Sys2Proof.Machine
end
